-- ==== Sys2Proof/Word.lean ====
section
/-! DEFINITION. The word types of SBC-CORE: bytes, 32-bit registers and command words, and the 9-bit
word addresses of the register space. -/

namespace Sys2Proof

/-- A byte of the stream, an operand of a command word, an 8-bit register field. -/
abbrev Byte := BitVec 8

/-- A 32-bit register, a command word (R52, R200). -/
abbrev Word := BitVec 32

/-- A 9-bit word address of the register space (R52, R150). -/
abbrev Addr := BitVec 9

end Sys2Proof
end

