-- ==== Sys2Proof/Syntax.lean ====
section
/-! DEFINITION. The commands of SBC-CORE: one constructor for each row of spec/opcode_table.json
(30_encoding.md R202). -/

namespace Sys2Proof

/-- A command. An operand is the 8-bit field of the command word it is taken from (R201); which values
are legal is `Instr.wf`. -/
inductive Instr where
  /-- `br.reset` (R302). -/
  | brReset
  /-- `br.read8 n` (R303). -/
  | brRead8 (n : Byte)
  /-- `br.read16 n` (R304). -/
  | brRead16 (n : Byte)
  /-- `crc.init v` (R355). -/
  | crcInit (v : Byte)
  /-- `crc.byte x` (R356). -/
  | crcByte (x : Byte)
  /-- `crc.bits x, k` (R357). -/
  | crcBits (x k : Byte)
  /-- `hdr.decode` (R403). -/
  | hdrDecode
  /-- `hdr.encode` (R404). -/
  | hdrEncode
  /-- `alloc` (R450). -/
  | alloc
  /-- `recon` (R502). -/
  | recon
  /-- `synth` (R554). -/
  | synth
  /-- `filter.reset` (R555). -/
  | filterReset
  /-- `frame.start.crc` (R601). -/
  | frameStartCrc
  /-- `frame.start.nocrc` (R602). -/
  | frameStartNocrc
  /-- `frame.next` (R604). -/
  | frameNext
  deriving DecidableEq, Repr

end Sys2Proof
end

