-- ==== Sys2Proof/WellFormed.lean ====
section
/-! DEFINITION. Which commands have a legal command word: the operand ranges of 30_encoding.md R202. -/

namespace Sys2Proof

/-- The operands lie in the ranges of R202: n in 0..8, n in 0..16, k in 0..7. The operands v, b and x
may be any byte. -/
def Instr.wf : Instr → Bool
  | .brRead8 n => n.toNat ≤ 8
  | .brRead16 n => n.toNat ≤ 16
  | .crcBits _ k => k.toNat ≤ 7
  | .brReset | .crcInit _ | .crcByte _ | .hdrDecode | .hdrEncode | .alloc | .recon | .synth
  | .filterReset | .frameStartCrc | .frameStartNocrc | .frameNext => true

end Sys2Proof
end

