-- ==== Sys2Proof/Decode.lean ====
section
/-! DEFINITION. The command word (30_encoding.md R200 to R204): its fields, the decoder, total on every
32-bit value and rejecting by name, and the encoder, both written from the map of R202. -/

namespace Sys2Proof

/-- OP, bits [7:0] of a command word (R200). -/
def opOf (v : Word) : Byte := v.extractLsb' 0 8

/-- A, bits [15:8] of a command word (R200). -/
def aOf (v : Word) : Byte := v.extractLsb' 8 8

/-- B, bits [23:16] of a command word (R200). -/
def bOf (v : Word) : Byte := v.extractLsb' 16 8

/-- Z, bits [31:24] of a command word (R200). -/
def zOf (v : Word) : Byte := v.extractLsb' 24 8

/-- Why a word is no legal command (R203). Every one of these ends with BAD_COMMAND. -/
inductive Reject where
  /-- OP is not in the map of R202. -/
  | unknownOpcode
  /-- Z is not 0. -/
  | reservedNotZero
  /-- A field that the command does not use is not 0. -/
  | unusedNotZero
  /-- An operand lies outside its range in R202. -/
  | operandOutOfRange
  deriving DecidableEq, Repr

/-- The checks on A, B and Z of a command without operands (R203, R204). -/
def operandsNone (i : Instr) (a b z : Byte) : Except Reject Instr :=
  if z ≠ 0 then .error .reservedNotZero
  else if a ≠ 0 ∨ b ≠ 0 then .error .unusedNotZero
  else .ok i

/-- The checks of a command that uses A alone, in 0..max (R203, R204). -/
def operandsA (f : Byte → Instr) (max : Nat) (a b z : Byte) : Except Reject Instr :=
  if z ≠ 0 then .error .reservedNotZero
  else if b ≠ 0 then .error .unusedNotZero
  else if max < a.toNat then .error .operandOutOfRange
  else .ok (f a)

/-- The checks of a command that uses A in 0..maxA and B in 0..maxB (R203, R204). -/
def operandsAB (f : Byte → Byte → Instr) (maxA maxB : Nat) (a b z : Byte) : Except Reject Instr :=
  if z ≠ 0 then .error .reservedNotZero
  else if maxA < a.toNat ∨ maxB < b.toNat then .error .operandOutOfRange
  else .ok (f a b)

/-- The command selected by OP alone (R204), its operands checked by R203. -/
def decodeFields (op : Nat) (a b z : Byte) : Except Reject Instr :=
  match op with
  | 0x10 => operandsNone .brReset a b z
  | 0x11 => operandsA .brRead8 8 a b z
  | 0x12 => operandsA .brRead16 16 a b z
  | 0x20 => operandsA .crcInit 255 a b z
  | 0x21 => operandsA .crcByte 255 a b z
  | 0x22 => operandsAB .crcBits 255 7 a b z
  | 0x30 => operandsNone .hdrDecode a b z
  | 0x31 => operandsNone .hdrEncode a b z
  | 0x40 => operandsNone .alloc a b z
  | 0x50 => operandsNone .recon a b z
  | 0x60 => operandsNone .synth a b z
  | 0x61 => operandsNone .filterReset a b z
  | 0x70 => operandsNone .frameStartCrc a b z
  | 0x71 => operandsNone .frameStartNocrc a b z
  | 0x72 => operandsNone .frameNext a b z
  | _ => .error .unknownOpcode

/-- The command a 32-bit value written to CMD stands for, or why it is illegal (R200 to R204). -/
def decode (v : Word) : Except Reject Instr :=
  decodeFields (opOf v).toNat (aOf v) (bOf v) (zOf v)

/-- The command word with the given fields and Z = 0 (R200). -/
def commandWord (op a b : Byte) : Word := 0#8 ++ b ++ a ++ op

/-- The command word of a command (R202, R208). -/
def encode : Instr → Word
  | .brReset => commandWord 0x10 0 0
  | .brRead8 n => commandWord 0x11 n 0
  | .brRead16 n => commandWord 0x12 n 0
  | .crcInit v => commandWord 0x20 v 0
  | .crcByte x => commandWord 0x21 x 0
  | .crcBits x k => commandWord 0x22 x k
  | .hdrDecode => commandWord 0x30 0 0
  | .hdrEncode => commandWord 0x31 0 0
  | .alloc => commandWord 0x40 0 0
  | .recon => commandWord 0x50 0 0
  | .synth => commandWord 0x60 0 0
  | .filterReset => commandWord 0x61 0 0
  | .frameStartCrc => commandWord 0x70 0 0
  | .frameStartNocrc => commandWord 0x71 0 0
  | .frameNext => commandWord 0x72 0 0

/-- The decoder on a word of the opcode table, whose bits it numbers as R200 does: every bit at or
above `nbits` is 0. -/
def decodeTableWord (nbits w : Nat) : Option Instr :=
  (decode (BitVec.ofNat 32 (w % 2 ^ nbits))).toOption

end Sys2Proof
end

