-- ==== Sys2Proof/Config.lean ====
section
/-! DEFINITION. What one instance of SBC-CORE is built with (00_scope.md R7 to R11): the parameters the
model takes as an argument (`Params`), and the OPEN synthesis tables of the instance that `State.reset`
describes, as constants without a body. The values R9 uses stand in Machine/Parameters.lean. -/

namespace Sys2Proof

/-- CFG_CH: the number of channels an instance is built for (R7). -/
inductive Channels where
  | one
  | two
  deriving DecidableEq, Repr

/-- CFG_SB: the number of sub-bands an instance is built for (R7). -/
inductive Subbands where
  | four
  | eight
  deriving DecidableEq, Repr

/-- The number of channels as a number (R55, R58). -/
def Channels.toNat : Channels → Nat
  | .one => 1
  | .two => 2

/-- The number of sub-bands as a number (R55, R58). -/
def Subbands.toNat : Subbands → Nat
  | .four => 4
  | .eight => 8

/-- The build-time parameters of one instance (R7, R9, R10). They are an argument of the model: every
claim about every state holds for every configuration and for every table. No command and no register
write changes them. -/
structure Params where
  /-- CFG_CH (R7). -/
  ch : Channels
  /-- CFG_SB (R7). -/
  sb : Subbands
  /-- SYNC_MSBC (R9, R400). -/
  syncMsbc : Byte
  /-- CRC_INIT, the initial value of the frame CRC (R9, R603). -/
  crcInit : Byte
  /-- LOUDNESS_SF0_MINUS5 (R9, R452). -/
  loudnessSf0Minus5 : Bool
  /-- OFFSET_4[FREQ][sb] (R453). -/
  offset4 : Vector (Vector Int 4) 4
  /-- OFFSET_8[FREQ][sb] (R453). -/
  offset8 : Vector (Vector Int 8) 4
  /-- COS_4[k][i] (R550). -/
  cos4 : Vector (Vector Int 4) 4
  /-- COS_8[k][i] (R550). -/
  cos8 : Vector (Vector Int 8) 8
  /-- WIN_4[t][j] (R550). -/
  win4 : Vector (Vector Int 4) 10
  /-- WIN_8[t][j] (R550). -/
  win8 : Vector (Vector Int 8) 10
  /-- SEL_4[p][j], an index in 0..3 by its type (R550). -/
  sel4 : Vector (Vector (Fin 4) 4) 2
  /-- SEL_8[p][j], an index in 0..7 by its type (R550). -/
  sel8 : Vector (Vector (Fin 8) 8) 2
  deriving DecidableEq, Repr

namespace Config

/-- OPEN (R9, R550): COS_4 of the instance `State.reset` describes; nothing is known of its value. -/
opaque cos4 : Vector (Vector Int 4) 4

/-- OPEN (R9, R550): COS_8 of the instance `State.reset` describes; nothing is known of its value. -/
opaque cos8 : Vector (Vector Int 8) 8

/-- OPEN (R9, R550): WIN_4 of the instance `State.reset` describes; nothing is known of its value. -/
opaque win4 : Vector (Vector Int 4) 10

/-- OPEN (R9, R550): WIN_8 of the instance `State.reset` describes; nothing is known of its value. -/
opaque win8 : Vector (Vector Int 8) 10

/-- OPEN (R9, R550): SEL_4 of the instance `State.reset` describes; nothing is known of its value. -/
opaque sel4 : Vector (Vector (Fin 4) 4) 2

/-- OPEN (R9, R550): SEL_8 of the instance `State.reset` describes; nothing is known of its value. -/
opaque sel8 : Vector (Vector (Fin 8) 8) 2

end Config

end Sys2Proof
end

