-- ==== Sys2Proof/Machine/Parameters.lean ====
section
/-! DEFINITION. The parameter values of 00_scope.md R9: the constants the document fixes, the spec's own
defaults for the others, and the instance that `State.reset` describes. -/

namespace Sys2Proof

namespace Config

/-- SYNC_SBC (R9, R400). -/
def syncSbc : Byte := 0x9C

/-- CRC_POLY: x^8 + x^4 + x^3 + x^2 + 1 without its x^8 term (R9, R350). -/
def crcPoly : Byte := 0x1D

/-- MSBC_BITPOOL (R9, R405). -/
def msbcBitpool : Byte := 24

/-- MSBC_BLOCKS (R9, R405). -/
def msbcBlocks : Nat := 15

/-- The parameters of an instance of configuration (CFG_CH, CFG_SB) with the values R9 uses. SYNC_MSBC,
CRC_INIT and the offset tables are the spec's own defaults from general knowledge (log entry 3); the
synthesis tables stay open (log entry 2). -/
def defaultParams (ch : Channels) (sb : Subbands) : Params where
  ch := ch
  sb := sb
  syncMsbc := 0xAD
  crcInit := 0x0F
  loudnessSf0Minus5 := false
  offset4 := #v[#v[-1, 0, 0, 0], #v[-2, 0, 0, 1], #v[-2, 0, 0, 1], #v[-2, 0, 0, 1]]
  offset8 := #v[#v[-2, 0, 0, 0, 0, 0, 0, 1], #v[-3, 0, 0, 0, 0, 0, 1, 2],
    #v[-4, 0, 0, 0, 0, 0, 1, 2], #v[-4, 0, 0, 0, 0, 0, 1, 2]]
  cos4 := cos4
  cos8 := cos8
  win4 := win4
  win8 := win8
  sel4 := sel4
  sel8 := sel8

/-- The instance that `State.reset` describes: one channel, four sub-bands, the configuration of the
document's scenarios. DESIGN CHOICE, unsafe (log entry 1): the spec gives four configurations and
singles none out; `State.resetOf` gives the state after reset of every other instance. -/
def built : Params := defaultParams .one .four

end Config

end Sys2Proof
end

