-- ==== Sys2Proof/Machine/State.lean ====
section
/-! DEFINITION. The state of one SBC-CORE instance as plain data (10_state.md R50 to R77), the actions
of the host that drive it (20_memory.md R151 to R153), the reasons a step could stop, and the state
after reset (70_reset_and_hazards.md R800). -/

namespace Sys2Proof.Machine

/-- Never raised: the spec gives the core no trap and no fault (R707). Every error of a command is a
status code and the core goes on, the hung state included (R704), so this type has no constructor. -/
inductive Fault where
  deriving DecidableEq, Repr

/-- Why exec gives no meaning to a command. -/
inductive Refusal where
  /-- The command has no meaning in the model yet; raised by exec's own arm, safe. No arm raises it now. -/
  | notModelled (mnemonic : String)
  deriving DecidableEq, Repr

/-- The status codes of R700 (the codes 8 to 15 are never written). -/
inductive StatusCode where
  | ok
  | underflow
  | configMismatch
  | checksumMismatch
  | noMoreBlocks
  | unrecognizedSync
  | badCommand
  | hung
  deriving DecidableEq, Repr

/-- FRAME.FSTATE (R62, R600). -/
inductive FrameState where
  | idle
  | active
  | exhausted
  deriving DecidableEq, Repr

/-- STATUS (R54). -/
structure Status where
  /-- CODE, the outcome of the last command. -/
  code : StatusCode
  /-- LASTOP, bits [7:0] of the last value written to CMD. -/
  lastop : Byte
  /-- HUNG, the hung state (R71, R704). -/
  hung : Bool
  deriving DecidableEq, Repr

/-- CRC (R60). -/
structure CrcReg where
  /-- ACC, the CRC-8 accumulator. -/
  acc : Byte
  /-- RX, the CRC byte that FRAME_START_CRC read. -/
  rx : Byte
  deriving DecidableEq, Repr

/-- The position in the byte stream (R74): the bit reader BR (R61) and the byte-source queue SRC (R153). -/
structure Stream where
  /-- BR.BUF, the last byte fetched from the source. -/
  buf : Byte
  /-- BR.REM, how many bits of BUF are unread: 0..7 between commands. -/
  rem : Nat
  /-- SRC, the bytes not yet taken, the head first. -/
  src : List Byte
  deriving DecidableEq, Repr

/-- FRAME (R62). -/
structure Frame where
  /-- FSTATE. -/
  fstate : FrameState
  /-- BLOCKS_LEFT, 0..16. -/
  blocksLeft : Nat
  /-- CURSOR, the shared step cursor 0..9. -/
  cursor : Fin 10
  /-- FRAME_BLOCKS, the block count of the current or last started frame. -/
  frameBlocks : Nat
  deriving DecidableEq, Repr

/-- A matrix with one cell for each channel and sub-band of the largest configuration; an instance has
only the cells of its own configuration (R70). -/
abbrev Mat (α : Type) := Vector (Vector α 8) 2

/-- An access of the host to the instance (R50). The host's accesses take effect one at a time in the
order it issues them (R160). -/
inductive HostAction where
  /-- RegWrite(a, v) (R152); a write to address 0 starts the command v (R53). -/
  | write (a : Addr) (v : Word)
  /-- RegRead(a) (R151). -/
  | read (a : Addr)
  /-- Appends bytes to the tail of SRC (R153). -/
  | push (bytes : List Byte)
  /-- The reset input (R800), with what the host leaves in SRC after it. -/
  | reset (src : List Byte)
  deriving DecidableEq, Repr

/-- The registers of the map (R52). -/
inductive Reg where
  | cmd
  | status
  | config
  | hdr
  | hdrInfo
  | result
  | crc
  | br
  | frame
  | join
  | sf (ch : Fin 2) (sb : Fin 8)
  | bits (ch : Fin 2) (sb : Fin 8)
  | sb (ch : Fin 2) (sb : Fin 8)
  | pcm (ch : Fin 2) (j : Fin 8)
  | hist (ch : Fin 2) (k : Fin 8) (t : Fin 10)
  deriving DecidableEq, Repr

/-- One SBC-CORE instance (R51) and the host's accesses to it that are still to come. -/
structure State where
  /-- The build-time parameters (R7, R9, R10); CONFIG reads them (R55). -/
  params : Params
  /-- STATUS (R54). -/
  status : Status
  /-- HDR (R56). -/
  hdr : Word
  /-- RESULT (R59). -/
  result : Word
  /-- CRC (R60). -/
  crc : CrcReg
  /-- BR (R61) and SRC (R153). -/
  stream : Stream
  /-- FRAME (R62). -/
  frame : Frame
  /-- JOIN (R63), bit sb for sub-band sb; the register's bits 8 to 31 read 0 always. -/
  join : BitVec 8
  /-- SF[ch][sb] (R64). -/
  sf : Mat (BitVec 4)
  /-- BITS[ch][sb] (R65). -/
  bits : Mat (BitVec 5)
  /-- SB[ch][sb] (R66). -/
  sb : Mat Word
  /-- PCM[ch][j] (R67); the register's bits [31:16] are the sign extension. -/
  pcm : Mat (BitVec 16)
  /-- HIST[ch][k][t] (R68). -/
  hist : Mat (Vector Word 10)
  /-- The model's own: the host's accesses still to come, the next one first (log entry 4). -/
  pending : List HostAction
  /-- The model's own: the value the host's last register read returned (log entry 5). -/
  readData : Word
  deriving DecidableEq, Repr

/-- The state after reset of an instance with parameters `p` when the host leaves `src` in SRC (R800):
every register 0, no access of the host pending. -/
def State.resetOf (p : Params) (src : List Byte) : State where
  params := p
  status := { code := .ok, lastop := 0, hung := false }
  hdr := 0
  result := 0
  crc := { acc := 0, rx := 0 }
  stream := { buf := 0, rem := 0, src := src }
  frame := { fstate := .idle, blocksLeft := 0, cursor := 0, frameBlocks := 0 }
  join := 0
  sf := Vector.replicate 2 (Vector.replicate 8 0)
  bits := Vector.replicate 2 (Vector.replicate 8 0)
  sb := Vector.replicate 2 (Vector.replicate 8 0)
  pcm := Vector.replicate 2 (Vector.replicate 8 0)
  hist := Vector.replicate 2 (Vector.replicate 8 (Vector.replicate 10 0))
  pending := []
  readData := 0

/-- The machine right after reset (R800): the instance `Config.built`, its source empty (log entries 1, 6). -/
def State.reset : State := State.resetOf Config.built []

end Sys2Proof.Machine
end

