-- ==== Sys2Proof/Machine/Operands.lean ====
section
/-! DEFINITION. What the commands read: the cells of the instance's configuration (R70), the cells of a
matrix (R15), the parameter tables (R453, R550), and the effective header, HDR_INFO (43_header.md R401
to R406). -/

namespace Sys2Proof.Machine

/-! ### Matrices -/

/-- A cell (ch, sb) of a matrix. -/
abbrev Cell := Fin 2 × Fin 8

/-- The matrix with the given cells. -/
def Mat.ofFn {α : Type} (f : Fin 2 → Fin 8 → α) : Mat α :=
  Vector.ofFn fun ch => Vector.ofFn fun sb => f ch sb

/-- M[ch][sb]. -/
def Mat.get {α : Type} (m : Mat α) (ch : Fin 2) (sb : Fin 8) : α := m[ch][sb]

/-- M[ch][sb] <- a. -/
def Mat.set {α : Type} (m : Mat α) (ch : Fin 2) (sb : Fin 8) (a : α) : Mat α :=
  Vector.set m ch (Vector.set m[ch] sb a)

/-- Writes a list of values to a list of cells, in order. -/
def writeCells {α : Type} : List Cell → List α → Mat α → Mat α
  | c :: cs, a :: as, m => writeCells cs as (m.set c.1 c.2 a)
  | _, _, m => m

/-! ### The configuration's cells -/

/-- The channels 0..n-1. -/
def Channels.list : Channels → List (Fin 2)
  | .one => [0]
  | .two => [0, 1]

/-- The sub-bands 0..M-1. -/
def Subbands.list : Subbands → List (Fin 8)
  | .four => [0, 1, 2, 3]
  | .eight => [0, 1, 2, 3, 4, 5, 6, 7]

/-- The cells of a matrix of that shape, channel outer, sub-band inner (R205 elements 6 and 7). -/
def cellsOf (ch : Channels) (sb : Subbands) : List Cell :=
  (Channels.list ch).flatMap fun c => (Subbands.list sb).map fun b => (c, b)

/-- The cells of the instance, channel outer, sub-band inner. -/
def cells (p : Params) : List Cell := cellsOf p.ch p.sb

/-- ch < CFG_CH and sb < CFG_SB: the instance has the cell (R70). -/
def hasCell (p : Params) (ch : Fin 2) (sb : Fin 8) : Bool :=
  decide (ch.val < p.ch.toNat) && decide (sb.val < p.sb.toNat)

/-! ### The parameter tables -/

/-- OFFSET_NSUB[freq][sb] for a sub-band sb < NSUB (R453). -/
def offset (p : Params) (nsub : Subbands) (freq : Fin 4) (sb : Fin 8) : Int :=
  match nsub with
  | .four => p.offset4[freq][Fin.ofNat 4 sb]
  | .eight => p.offset8[freq][sb]

/-- COS_M[k][i] for k, i < M (R550). -/
def cosCoeff (p : Params) (k i : Fin 8) : Int :=
  match p.sb with
  | .four => p.cos4[Fin.ofNat 4 k][Fin.ofNat 4 i]
  | .eight => p.cos8[k][i]

/-- WIN_M[t][j] for j < M (R550). -/
def winCoeff (p : Params) (t : Fin 10) (j : Fin 8) : Int :=
  match p.sb with
  | .four => p.win4[t][Fin.ofNat 4 j]
  | .eight => p.win8[t][j]

/-- SEL_M[t mod 2][j] for j < M (R550). -/
def selIndex (p : Params) (t : Fin 10) (j : Fin 8) : Fin 8 :=
  match p.sb with
  | .four => (p.sel4[Fin.ofNat 2 t][Fin.ofNat 4 j]).castLE (by decide)
  | .eight => p.sel8[Fin.ofNat 2 t][j]

/-! ### The header -/

/-- The channel modes of R402. -/
inductive ChannelMode where
  | mono
  | dual
  | stereo
  | joint
  deriving DecidableEq, Repr

/-- The allocation methods of R402. -/
inductive AllocMethod where
  | loudness
  | snr
  deriving DecidableEq, Repr

/-- The effective header that HDR_INFO reports when HDR.V = 1 (R58, R405). -/
structure HdrInfo where
  /-- The frequency code. -/
  freq : Fin 4
  /-- The block count; none where it is absent, in the fixed mode. -/
  blocks : Option Nat
  /-- The channel mode. -/
  chm : ChannelMode
  /-- The allocation method. -/
  alm : AllocMethod
  /-- The sub-band count. -/
  nsub : Subbands
  /-- The bitpool. -/
  bitpool : Byte
  deriving DecidableEq, Repr

/-- HDR.V (R56). -/
def hdrV (hdr : Word) : Bool := hdr.getLsbD 31

/-- HDR.MODE: true is the fixed-parameter mode (R56). -/
def hdrMode (hdr : Word) : Bool := hdr.getLsbD 16

/-- HDR[15:8]: the second header byte in the parameterized mode (R401). -/
def hdrByte1 (hdr : Word) : Byte := hdr.extractLsb' 8 8

/-- HDR[7:0] = HDR.BITPOOL: the third header byte in the parameterized mode (R401). -/
def hdrByte2 (hdr : Word) : Byte := hdr.extractLsb' 0 8

/-- HDR.FREQ, bits [15:14]. -/
def hdrFreq (hdr : Word) : Fin 4 := (hdr.extractLsb' 14 2).toFin

/-- HDR.BLK, bits [13:12]. -/
def hdrBlk (hdr : Word) : BitVec 2 := hdr.extractLsb' 12 2

/-- HDR.CHM, bits [11:10], as the channel mode it stands for (R402). -/
def hdrChm (hdr : Word) : ChannelMode :=
  match (hdr.extractLsb' 10 2).toNat with
  | 0 => .mono
  | 1 => .dual
  | 2 => .stereo
  | _ => .joint

/-- HDR.ALM, bit [9], as the method it stands for (R402). -/
def hdrAlm (hdr : Word) : AllocMethod := if hdr.getLsbD 9 then .snr else .loudness

/-- HDR.SBS, bit [8], as the sub-band count it stands for (R402). -/
def hdrSbs (hdr : Word) : Subbands := if hdr.getLsbD 8 then .eight else .four

/-- The effective header (R405); none when no header is held. -/
def hdrInfo (hdr : Word) : Option HdrInfo :=
  if hdrV hdr = false then none
  else if hdrMode hdr = false then
    some { freq := hdrFreq hdr, blocks := some (4 * ((hdrBlk hdr).toNat + 1)), chm := hdrChm hdr,
           alm := hdrAlm hdr, nsub := hdrSbs hdr, bitpool := hdrByte2 hdr }
  else
    some { freq := 0, blocks := none, chm := .mono, alm := .loudness, nsub := .eight,
           bitpool := Config.msbcBitpool }

/-- FrameBlocks (R405): MSBC_BLOCKS where the header carries no block count. -/
def frameBlockCount (info : HdrInfo) : Nat := info.blocks.getD Config.msbcBlocks

/-- The channel count a channel mode implies (R406). -/
def impliedChannels : ChannelMode → Channels
  | .mono => .one
  | .dual | .stereo | .joint => .two

/-- The header is compatible with the instance: NCH = CFG_CH and NSUB = CFG_SB (R406). -/
def fits (p : Params) (info : HdrInfo) : Bool :=
  decide (impliedChannels info.chm = p.ch) && decide (info.nsub = p.sb)

/-- The code of a channel mode (R402). -/
def chmCode : ChannelMode → Nat
  | .mono => 0
  | .dual => 1
  | .stereo => 2
  | .joint => 3

/-- The code of an allocation method (R402). -/
def almCode : AllocMethod → Nat
  | .loudness => 0
  | .snr => 1

end Sys2Proof.Machine
end

