-- ==== Sys2Proof/Machine/Flags.lean ====
section
/-! DEFINITION. The status a command leaves: STATUS.CODE, STATUS.LASTOP and STATUS.HUNG are the core's only
flags (R54, R75, R700, R701). -/

namespace Sys2Proof.Machine

/-- The number of a status code (R700). -/
def codeNumber : StatusCode → Nat
  | .ok => 0
  | .underflow => 1
  | .configMismatch => 2
  | .checksumMismatch => 3
  | .noMoreBlocks => 4
  | .unrecognizedSync => 5
  | .badCommand => 6
  | .hung => 7

/-- The number of a frame state (R62). -/
def frameStateNumber : FrameState → Nat
  | .idle => 0
  | .active => 1
  | .exhausted => 2

/-- STATUS.CODE <- c (R701). -/
def State.withCode (s : State) (c : StatusCode) : State :=
  { s with status := { s.status with code := c } }

/-- STATUS.LASTOP <- op (R701). -/
def State.withLastop (s : State) (op : Byte) : State :=
  { s with status := { s.status with lastop := op } }

/-- The entry into the hung state: STATUS.CODE <- HUNG, STATUS.HUNG <- 1 (R704). -/
def State.enterHung (s : State) : State :=
  { s with status := { s.status with code := .hung, hung := true } }

end Sys2Proof.Machine
end

