-- ==== Sys2Proof/Machine/Ops.lean ====
section
/-! DEFINITION. The operations the commands share: the single-register writes, the byte source
(`SrcRead1`, R154), the bit reader (`BitRead`, R301), the end of a command with a status (`finish`,
R701), and the register space as the host sees it (`regRead`, `regWrite`, R52, R151, R152). -/

namespace Sys2Proof.Machine

/-! ### Register writes -/

/-- HDR <- v. -/
def State.withHdr (s : State) (v : Word) : State := { s with hdr := v }

/-- RESULT <- v. -/
def State.withResult (s : State) (v : Word) : State := { s with result := v }

/-- CRC.ACC <- acc. -/
def State.withCrcAcc (s : State) (acc : Byte) : State := { s with crc := { s.crc with acc := acc } }

/-- CRC <- (acc, rx). -/
def State.withCrc (s : State) (c : CrcReg) : State := { s with crc := c }

/-- BR and SRC as a read leaves them. -/
def State.withStream (s : State) (st : Stream) : State := { s with stream := st }

/-- FRAME <- f. -/
def State.withFrame (s : State) (f : Frame) : State := { s with frame := f }

/-- JOIN <- j. -/
def State.withJoin (s : State) (j : BitVec 8) : State := { s with join := j }

/-- SF <- m. -/
def State.withSf (s : State) (m : Mat (BitVec 4)) : State := { s with sf := m }

/-- BITS <- m. -/
def State.withBits (s : State) (m : Mat (BitVec 5)) : State := { s with bits := m }

/-- SB <- m. -/
def State.withSb (s : State) (m : Mat Word) : State := { s with sb := m }

/-- PCM <- m. -/
def State.withPcm (s : State) (m : Mat (BitVec 16)) : State := { s with pcm := m }

/-- HIST <- m. -/
def State.withHist (s : State) (m : Mat (Vector Word 10)) : State := { s with hist := m }

/-- The host's accesses still to come. -/
def State.withPending (s : State) (acts : List HostAction) : State := { s with pending := acts }

/-- The value a register read returns to the host. -/
def State.withReadData (s : State) (v : Word) : State := { s with readData := v }

/-! ### The end of a command -/

/-- A command ends with a status code (R701). `raise E` is this with E's code: no trap is entered, no
state is saved and there is nothing to return from (R707). -/
def finish (c : StatusCode) (s : State) : Host.Outcome State Fault Refusal := .next (s.withCode c)

/-- A command ends in the hung state (R457, R704). -/
def finishHung (s : State) : Host.Outcome State Fault Refusal := .next s.enterHung

/-! ### The byte source and the bit reader -/

/-- `SrcRead1()` (R154): the byte at the head of the queue, or none for Underflow, and the queue left. -/
def srcRead1 : List Byte → Option Byte × List Byte
  | [] => (none, [])
  | b :: q => (some b, q)

/-- The first lines of the loop of R301: a byte is fetched when no unread bit is left. None is Underflow. -/
def Stream.fill (st : Stream) : Option Stream :=
  if st.rem = 0 then
    match srcRead1 st.src with
    | (none, _) => none
    | (some b, q) => some { buf := b, rem := 8, src := q }
  else some st

/-- BR.BUF[REM-1 : REM-take] as a number (R301). -/
def Stream.top (st : Stream) (take : Nat) : Nat := st.buf.toNat / 2 ^ (st.rem - take) % 2 ^ take

/-- The loop of R301 with `need` bits to go and the value `v` so far; none is Underflow. Every turn
takes at least one bit, so `fuel = need` turns suffice and the second case is never reached. -/
def bitReadLoop : Nat → Nat → Nat → Stream → Option Nat × Stream
  | _, 0, v, st => (some v, st)
  | 0, _ + 1, _, st => (none, st)
  | fuel + 1, need + 1, v, st =>
    match st.fill with
    | none => (none, st)
    | some st' =>
      bitReadLoop fuel (need + 1 - min (need + 1) st'.rem)
        (v * 2 ^ min (need + 1) st'.rem + st'.top (min (need + 1) st'.rem))
        { st' with rem := st'.rem - min (need + 1) st'.rem }

/-- `BitRead(n)` (R301): the n-bit value read, or none for Underflow, and the stream position left. -/
def bitRead (n : Nat) (st : Stream) : Option Nat × Stream := bitReadLoop n n 0 st

/-- Reads fields of the given widths one after another; ends at the first Underflow. -/
def readFields : List Nat → Stream → Option (List Nat) × Stream
  | [], st => (some [], st)
  | n :: ns, st =>
    match bitRead n st with
    | (none, st1) => (none, st1)
    | (some v, st1) =>
      match readFields ns st1 with
      | (none, st2) => (none, st2)
      | (some vs, st2) => (some (v :: vs), st2)

/-- BR.BUF <- 0, BR.REM <- 0: a newly constructed bit reader (R302, R601). -/
def Stream.emptied (st : Stream) : Stream := { buf := 0, rem := 0, src := st.src }

/-! ### The register space -/

/-- The cell at offset o of a block of 16 registers, address base + 8·ch + sb, where the instance has it. -/
def cellAt (p : Params) (o : Nat) (r : Fin 2 → Fin 8 → Reg) : Option Reg :=
  if hasCell p (Fin.ofNat 2 (o / 8)) (Fin.ofNat 8 o) then some (r (Fin.ofNat 2 (o / 8)) (Fin.ofNat 8 o))
  else none

/-- The register at a word address (R52); none where the address is unmapped (R69) or names a cell
outside the configuration (R70). -/
def regAt (p : Params) (a : Addr) : Option Reg :=
  match a.toNat with
  | 0x000 => some .cmd
  | 0x001 => some .status
  | 0x002 => some .config
  | 0x003 => some .hdr
  | 0x004 => some .hdrInfo
  | 0x005 => some .result
  | 0x006 => some .crc
  | 0x007 => some .br
  | 0x008 => some .frame
  | 0x009 => some .join
  | n =>
    if 0x010 ≤ n ∧ n ≤ 0x01F then cellAt p (n - 0x010) .sf
    else if 0x020 ≤ n ∧ n ≤ 0x02F then cellAt p (n - 0x020) .bits
    else if 0x030 ≤ n ∧ n ≤ 0x03F then cellAt p (n - 0x030) .sb
    else if 0x040 ≤ n ∧ n ≤ 0x04F then cellAt p (n - 0x040) .pcm
    else if 0x100 ≤ n ∧ n ≤ 0x19F then
      if hasCell p (Fin.ofNat 2 ((n - 0x100) / 80)) (Fin.ofNat 8 ((n - 0x100) % 80 / 10)) then
        some (.hist (Fin.ofNat 2 ((n - 0x100) / 80)) (Fin.ofNat 8 ((n - 0x100) % 80 / 10))
          (Fin.ofNat 10 (n - 0x100)))
      else none
    else none

/-- A field of a register: the value v with its lowest bit at position lo. -/
def field (lo v : Nat) : Word := BitVec.ofNat 32 v <<< lo

/-- The 32-bit value of STATUS (R54). -/
def statusWord (st : Status) : Word :=
  field 0 (codeNumber st.code) ||| field 8 st.lastop.toNat ||| field 16 st.hung.toNat

/-- The 32-bit value of CONFIG (R55). -/
def configWord (p : Params) : Word := field 0 p.ch.toNat ||| field 4 p.sb.toNat

/-- The 32-bit value of HDR_INFO (R58): 0 when no header is held. -/
def hdrInfoWord : Option HdrInfo → Word
  | none => 0
  | some i =>
    field 0 i.freq ||| field 2 (i.blocks.getD 0) ||| field 7 i.blocks.isNone.toNat |||
    field 8 (chmCode i.chm) ||| field 10 (almCode i.alm) ||| field 11 i.nsub.toNat |||
    field 16 i.bitpool.toNat ||| field 24 (impliedChannels i.chm).toNat ||| field 31 1

/-- The 32-bit value of CRC (R60). -/
def crcWord (c : CrcReg) : Word := field 0 c.acc.toNat ||| field 8 c.rx.toNat

/-- The 32-bit value of BR (R61). -/
def brWord (st : Stream) : Word := field 0 st.buf.toNat ||| field 8 st.rem

/-- The 32-bit value of FRAME (R62). -/
def frameWord (f : Frame) : Word :=
  field 0 (frameStateNumber f.fstate) ||| field 8 f.blocksLeft ||| field 16 f.cursor |||
  field 24 f.frameBlocks

/-- The 32-bit value of a register (R53 to R68). -/
def regValue (s : State) : Reg → Word
  | .cmd => 0
  | .status => statusWord s.status
  | .config => configWord s.params
  | .hdr => s.hdr
  | .hdrInfo => hdrInfoWord (hdrInfo s.hdr)
  | .result => s.result
  | .crc => crcWord s.crc
  | .br => brWord s.stream
  | .frame => frameWord s.frame
  | .join => s.join.setWidth 32
  | .sf ch sb => (s.sf.get ch sb).setWidth 32
  | .bits ch sb => (s.bits.get ch sb).setWidth 32
  | .sb ch sb => s.sb.get ch sb
  | .pcm ch j => (s.pcm.get ch j).signExtend 32
  | .hist ch k t => (s.hist.get ch k)[t]

/-- RegRead(a) (R151): 0 at an address that holds no register (R69, R70). -/
def regRead (s : State) (a : Addr) : Word :=
  match regAt s.params a with
  | none => 0
  | some r => regValue s r

/-- The value HDR takes at a host write of v (R57): reserved bits 0, in the fixed mode the field bits 0. -/
def legalHdr (v : Word) : Word :=
  (v.extractLsb' 31 1 ++ 0#14 ++ v.extractLsb' 16 1 ++
    (if v.getLsbD 16 then 0#16 else v.extractLsb' 0 16) : BitVec 32)

/-- v[CFG_SB-1:0] (R63, R152). -/
def legalJoin (p : Params) (v : Word) : BitVec 8 :=
  match p.sb with
  | .four => (v.extractLsb' 0 4).setWidth 8
  | .eight => v.extractLsb' 0 8

/-- RegWrite(a, v) at an address other than CMD (R152): a write of a read-only register and a write of
an unmapped address are ignored (R69). -/
def regWrite (s : State) (a : Addr) (v : Word) : State :=
  match regAt s.params a with
  | some .hdr => s.withHdr (legalHdr v)
  | some .join => s.withJoin (legalJoin s.params v)
  | some (.sf ch sb) => s.withSf (s.sf.set ch sb (v.extractLsb' 0 4))
  | some (.sb ch sb) => s.withSb (s.sb.set ch sb v)
  | some .cmd | some .status | some .config | some .hdrInfo | some .result | some .crc | some .br
  | some .frame | some (.bits _ _) | some (.pcm _ _) | some (.hist _ _ _) | none => s

end Sys2Proof.Machine
end

