-- ==== Sys2Proof/Machine/BitReader.lean ====
section
/-! DEFINITION. The bit reader commands (41_bit_reader.md R300 to R305). -/

namespace Sys2Proof.Machine

/-- `br.reset` (R302). -/
def execBrReset (s : State) : Host.Outcome State Fault Refusal :=
  finish .ok (s.withStream s.stream.emptied)

/-- The body R303 and R304 share: n bits into RESULT, BAD_COMMAND when n exceeds the entry point's
width. On Underflow RESULT is unchanged and BR and SRC are as R301 leaves them. -/
def readToResult (max : Nat) (n : Byte) (s : State) : Host.Outcome State Fault Refusal :=
  if max < n.toNat then finish .badCommand s
  else
    match bitRead n.toNat s.stream with
    | (none, st) => finish .underflow (s.withStream st)
    | (some v, st) => finish .ok ((s.withStream st).withResult (BitVec.ofNat 32 v))

/-- `br.read8 n` (R303). -/
def execBrRead8 (n : Byte) (s : State) : Host.Outcome State Fault Refusal := readToResult 8 n s

/-- `br.read16 n` (R304). -/
def execBrRead16 (n : Byte) (s : State) : Host.Outcome State Fault Refusal := readToResult 16 n s

end Sys2Proof.Machine
end

