-- ==== Sys2Proof/Machine/Allocation.lean ====
section
/-! DEFINITION. The bit allocation engine (44_bit_allocation.md R450 to R463). -/

namespace Sys2Proof.Machine

/-- The bitneed of a cell (R451, R452). -/
def bitneed (p : Params) (info : HdrInfo) (sf : BitVec 4) (sb : Fin 8) : Int :=
  match info.alm with
  | .snr => sf.toNat
  | .loudness =>
    if p.loudnessSf0Minus5 = true ∧ sf = 0 then -5
    else if 0 < (sf.toNat : Int) - offset p info.nsub info.freq sb then
      ((sf.toNat : Int) - offset p info.nsub info.freq sb).tdiv 2
    else (sf.toNat : Int) - offset p info.nsub info.freq sb

/-- The allocation scopes in order, each the list of its cells in walk order (R454). -/
def scopes (info : HdrInfo) : List (List Cell) :=
  match info.chm with
  | .mono | .dual =>
    (Channels.list (impliedChannels info.chm)).map fun c =>
      (Subbands.list info.nsub).map fun b => (c, b)
  | .stereo | .joint =>
    [(Subbands.list info.nsub).flatMap fun b =>
      (Channels.list (impliedChannels info.chm)).map fun c => (c, b)]

/-- What one cell adds to `SliceCount(L, s)` (R455). -/
def sliceTerm (s b : Int) : Nat :=
  if b = s + 1 then 2 else if s + 1 < b ∧ b < s + 16 then 1 else 0

/-- `SliceCount(L, s)` over the bitneeds of a scope (R455). -/
def sliceCount (bns : List Int) (s : Int) : Nat := (bns.map (sliceTerm s)).sum

/-- The largest element of a list, 0 of the empty list. -/
def maxOf : List Int → Int
  | [] => 0
  | [b] => b
  | b :: bs => max b (maxOf bs)

/-- The smallest element of a list, 0 of the empty list. -/
def minOf : List Int → Int
  | [] => 0
  | [b] => b
  | b :: bs => min b (minOf bs)

/-- The loop of R456 from its state (bitslice, bitcount, slicecount); the result is the final bitslice
and bitcount. `fuel` bounds the number of turns. -/
def searchLoop (budget : Nat) (bns : List Int) : Nat → Int → Nat → Nat → Int × Nat
  | 0, bitslice, bitcount, _ => (bitslice, bitcount)
  | fuel + 1, bitslice, bitcount, slicecount =>
    if budget ≤ bitcount + slicecount + sliceCount bns (bitslice - 1) then
      (bitslice - 1, bitcount + slicecount)
    else
      searchLoop budget bns fuel (bitslice - 1) (bitcount + slicecount)
        (sliceCount bns (bitslice - 1))

/-- The bitslice search (R456). Where the budget is at most 16 for each cell the loop stops after at
most max - min + 17 turns (R457). -/
def search (budget : Nat) (bns : List Int) : Int × Nat :=
  searchLoop budget bns (maxOf bns - minOf bns + 17).toNat (maxOf bns + 1) 0 0

/-- The initial width of a cell (R459). -/
def initialWidth (bitslice b : Int) : Nat :=
  if b < bitslice + 2 then 0 else (min (b - bitslice) 16).toNat

/-- The first top-up pass over (bitneed, width) pairs in walk order (R460), from the running total; the
result is the widths and the running total after it. -/
def topUp1 (budget : Nat) (bitslice : Int) : Nat → List (Int × Nat) → List Nat × Nat
  | bitcount, [] => ([], bitcount)
  | bitcount, (b, w) :: rest =>
    if budget ≤ bitcount then (w :: rest.map Prod.snd, bitcount)
    else if 2 ≤ w ∧ w < 16 then
      match topUp1 budget bitslice (bitcount + 1) rest with
      | (ws, bc) => ((w + 1) :: ws, bc)
    else if b = bitslice + 1 ∧ bitcount + 1 < budget then
      match topUp1 budget bitslice (bitcount + 2) rest with
      | (ws, bc) => (2 :: ws, bc)
    else
      match topUp1 budget bitslice bitcount rest with
      | (ws, bc) => (w :: ws, bc)

/-- The second top-up pass over widths in walk order (R461), from the running total. -/
def topUp2 (budget : Nat) : Nat → List Nat → List Nat
  | _, [] => []
  | bitcount, w :: rest =>
    if budget ≤ bitcount then w :: rest
    else if w < 16 then (w + 1) :: topUp2 budget (bitcount + 1) rest
    else w :: topUp2 budget bitcount rest

/-- The two passes after a search that ended at (bitslice, bitcount) (R459 to R461). -/
def topUps (budget : Nat) (bns : List Int) (bitslice : Int) (bitcount : Nat) : List Nat :=
  match topUp1 budget bitslice bitcount (bns.map fun b => (b, initialWidth bitslice b)) with
  | (ws, bc) => topUp2 budget bc ws

/-- The widths of a scope in walk order (R456 to R461); none where the search would not end, the budget
being more than 16 for each cell (R457). -/
def allocScope (budget : Nat) (bns : List Int) : Option (List Nat) :=
  if 16 * bns.length < budget then none
  else some (topUps budget bns (search budget bns).1 (search budget bns).2)

/-- Allocates scope after scope into W (R450); none is the hung state. -/
def allocScopes (p : Params) (info : HdrInfo) (sf : Mat (BitVec 4)) :
    List (List Cell) → Mat (BitVec 5) → Option (Mat (BitVec 5))
  | [], w => some w
  | l :: ls, w =>
    match allocScope info.bitpool.toNat (l.map fun c => bitneed p info (sf.get c.1 c.2) c.2) with
    | none => none
    | some ws => allocScopes p info sf ls (writeCells l (ws.map (BitVec.ofNat 5)) w)

/-- `Alloc(info, SF)` (R450), over the widths W held before; none is the hung state. -/
def allocate (p : Params) (info : HdrInfo) (sf : Mat (BitVec 4)) (w : Mat (BitVec 5)) :
    Option (Mat (BitVec 5)) :=
  allocScopes p info sf (scopes info) w

/-- `alloc` (R450). -/
def execAlloc (s : State) : Host.Outcome State Fault Refusal :=
  match hdrInfo s.hdr with
  | none => finish .badCommand s
  | some info =>
    if fits s.params info = false then finish .configMismatch s
    else
      match allocate s.params info s.sf s.bits with
      | none => finishHung s
      | some w => finish .ok (s.withBits w)

end Sys2Proof.Machine
end

