-- ==== Sys2Proof/Machine/Crc.lean ====
section
/-! DEFINITION. CRC-8 (42_crc8.md R350 to R357). -/

namespace Sys2Proof.Machine

/-- `CrcBit(c, b)` (R350). -/
def crcBit (c : Byte) (b : Bool) : Byte :=
  if c.getLsbD 7 ^^ b then (c <<< 1) ^^^ Config.crcPoly else c <<< 1

/-- `CrcSeq(c, bits)` (R354): the first bit is folded first. -/
def crcSeq (c : Byte) (bits : List Bool) : Byte := bits.foldl crcBit c

/-- `CrcTable[i]` (R351): eight one-bit folds of data bit 0 from i. -/
def crcTable (i : Byte) : Byte := crcSeq i (List.replicate 8 false)

/-- `CrcByte(c, x)` (R352). -/
def crcByteFold (c x : Byte) : Byte := crcTable (c ^^^ x)

/-- `CrcTail(c, x, k)` for k ≤ 7 (R353): the k high bits of x, x[7] first. -/
def crcTail (c x : Byte) (k : Nat) : Byte :=
  crcSeq c ((List.range k).map fun i => x.getLsbD (7 - i))

/-- The n bits of an n-bit value, most significant first (R17). -/
def bitsMsb : Nat → Nat → List Bool
  | 0, _ => []
  | n + 1, v => v.testBit n :: bitsMsb n v

/-- `crc.init v` (R355). -/
def execCrcInit (v : Byte) (s : State) : Host.Outcome State Fault Refusal :=
  finish .ok (s.withCrcAcc v)

/-- `crc.byte x` (R356). -/
def execCrcByte (x : Byte) (s : State) : Host.Outcome State Fault Refusal :=
  finish .ok (s.withCrcAcc (crcByteFold s.crc.acc x))

/-- `crc.bits x, k` (R357): BAD_COMMAND when k > 7. -/
def execCrcBits (x k : Byte) (s : State) : Host.Outcome State Fault Refusal :=
  if 7 < k.toNat then finish .badCommand s
  else finish .ok (s.withCrcAcc (crcTail s.crc.acc x k.toNat))

end Sys2Proof.Machine
end

