-- ==== Sys2Proof/Machine/Header.lean ====
section
/-! DEFINITION. The header codec (43_header.md R400 to R407). -/

namespace Sys2Proof.Machine

/-- Three bytes directly from the source (R403): none is Underflow, and the queue left. -/
def srcRead3 (q : List Byte) : Option (Byte × Byte × Byte) × List Byte :=
  match srcRead1 q with
  | (none, q0) => (none, q0)
  | (some b0, q0) =>
    match srcRead1 q0 with
    | (none, q1) => (none, q1)
    | (some b1, q1) =>
      match srcRead1 q1 with
      | (none, q2) => (none, q2)
      | (some b2, q2) => (some (b0, b1, b2), q2)

/-- The header three bytes decode to (R403); none when the first is no sync word. -/
def decodeHeader (p : Params) (b0 b1 b2 : Byte) : Option Word :=
  if b0 = Config.syncSbc then some (1#1 ++ 0#15 ++ b1 ++ b2 : BitVec 32)
  else if b0 = p.syncMsbc then some (1#1 ++ 0#14 ++ 1#1 ++ 0#16 : BitVec 32)
  else none

/-- The first, second and third byte a header encodes to (R404). -/
def encodeHeader (p : Params) (hdr : Word) : Byte × Byte × Byte :=
  if hdrMode hdr then (p.syncMsbc, 0, 0) else (Config.syncSbc, hdrByte1 hdr, hdrByte2 hdr)

/-- `hdr.decode` (R403). BR is not touched; on an error HDR is unchanged and the bytes stay taken. -/
def execHdrDecode (s : State) : Host.Outcome State Fault Refusal :=
  match srcRead3 s.stream.src with
  | (none, q) => finish .underflow (s.withStream { s.stream with src := q })
  | (some (b0, b1, b2), q) =>
    match decodeHeader s.params b0 b1 b2 with
    | none => finish .unrecognizedSync (s.withStream { s.stream with src := q })
    | some h => finish .ok ((s.withStream { s.stream with src := q }).withHdr h)

/-- `hdr.encode` (R404): the first byte in RESULT[23:16], the third in RESULT[7:0]. -/
def execHdrEncode (s : State) : Host.Outcome State Fault Refusal :=
  if hdrV s.hdr = false then finish .badCommand s
  else
    finish .ok (s.withResult
      (0#8 ++ (encodeHeader s.params s.hdr).1 ++ (encodeHeader s.params s.hdr).2.1 ++
        (encodeHeader s.params s.hdr).2.2 : BitVec 32))

end Sys2Proof.Machine
end

