-- ==== Sys2Proof/Machine/Reconstruction.lean ====
section
/-! DEFINITION. Sample reconstruction (45_reconstruction.md R500 to R506). -/

namespace Sys2Proof.Machine

/-- `Dequant(sf, w, c)` (R500): on integers; the dividend is positive, so `/` is `div` (R501). -/
def dequant (sf w c : Nat) : Int :=
  if w = 0 then 0
  else ((2 * (c : Int) + 1) * 2 ^ (sf + 3)) / (2 ^ w - 1) - 2 ^ (sf + 3)

/-- The widths of the codewords of one block in wire order (R502). -/
def codewordWidths (s : State) : List Nat := (cells s.params).map fun c => (s.bits.get c.1 c.2).toNat

/-- The dequantized value of every cell, from the block's codewords in wire order (R502). -/
def dequantBlock (s : State) (cs : List Nat) : Mat Int :=
  writeCells (cells s.params)
    (List.zipWith (fun c x => dequant (s.sf.get c.1 c.2).toNat (s.bits.get c.1 c.2).toNat x)
      (cells s.params) cs)
    (Mat.ofFn fun _ _ => 0)

/-- The mid/side undo (R503): with two channels configured and JOIN[sb] = 1, (a, b) becomes (a+b, a-b). -/
def demux (p : Params) (join : BitVec 8) (m : Mat Int) (ch : Fin 2) (sb : Fin 8) : Int :=
  if p.ch = .two ∧ join.getLsbD sb = true then
    if ch = 0 then m.get 0 sb + m.get 1 sb else m.get 0 sb - m.get 1 sb
  else m.get ch sb

/-- SB after a block with codewords cs (R502, R66). A cell outside the configuration keeps its value (R70). -/
def reconMat (s : State) (cs : List Nat) : Mat Word :=
  Mat.ofFn fun ch sb =>
    if hasCell s.params ch sb then BitVec.ofInt 32 (demux s.params s.join (dequantBlock s cs) ch sb)
    else s.sb.get ch sb

/-- `Recon()` (R502): true and SB written when every codeword was read; false is Underflow, with SB
unchanged. -/
def recon (s : State) : Bool × State :=
  match readFields (codewordWidths s) s.stream with
  | (none, st) => (false, s.withStream st)
  | (some cs, st) => (true, (s.withStream st).withSb (reconMat s cs))

/-- `recon` (R502). -/
def execRecon (s : State) : Host.Outcome State Fault Refusal :=
  match recon s with
  | (false, t) => finish .underflow t
  | (true, t) => finish .ok t

end Sys2Proof.Machine
end

