-- ==== Sys2Proof/Machine/Synthesis.lean ====
section
/-! DEFINITION. The polyphase synthesis filter bank (46_synthesis.md R550 to R557). -/

namespace Sys2Proof.Machine

/-- `a >> 15` on a signed value: floor(a / 2^15) (R14). -/
def asr15 (a : Int) : Int := a / 2 ^ 15

/-- `sat16(x)` (R14). -/
def sat16 (x : Int) : Int := max (-32768) (min 32767 x)

/-- The taps 0..9 (R552). -/
def taps : List (Fin 10) := [0, 1, 2, 3, 4, 5, 6, 7, 8, 9]

/-- The exact sum of R551: over i in 0..M-1, COS_M[k][i] · SB[ch][i]. -/
def combine (p : Params) (sb : Mat Word) (ch : Fin 2) (k : Fin 8) : Int :=
  ((Subbands.list p.sb).map fun i => cosCoeff p k i * (sb.get ch i).toInt).sum

/-- HIST after the store of R551 into slot c, for every channel of the instance. -/
def storeHist (p : Params) (sb : Mat Word) (c : Fin 10) (h : Mat (Vector Word 10)) :
    Mat (Vector Word 10) :=
  Mat.ofFn fun ch k =>
    if hasCell p ch k then Vector.set (h.get ch k) c (BitVec.ofInt 32 (asr15 (combine p sb ch k)))
    else h.get ch k

/-- The exact sum of R552: tap t of output j reads the slot written t blocks earlier. -/
def convolve (p : Params) (c : Fin 10) (h : Mat (Vector Word 10)) (ch : Fin 2) (j : Fin 8) : Int :=
  (taps.map fun t => winCoeff p t j * ((h.get ch (selIndex p t j))[c - t]).toInt).sum

/-- PCM after the convolution of R552, for every channel of the instance. -/
def pcmMat (p : Params) (c : Fin 10) (h : Mat (Vector Word 10)) (pcm : Mat (BitVec 16)) :
    Mat (BitVec 16) :=
  Mat.ofFn fun ch j =>
    if hasCell p ch j then BitVec.ofInt 16 (sat16 (asr15 (convolve p c h ch j))) else pcm.get ch j

/-- `Synth()` (R554): both channels store into and read at the same cursor, which advances once (R553). -/
def synth (s : State) : State :=
  ((s.withHist (storeHist s.params s.sb s.frame.cursor s.hist)).withPcm
    (pcmMat s.params s.frame.cursor (storeHist s.params s.sb s.frame.cursor s.hist) s.pcm)).withFrame
    { s.frame with cursor := s.frame.cursor + 1 }

/-- `synth` (R554). -/
def execSynth (s : State) : Host.Outcome State Fault Refusal := finish .ok (synth s)

/-- HIST all 0 for every cell of the instance (R555). -/
def clearHist (p : Params) (h : Mat (Vector Word 10)) : Mat (Vector Word 10) :=
  Mat.ofFn fun ch k => if hasCell p ch k then Vector.replicate 10 0 else h.get ch k

/-- `filter.reset` (R555). -/
def execFilterReset (s : State) : Host.Outcome State Fault Refusal :=
  finish .ok ((s.withHist (clearHist s.params s.hist)).withFrame { s.frame with cursor := 0 })

end Sys2Proof.Machine
end

