-- ==== Sys2Proof/Machine/FrameDecoder.lean ====
section
/-! DEFINITION. The frame decoder (47_frame_decoder.md R600 to R606). -/

namespace Sys2Proof.Machine

/-- FSTATE <- IDLE, BLOCKS_LEFT <- 0 (R600, R601). -/
def State.idleFrame (s : State) : State :=
  s.withFrame { s.frame with fstate := .idle, blocksLeft := 0 }

/-- What a frame start reads from the stream (R601). -/
structure FrameFields where
  /-- The CRC byte, where one is read. -/
  rx : Option Nat
  /-- The joint bitmap, sub-band 0 first; empty where none is read. -/
  joint : List Nat
  /-- The scale factors, channel outer, sub-band inner. -/
  sf : List Nat
  deriving DecidableEq, Repr

/-- The widths of the joint bitmap's fields: NSUB fields of one bit in joint-stereo mode (R601). -/
def jointWidths (info : HdrInfo) : List Nat :=
  match info.chm with
  | .joint => (Subbands.list info.nsub).map fun _ => 1
  | .mono | .dual | .stereo => []

/-- The widths of the scale factors: NCH·NSUB fields of four bits (R601). -/
def sfWidths (info : HdrInfo) : List Nat :=
  (cellsOf (impliedChannels info.chm) info.nsub).map fun _ => 4

/-- The CRC byte of R601, read where there is one: the outer none is Underflow. -/
def readRx (withCrc : Bool) (st : Stream) : Option (Option Nat) × Stream :=
  if withCrc then
    match bitRead 8 st with
    | (none, st1) => (none, st1)
    | (some v, st1) => (some (some v), st1)
  else (some none, st)

/-- The reads of R601 in order: the CRC byte, the joint bitmap, the scale factors; none is Underflow. -/
def readFrameFields (withCrc : Bool) (info : HdrInfo) (st : Stream) : Option FrameFields × Stream :=
  match readRx withCrc st with
  | (none, st1) => (none, st1)
  | (some rx, st1) =>
    match readFields (jointWidths info) st1 with
    | (none, st2) => (none, st2)
    | (some j, st2) =>
      match readFields (sfWidths info) st2 with
      | (none, st3) => (none, st3)
      | (some sf, st3) => (some { rx := rx, joint := j, sf := sf }, st3)

/-- The bits of `FrameCrcBits(j, sf)` (R603): the encoded header bytes 1 and 2, the joint bitmap in wire
order, the scale factors in wire order. -/
def frameCrcBits (p : Params) (hdr : Word) (f : FrameFields) : List Bool :=
  bitsMsb 8 (encodeHeader p hdr).2.1.toNat ++ bitsMsb 8 (encodeHeader p hdr).2.2.toNat ++
    f.joint.flatMap (bitsMsb 1) ++ f.sf.flatMap (bitsMsb 4)

/-- The joint bitmap as JOIN holds it: bit sb for sub-band sb (R63, R601). -/
def joinOf : List Nat → Nat
  | [] => 0
  | b :: bs => b + 2 * joinOf bs

/-- SF with the scale factors of the frame in the cells of the header's shape (R601). -/
def sfMat (info : HdrInfo) (f : FrameFields) (old : Mat (BitVec 4)) : Mat (BitVec 4) :=
  writeCells (cellsOf (impliedChannels info.chm) info.nsub) (f.sf.map (BitVec.ofNat 4)) old

/-- The last lines of R601, after the CRC: the allocation and, where it ends, the frame's registers. -/
def startFrame (info : HdrInfo) (f : FrameFields) (s : State) : Host.Outcome State Fault Refusal :=
  match allocate s.params info (sfMat info f s.sf) s.bits with
  | none => finishHung s
  | some w =>
    finish .ok ((((s.withJoin (BitVec.ofNat 8 (joinOf f.joint))).withSf (sfMat info f s.sf)).withBits
      w).withFrame { s.frame with fstate := .active, blocksLeft := frameBlockCount info,
                                  frameBlocks := frameBlockCount info })

/-- The CRC comparison of R601, where a CRC byte was read, and what follows it. -/
def checkFrame (info : HdrInfo) (f : FrameFields) (s : State) : Host.Outcome State Fault Refusal :=
  match f.rx with
  | none => startFrame info f s
  | some rx =>
    if crcSeq s.params.crcInit (frameCrcBits s.params s.hdr f) ≠ BitVec.ofNat 8 rx then
      finish .checksumMismatch (s.withCrc
        { acc := crcSeq s.params.crcInit (frameCrcBits s.params s.hdr f), rx := BitVec.ofNat 8 rx })
    else
      startFrame info f (s.withCrc
        { acc := crcSeq s.params.crcInit (frameCrcBits s.params s.hdr f), rx := BitVec.ofNat 8 rx })

/-- `FrameStart(withCrc)` (R601). -/
def frameStart (withCrc : Bool) (s : State) : Host.Outcome State Fault Refusal :=
  match hdrInfo s.hdr with
  | none => finish .badCommand s
  | some info =>
    if fits s.params info = false then finish .configMismatch s.idleFrame
    else
      match readFrameFields withCrc info s.stream.emptied with
      | (none, st) => finish .underflow (s.idleFrame.withStream st)
      | (some f, st) => checkFrame info f (s.idleFrame.withStream st)

/-- `frame.start.crc` (R601). -/
def execFrameStartCrc (s : State) : Host.Outcome State Fault Refusal := frameStart true s

/-- `frame.start.nocrc` (R602). -/
def execFrameStartNocrc (s : State) : Host.Outcome State Fault Refusal := frameStart false s

/-- The end of a block (R604): EXHAUSTED when no block is left. -/
def State.endBlock (s : State) : State :=
  if s.frame.blocksLeft = 0 then s.withFrame { s.frame with fstate := .exhausted } else s

/-- `frame.next` (R604). -/
def execFrameNext (s : State) : Host.Outcome State Fault Refusal :=
  match s.frame.fstate with
  | .idle | .exhausted => finish .noMoreBlocks s
  | .active =>
    match recon (s.withFrame { s.frame with blocksLeft := s.frame.blocksLeft - 1 }) with
    | (false, t) => finish .underflow t.idleFrame
    | (true, t) => finish .ok (synth t).endBlock

end Sys2Proof.Machine
end

