-- ==== Sys2Proof/Machine/Dispatch.lean ====
section
/-! DEFINITION. One arm per command of Instr: the meaning of a legal command word (R202). -/

namespace Sys2Proof.Machine

/-- What a command does from the state in which it starts. -/
def exec (i : Instr) (s : State) : Host.Outcome State Fault Refusal :=
  match i with
  | .brReset => Sys2Proof.Machine.execBrReset s
  | .brRead8 n => Sys2Proof.Machine.execBrRead8 n s
  | .brRead16 n => Sys2Proof.Machine.execBrRead16 n s
  | .crcInit v => Sys2Proof.Machine.execCrcInit v s
  | .crcByte x => Sys2Proof.Machine.execCrcByte x s
  | .crcBits x k => Sys2Proof.Machine.execCrcBits x k s
  | .hdrDecode => Sys2Proof.Machine.execHdrDecode s
  | .hdrEncode => Sys2Proof.Machine.execHdrEncode s
  | .alloc => Sys2Proof.Machine.execAlloc s
  | .recon => Sys2Proof.Machine.execRecon s
  | .synth => Sys2Proof.Machine.execSynth s
  | .filterReset => Sys2Proof.Machine.execFilterReset s
  | .frameStartCrc => Sys2Proof.Machine.execFrameStartCrc s
  | .frameStartNocrc => Sys2Proof.Machine.execFrameStartNocrc s
  | .frameNext => Sys2Proof.Machine.execFrameNext s

end Sys2Proof.Machine
end

