-- ==== Sys2Proof/Machine/HostPort.lean ====
section
/-! DEFINITION. What one access of the host does to the instance: a command (R53, R200, R701 to R704), a
register read or write (R151, R152), bytes for the source (R153), the reset (R800). -/

namespace Sys2Proof.Machine

/-- A write of v to CMD. In the hung state nothing changes (R704); else LASTOP is written, and the
command runs, or BAD_COMMAND is reported for an illegal word (R203, R701, R702). -/
def cmdWrite (v : Word) (s : State) : Host.Outcome State Fault Refusal :=
  if s.status.hung then .next s
  else
    match decode v with
    | .ok i => exec i (s.withLastop (opOf v))
    | .error _ => finish .badCommand (s.withLastop (opOf v))

/-- The effect of one access of the host. -/
def hostAct (act : HostAction) (s : State) : Host.Outcome State Fault Refusal :=
  match act with
  | .write a v => if a = 0 then cmdWrite v s else .next (regWrite s a v)
  | .read a => .next (s.withReadData (regRead s a))
  | .push bytes => .next (s.withStream { s.stream with src := s.stream.src ++ bytes })
  | .reset src =>
    .next (((State.resetOf s.params src).withPending s.pending).withReadData s.readData)

end Sys2Proof.Machine
end

