-- ==== Sys2Proof/Machine/Step.lean ====
section
/-! DEFINITION. One step of the machine: the host's next access takes effect (R50, R159, R160). -/

namespace Sys2Proof.Machine

/-- One step: the next access of the host, whole (R159). With none pending the core waits: it acts on
nothing by itself (R50, R800). -/
def step (s : State) : Host.Outcome State Fault Refusal :=
  match s.pending with
  | [] => .next s
  | act :: rest => hostAct act (s.withPending rest)

/-- `s` with a write of the command word w to CMD as the host's next access, so that the next step runs
that command. Every bit at or above `nbits` is 0. -/
def State.withFetchWord (s : State) (nbits w : Nat) : State :=
  s.withPending (.write 0 (BitVec.ofNat 32 (w % 2 ^ nbits)) :: s.pending)

end Sys2Proof.Machine
end

