-- ==== Sys2Proof/Safety.lean ====
section
/-! DEFINITION. The terms the claims use: the bits a stream still holds and the position after some of
them are taken, the legal command words, the size of an allocation scope, and the invariant of the
states that a run reaches. -/

namespace Sys2Proof.Machine

/-! ### The stream as a sequence of bits -/

/-- The bits of a byte in wire order (R155). -/
def byteBits (b : Byte) : List Bool := bitsMsb 8 b.toNat

/-- The bits not yet read, in the order in which they will be (R61, R155). -/
def Stream.pendingBits (st : Stream) : List Bool :=
  bitsMsb st.rem st.buf.toNat ++ st.src.flatMap byteBits

/-- How many bits can still be read. -/
def Stream.avail (st : Stream) : Nat := st.rem + 8 * st.src.length

/-- The number a bit sequence stands for, most significant bit first (R17). -/
def valueOf (bits : List Bool) : Nat := bits.foldl (fun v b => 2 * v + b.toNat) 0

/-- The values of consecutive fields of the given widths, cut off a bit sequence. -/
def fieldsOf : List Nat → List Bool → List Nat
  | [], _ => []
  | w :: ws, bits => valueOf (bits.take w) :: fieldsOf ws (bits.drop w)

/-- How many bytes reading n bits fetches: only those whose first bit is needed (R301). -/
def Stream.fetches (st : Stream) (n : Nat) : Nat := (n - st.rem + 7) / 8

/-- The position after n ≤ avail bits were read (R301). -/
def Stream.advance (st : Stream) (n : Nat) : Stream where
  buf := if st.fetches n = 0 then st.buf else st.src.getD (st.fetches n - 1) 0
  rem := st.rem + 8 * st.fetches n - n
  src := st.src.drop (st.fetches n)

/-- The position after an underflow: every byte taken, REM = 0, BUF the last byte fetched (R154, R301). -/
def Stream.drained (st : Stream) : Stream where
  buf := st.src.getLastD st.buf
  rem := 0
  src := []

/-! ### Command words -/

/-- The map of R202: opcode, largest legal A, largest legal B. -/
def opcodeMap : List (Nat × Nat × Nat) :=
  [(0x10, 0, 0), (0x11, 8, 0), (0x12, 16, 0), (0x20, 255, 0), (0x21, 255, 0), (0x22, 255, 7),
   (0x30, 0, 0), (0x31, 0, 0), (0x40, 0, 0), (0x50, 0, 0), (0x60, 0, 0), (0x61, 0, 0),
   (0x70, 0, 0), (0x71, 0, 0), (0x72, 0, 0)]

/-- A word is legal by R203: its OP is in the map, Z = 0, and A and B are in the row's ranges. -/
def LegalWord (v : Word) : Prop :=
  v.toNat / 2 ^ 24 = 0 ∧
    ∃ r ∈ opcodeMap, v.toNat % 256 = r.1 ∧ v.toNat / 2 ^ 8 % 256 ≤ r.2.1 ∧ v.toNat / 2 ^ 16 % 256 ≤ r.2.2

/-- The host's next access is a write of v to CMD. -/
def State.nextCommand (s : State) (v : Word) (rest : List HostAction) : Prop :=
  s.pending = .write 0 v :: rest

/-! ### Headers, scopes, frames -/

/-- N of R457: the number of cells of an allocation scope. -/
def scopeSize (info : HdrInfo) : Nat :=
  match info.chm with
  | .mono | .dual => info.nsub.toNat
  | .stereo | .joint => 2 * info.nsub.toNat

/-- The initial width of a cell with bitneed b at threshold T (R459). -/
def startWidth (T b : Int) : Nat := if b < T + 2 then 0 else (min (b - T) 16).toNat

/-- What a cell with bitneed b adds to the slice count at threshold T (R455). -/
def sliceBits (T b : Int) : Nat :=
  if b = T + 1 then 2 else if T + 1 < b ∧ b < T + 16 then 1 else 0

/-- Running total plus slice count at threshold T over a scope of N cells with bitneeds bn: what R456
compares with the budget, the running total being the sum of the initial widths (R463). -/
def reached (N : Nat) (bn : Nat → Int) (T : Int) : Nat :=
  ((List.range N).map fun k => startWidth T (bn k) + sliceBits T (bn k)).sum

/-- The widths w of a scope of N cells with bitneeds bn and budget P, position k of the walk order by
position (R454): T is the threshold at which the search ends (R456), a the initial widths (R459), b the
widths after the first pass (R460), c and d the running totals before each position of the first and of
the second pass (R460, R461). -/
def ScopeWidths (P N : Nat) (bn : Nat → Int) (w : Nat → Nat) : Prop :=
  ∃ (T : Int) (a b c d : Nat → Nat),
    ((∃ k < N, T ≤ bn k) ∧ P ≤ reached N bn T ∧
      ∀ T', T < T' → (∃ k < N, T' ≤ bn k) → reached N bn T' < P) ∧
    (∀ k < N, a k = startWidth T (bn k)) ∧
    c 0 = ((List.range N).map a).sum ∧
    (∀ k < N, (b k, c (k + 1)) =
      if P ≤ c k then (a k, c k)
      else if 2 ≤ a k ∧ a k < 16 then (a k + 1, c k + 1)
      else if bn k = T + 1 ∧ c k + 2 ≤ P then (2, c k + 2)
      else (a k, c k)) ∧
    d 0 = c N ∧
    (∀ k < N, (w k, d (k + 1)) =
      if P ≤ d k then (b k, d k)
      else if b k < 16 then (b k + 1, d k + 1)
      else (b k, d k))

/-- The number of codeword bits of one block: S of R207. -/
def blockBits (s : State) : Nat := (codewordWidths s).sum

/-- The number of bits a frame start reads (R601): the CRC byte, the joint bitmap, the scale factors. -/
def frameStartBits (withCrc : Bool) (info : HdrInfo) : Nat :=
  (if withCrc then 8 else 0) + (jointWidths info).sum + (sfWidths info).sum

/-- The bits of the source's bytes, in wire order: what a frame start reads from (R601). -/
def State.wireBits (s : State) : List Bool := s.stream.src.flatMap byteBits

/-- J + 4·NSUB·NCH: the bits of the joint bitmap and the scale factors (R205, R603). -/
def sideBits (info : HdrInfo) : Nat :=
  (if info.chm = .joint then info.nsub.toNat else 0) +
    4 * info.nsub.toNat * (impliedChannels info.chm).toNat

/-- The frame CRC over the wire bits (R603): the two encoded header bytes, then the joint bitmap and the
scale factors as the stream carries them after the CRC byte. -/
def State.wireCrc (s : State) (info : HdrInfo) : Byte :=
  crcSeq s.params.crcInit
    ((if hdrMode s.hdr then List.replicate 16 false
      else byteBits (hdrByte1 s.hdr) ++ byteBits (hdrByte2 s.hdr)) ++
      (s.wireBits.drop 8).take (sideBits info))

/-- What a frame start that ends with OK has done (R601), `k` bits standing before the joint bitmap: SF,
JOIN, BITS and FRAME are the new frame's, BITS the widths ALLOC gives with the new SF (R450), the stream
stands after the scale factors, and every other
register but STATUS.CODE and CRC is as before. -/
structure FrameStarted (k : Nat) (info : HdrInfo) (s t : State) : Prop where
  code : t.status = { s.status with code := .ok }
  stream : t.stream = s.stream.emptied.advance (k + sideBits info)
  join : ∀ sb : Fin 8, t.join.getLsbD sb =
    (decide (info.chm = .joint ∧ sb.val < info.nsub.toNat) && s.wireBits.getD (k + sb.val) false)
  sf : ∀ ch sb, hasCell s.params ch sb = true → (t.sf.get ch sb).toNat =
    valueOf ((s.wireBits.drop (k + (if info.chm = .joint then info.nsub.toNat else 0) +
      4 * (info.nsub.toNat * ch.val + sb.val))).take 4)
  sf_absent : ∀ ch sb, hasCell s.params ch sb = false → t.sf.get ch sb = s.sf.get ch sb
  bits : exec .alloc (s.withSf t.sf) = .next (((s.withSf t.sf).withBits t.bits).withCode .ok)
  frame : t.frame = { s.frame with fstate := .active, blocksLeft := frameBlockCount info,
                                   frameBlocks := frameBlockCount info }
  params : t.params = s.params
  hdr : t.hdr = s.hdr
  result : t.result = s.result
  sb : t.sb = s.sb
  pcm : t.pcm = s.pcm
  hist : t.hist = s.hist
  pending : t.pending = s.pending
  readData : t.readData = s.readData

/-- Crc8(init, x, nbits) of R354. -/
def crc8 (init : Byte) (x : List Byte) (nbits : Nat) : Byte :=
  if nbits % 8 = 0 then (x.take (nbits / 8)).foldl crcByteFold init
  else crcTail ((x.take (nbits / 8)).foldl crcByteFold init) (x.getD (nbits / 8) 0) (nbits % 8)

/-! ### The invariant -/

/-- What holds of every state between two accesses of the host. -/
structure State.Inv (s : State) : Prop where
  /-- REM ≤ 7 between commands (R61). -/
  rem_le : s.stream.rem ≤ 7
  /-- FSTATE = ACTIVE if and only if BLOCKS_LEFT > 0 (R62). -/
  active_iff : s.frame.fstate = .active ↔ 0 < s.frame.blocksLeft
  /-- No more blocks are left than the frame has (R600, R601, R604). -/
  blocksLeft_le : s.frame.blocksLeft ≤ s.frame.frameBlocks
  /-- FRAME_BLOCKS is 0 or 4..16 (R62). -/
  frameBlocks_range : s.frame.frameBlocks = 0 ∨ (4 ≤ s.frame.frameBlocks ∧ s.frame.frameBlocks ≤ 16)
  /-- HDR's reserved bits read 0 (R56). -/
  hdr_reserved : s.hdr.extractLsb' 17 14 = 0
  /-- In the fixed mode HDR's field bits are 0 (R56). -/
  hdr_fixed : hdrMode s.hdr = true → s.hdr.extractLsb' 0 16 = 0
  /-- JOIN's bits CFG_SB.. read 0 (R63). -/
  join_range : ∀ sb : Fin 8, s.params.sb.toNat ≤ sb.val → s.join.getLsbD sb = false
  /-- Allocated widths are 0..16 (R65). -/
  bits_le : ∀ ch sb, (s.bits.get ch sb).toNat ≤ 16
  /-- No cell outside the configuration was ever written (R70). -/
  absent : ∀ ch sb, hasCell s.params ch sb = false →
    s.sf.get ch sb = 0 ∧ s.bits.get ch sb = 0 ∧ s.sb.get ch sb = 0 ∧ s.pcm.get ch sb = 0 ∧
      ∀ t : Fin 10, (s.hist.get ch sb)[t] = 0
  /-- HUNG = 1 exactly when CODE is HUNG (R54, R704). -/
  hung_iff : s.status.hung = true ↔ s.status.code = .hung

end Sys2Proof.Machine
end

