-- ==== Sys2Proof/Certificates/Slice0/Obligations.lean ====
section
/-! DEFINITION. The statements about SBC-CORE that the provers are asked to settle. Each docstring names the
rule of spec/ that the statement formalises. -/

open Sys2Proof Sys2Proof.Machine

/-! ### Command words -/

/-- Words written out from the table of R208 decode to the commands they stand for. -/
def Obligations.SampleWordsDecode : Prop :=
  decode 0x00000010 = .ok .brReset ∧ decode 0x00000311 = .ok (.brRead8 3) ∧
  decode 0x00000D12 = .ok (.brRead16 13) ∧ decode 0x00000F20 = .ok (.crcInit 0x0F) ∧
  decode 0x00001821 = .ok (.crcByte 0x18) ∧ decode 0x0003A022 = .ok (.crcBits 0xA0 3) ∧
  decode 0x00000030 = .ok .hdrDecode ∧ decode 0x00000031 = .ok .hdrEncode ∧
  decode 0x00000040 = .ok .alloc ∧ decode 0x00000050 = .ok .recon ∧ decode 0x00000060 = .ok .synth ∧
  decode 0x00000061 = .ok .filterReset ∧ decode 0x00000070 = .ok .frameStartCrc ∧
  decode 0x00000071 = .ok .frameStartNocrc ∧ decode 0x00000072 = .ok .frameNext

/-- R200, R201, R208: a command with operands decodes from the opcode, its first operand shifted by 8 and
its second by 16, at every value the operands may take. -/
def Obligations.OperandWordsDecode : Prop :=
  (∀ n : Byte, n.toNat ≤ 8 → decode (0x11 ||| n.setWidth 32 <<< 8) = .ok (.brRead8 n)) ∧
  (∀ n : Byte, n.toNat ≤ 16 → decode (0x12 ||| n.setWidth 32 <<< 8) = .ok (.brRead16 n)) ∧
  (∀ v : Byte, decode (0x20 ||| v.setWidth 32 <<< 8) = .ok (.crcInit v)) ∧
  (∀ x : Byte, decode (0x21 ||| x.setWidth 32 <<< 8) = .ok (.crcByte x)) ∧
  (∀ x k : Byte, k.toNat ≤ 7 →
    decode (0x22 ||| x.setWidth 32 <<< 8 ||| k.setWidth 32 <<< 16) = .ok (.crcBits x k))

/-- R202, R203: a word decodes to a command exactly when it is legal. -/
def Obligations.DecodeAcceptsExactlyLegalWords : Prop :=
  ∀ v : Word, (∃ i, decode v = .ok i) ↔ LegalWord v

/-- R200 to R202: decoding the encoding of a well-formed command gives it back, for every command and
every operand. -/
def Obligations.DecodeEncodeRoundTrip : Prop :=
  ∀ i : Instr, i.wf = true → decode (encode i) = .ok i

/-- R200 to R204: what a word decodes to is well-formed and encodes to that word, so no two words stand
for one command. -/
def Obligations.EncodeDecodeRoundTrip : Prop :=
  ∀ (v : Word) (i : Instr), decode v = .ok i → i.wf = true ∧ encode i = v

/-! ### Steps, status, the hung state -/

/-- R53, R200, R701: a write of a legal word to CMD runs the decoded command, on the state with LASTOP
written and the access taken from the host's list. -/
def Obligations.StepRunsDecodedCommand : Prop :=
  ∀ (s : State) (v : Word) (rest : List HostAction) (i : Instr),
    s.nextCommand v rest → s.status.hung = false → decode v = .ok i →
    step s = exec i ((s.withPending rest).withLastop (v.extractLsb' 0 8))

/-- R50, R800: with no access of the host pending the core acts on nothing. -/
def Obligations.IdleCoreWaits : Prop :=
  ∀ s : State, s.pending = [] → step s = .next s

/-- R707, R704, R10: no step and no command stops the machine, and none changes the parameters of the
instance. That a step from the hung state is a next state too is the model's reading (log entry 8,
DEDUCED from R704): R707 excepts the hung state, and 93_implementation_defined.md I2 calls it stuck. -/
def Obligations.CoreNeverStops : Prop :=
  (∀ s : State, ∃ t, step s = .next t ∧ t.params = s.params) ∧
  (∀ (i : Instr) (s : State), ∃ t, exec i s = .next t ∧ t.params = s.params)

/-- R701: a write of v to CMD outside the hung state writes LASTOP, is taken from the host's list, and
leaves the code HUNG only together with the hung state. -/
def Obligations.CommandWritesLastop : Prop :=
  ∀ (s : State) (v : Word) (rest : List HostAction),
    s.nextCommand v rest → s.status.hung = false →
    ∃ t, step s = .next t ∧ t.status.lastop = v.extractLsb' 0 8 ∧ t.pending = rest ∧
      (t.status.hung = true ↔ t.status.code = .hung)

/-- R702: an illegal word ends with BAD_COMMAND and no other change; the four commands that need a header
do so when none is held; and no other legal command reports BAD_COMMAND. -/
def Obligations.BadCommandExactly : Prop :=
  (∀ (s : State) (v : Word) (rest : List HostAction),
    s.nextCommand v rest → s.status.hung = false → ¬LegalWord v →
    step s = .next (((s.withPending rest).withLastop (v.extractLsb' 0 8)).withCode .badCommand)) ∧
  (∀ (i : Instr) (s : State), i = .hdrEncode ∨ i = .alloc ∨ i = .frameStartCrc ∨ i = .frameStartNocrc →
    hdrV s.hdr = false → exec i s = .next (s.withCode .badCommand)) ∧
  (∀ (i : Instr) (s t : State), i.wf = true → exec i s = .next t → t.status.code = .badCommand →
    (i = .hdrEncode ∨ i = .alloc ∨ i = .frameStartCrc ∨ i = .frameStartNocrc) ∧ hdrV s.hdr = false)

/-- R704: in the hung state a write to CMD changes nothing. -/
def Obligations.HungCoreIgnoresCommands : Prop :=
  ∀ (s : State) (v : Word) (rest : List HostAction),
    s.nextCommand v rest → s.status.hung = true → step s = .next (s.withPending rest)

/-- R71, R457, R704: the hung state is entered only by ALLOC or a frame start whose header's bitpool is
more than 16 for each cell of a scope, and left only by reset. -/
def Obligations.HungStateEntryAndExit : Prop :=
  ∀ s t : State, step s = .next t →
    (s.status.hung = false → t.status.hung = true →
      ∃ v rest i info, s.nextCommand v rest ∧ decode v = .ok i ∧
        (i = .alloc ∨ i = .frameStartCrc ∨ i = .frameStartNocrc) ∧ hdrInfo s.hdr = some info ∧
        16 * scopeSize info < info.bitpool.toNat) ∧
    (s.status.hung = true → (t.status.hung = false ↔ ∃ src rest, s.pending = .reset src :: rest))

/-! ### The invariant and reset -/

/-- R800: after reset every register is 0 and the parameters are those the instance had. -/
def Obligations.ResetClearsEveryRegister : Prop :=
  ∀ (s : State) (src : List Byte) (rest : List HostAction), s.pending = .reset src :: rest →
    ∃ t, step s = .next t ∧ t.params = s.params ∧
      t.status = { code := .ok, lastop := 0, hung := false } ∧ t.hdr = 0 ∧ t.result = 0 ∧
      t.crc = { acc := 0, rx := 0 } ∧ t.stream = { buf := 0, rem := 0, src := src } ∧
      t.frame = { fstate := .idle, blocksLeft := 0, cursor := 0, frameBlocks := 0 } ∧ t.join = 0 ∧
      (∀ ch sb, t.sf.get ch sb = 0 ∧ t.bits.get ch sb = 0 ∧ t.sb.get ch sb = 0 ∧ t.pcm.get ch sb = 0 ∧
        ∀ k : Fin 10, (t.hist.get ch sb)[k] = 0) ∧ t.pending = rest

/-- The invariant holds of the state after reset of every instance, whatever the host leaves in SRC. -/
def Obligations.InvAfterReset : Prop :=
  ∀ (p : Params) (src : List Byte), (State.resetOf p src).Inv

/-- R56, R61, R62, R63, R65, R70: every step keeps the invariant, from every state that has it. -/
def Obligations.StepKeepsInv : Prop :=
  ∀ s t : State, s.Inv → step s = .next t → t.Inv

/-! ### The register space -/

/-- R151, R163: a register read returns the register's value and changes no register. -/
def Obligations.RegisterReadHasNoEffect : Prop :=
  ∀ (s : State) (a : Addr) (rest : List HostAction), s.pending = .read a :: rest →
    ∃ t, step s = .next t ∧ t.readData = regRead s a ∧
      { t with readData := s.readData, pending := s.pending } = s

/-- R53 to R55, R60 to R63: what the host reads at the named registers, field by field, the reserved bits
reading 0. -/
def Obligations.NamedRegistersReadTheirFields : Prop :=
  ∀ s : State, s.Inv →
    regRead s 0x000 = 0 ∧
    ((regRead s 0x001).extractLsb' 0 4).toNat = codeNumber s.status.code ∧
    (regRead s 0x001).extractLsb' 4 4 = 0 ∧ (regRead s 0x001).extractLsb' 8 8 = s.status.lastop ∧
    (regRead s 0x001).getLsbD 16 = s.status.hung ∧ (regRead s 0x001).extractLsb' 17 15 = 0 ∧
    ((regRead s 0x002).extractLsb' 0 2).toNat = s.params.ch.toNat ∧
    (regRead s 0x002).extractLsb' 2 2 = 0 ∧
    ((regRead s 0x002).extractLsb' 4 4).toNat = s.params.sb.toNat ∧
    (regRead s 0x002).extractLsb' 8 24 = 0 ∧
    regRead s 0x003 = s.hdr ∧ regRead s 0x005 = s.result ∧
    (regRead s 0x006).extractLsb' 0 8 = s.crc.acc ∧ (regRead s 0x006).extractLsb' 8 8 = s.crc.rx ∧
    (regRead s 0x006).extractLsb' 16 16 = 0 ∧
    (regRead s 0x007).extractLsb' 0 8 = s.stream.buf ∧
    ((regRead s 0x007).extractLsb' 8 4).toNat = s.stream.rem ∧
    (regRead s 0x007).extractLsb' 12 20 = 0 ∧
    ((regRead s 0x008).extractLsb' 0 2).toNat = frameStateNumber s.frame.fstate ∧
    (regRead s 0x008).extractLsb' 2 6 = 0 ∧
    ((regRead s 0x008).extractLsb' 8 5).toNat = s.frame.blocksLeft ∧
    (regRead s 0x008).extractLsb' 13 3 = 0 ∧
    ((regRead s 0x008).extractLsb' 16 4).toNat = s.frame.cursor.val ∧
    (regRead s 0x008).extractLsb' 20 4 = 0 ∧
    ((regRead s 0x008).extractLsb' 24 5).toNat = s.frame.frameBlocks ∧
    (regRead s 0x008).extractLsb' 29 3 = 0 ∧
    regRead s 0x009 = s.join.setWidth 32

/-- R58, R405: HDR_INFO, field by field, in both modes, and the frame block count. -/
def Obligations.HdrInfoReportsTheHeader : Prop :=
  ∀ s : State,
    (hdrV s.hdr = false → regRead s 0x004 = 0) ∧
    (hdrV s.hdr = true → hdrMode s.hdr = false →
      (regRead s 0x004).extractLsb' 0 2 = s.hdr.extractLsb' 14 2 ∧
      ((regRead s 0x004).extractLsb' 2 5).toNat = 4 * ((s.hdr.extractLsb' 12 2).toNat + 1) ∧
      (regRead s 0x004).getLsbD 7 = false ∧
      (regRead s 0x004).extractLsb' 8 2 = s.hdr.extractLsb' 10 2 ∧
      (regRead s 0x004).getLsbD 10 = s.hdr.getLsbD 9 ∧
      ((regRead s 0x004).extractLsb' 11 4).toNat = 4 * ((s.hdr.extractLsb' 8 1).toNat + 1) ∧
      (regRead s 0x004).getLsbD 15 = false ∧
      (regRead s 0x004).extractLsb' 16 8 = s.hdr.extractLsb' 0 8 ∧
      ((regRead s 0x004).extractLsb' 24 2).toNat = (if s.hdr.extractLsb' 10 2 = 0 then 1 else 2) ∧
      (regRead s 0x004).extractLsb' 26 5 = 0 ∧ (regRead s 0x004).getLsbD 31 = true ∧
      ∃ info, hdrInfo s.hdr = some info ∧
        frameBlockCount info = 4 * ((s.hdr.extractLsb' 12 2).toNat + 1)) ∧
    (hdrV s.hdr = true → hdrMode s.hdr = true →
      regRead s 0x004 = 0x81184080 ∧
      ∃ info, hdrInfo s.hdr = some info ∧ frameBlockCount info = 15)

/-- R64 to R68: what the host reads at the cells of the matrices. -/
def Obligations.CellRegistersReadTheirCells : Prop :=
  ∀ (s : State) (ch : Fin 2) (sb : Fin 8), hasCell s.params ch sb = true →
    regRead s (BitVec.ofNat 9 (0x010 + 8 * ch.val + sb.val)) = (s.sf.get ch sb).setWidth 32 ∧
    regRead s (BitVec.ofNat 9 (0x020 + 8 * ch.val + sb.val)) = (s.bits.get ch sb).setWidth 32 ∧
    regRead s (BitVec.ofNat 9 (0x030 + 8 * ch.val + sb.val)) = s.sb.get ch sb ∧
    (regRead s (BitVec.ofNat 9 (0x040 + 8 * ch.val + sb.val))).toInt = (s.pcm.get ch sb).toInt ∧
    ∀ t : Fin 10, regRead s (BitVec.ofNat 9 (0x100 + 80 * ch.val + 10 * sb.val + t.val)) = (s.hist.get ch sb)[t]

/-- R69, R70: an address that is neither a named register nor a cell of the configuration reads 0, and the
read changes no register; a write there, or to a read-only register, is ignored. -/
def Obligations.OtherAddressesAreInert : Prop :=
  ∀ (s : State) (a : Addr) (v : Word) (rest : List HostAction),
    ((∀ ch sb, hasCell s.params ch sb = true →
        a.toNat ≠ 0x010 + 8 * ch.val + sb.val ∧ a.toNat ≠ 0x020 + 8 * ch.val + sb.val ∧
        a.toNat ≠ 0x030 + 8 * ch.val + sb.val ∧ a.toNat ≠ 0x040 + 8 * ch.val + sb.val ∧
        ∀ t : Fin 10, a.toNat ≠ 0x100 + 80 * ch.val + 10 * sb.val + t.val) →
      0x009 < a.toNat → regRead s a = 0 ∧
        (s.pending = .read a :: rest → step s = .next ((s.withPending rest).withReadData 0))) ∧
    (a.toNat ≠ 0x000 → a.toNat ≠ 0x003 → a.toNat ≠ 0x009 →
      (∀ ch sb, hasCell s.params ch sb = true →
        a.toNat ≠ 0x010 + 8 * ch.val + sb.val ∧ a.toNat ≠ 0x030 + 8 * ch.val + sb.val) →
      s.pending = .write a v :: rest → step s = .next (s.withPending rest))

/-- R57: the value HDR takes at a host write, bit by bit, and no other register changes. -/
def Obligations.HostWriteLegalizesHdr : Prop :=
  ∀ (s : State) (v : Word) (rest : List HostAction), s.pending = .write 0x003 v :: rest →
    ∃ h : Word, step s = .next ((s.withPending rest).withHdr h) ∧
      h.getLsbD 31 = v.getLsbD 31 ∧ h.extractLsb' 17 14 = 0 ∧ h.getLsbD 16 = v.getLsbD 16 ∧
      h.extractLsb' 0 16 = (if v.getLsbD 16 then 0 else v.extractLsb' 0 16)

/-- R63, R64, R66, R152: host writes of JOIN, SF and SB, in the hung state too. -/
def Obligations.HostWritesJoinSfSb : Prop :=
  ∀ (s : State) (v : Word) (rest : List HostAction),
    (s.pending = .write 0x009 v :: rest →
      ∃ j : BitVec 8, step s = .next ((s.withPending rest).withJoin j) ∧
        ∀ sb : Fin 8, j.getLsbD sb = (decide (sb.val < s.params.sb.toNat) && v.getLsbD sb)) ∧
    (∀ ch sb, hasCell s.params ch sb = true →
      s.pending = .write (BitVec.ofNat 9 (0x010 + 8 * ch.val + sb.val)) v :: rest →
      ∃ m, step s = .next ((s.withPending rest).withSf m) ∧
        ∀ c b, m.get c b = if c = ch ∧ b = sb then v.extractLsb' 0 4 else s.sf.get c b) ∧
    (∀ ch sb, hasCell s.params ch sb = true →
      s.pending = .write (BitVec.ofNat 9 (0x030 + 8 * ch.val + sb.val)) v :: rest →
      ∃ m, step s = .next ((s.withPending rest).withSb m) ∧
        ∀ c b, m.get c b = if c = ch ∧ b = sb then v else s.sb.get c b)

/-- R153: the host's bytes go to the tail of SRC and nothing else changes. -/
def Obligations.HostPushAppends : Prop :=
  ∀ (s : State) (bytes : List Byte) (rest : List HostAction), s.pending = .push bytes :: rest →
    step s = .next ((s.withPending rest).withStream
      { buf := s.stream.buf, rem := s.stream.rem, src := s.stream.src ++ bytes })

/-! ### The bit reader -/

/-- R302: the word 0x10 is BR_RESET, which empties the bit reader and leaves the source and every other register
but STATUS.CODE. -/
def Obligations.BrResetEmptiesTheReader : Prop :=
  decode 0x10 = .ok .brReset ∧ ∀ s : State,
    exec .brReset s = .next ((s.withStream { buf := 0, rem := 0, src := s.stream.src }).withCode .ok)

/-- R301, R303, R304: BR_READ8 and BR_READ16 return the next n bits and take no more bytes than they need;
with too few bits left they end with UNDERFLOW, RESULT unchanged, everything taken; with n out of range
they change only the status. Their words have OP = 0x11 and 0x12 and A = n. -/
def Obligations.ReadCommandsReturnTheNextBits : Prop :=
  ∀ (s : State) (n : Byte) (i : Instr) (max : Nat), s.stream.rem ≤ 7 →
    (i = .brRead8 n ∧ max = 8) ∨ (i = .brRead16 n ∧ max = 16) →
    (n.toNat ≤ max →
      decode ((if max = 8 then 0x11 else 0x12) ||| n.setWidth 32 <<< 8) = .ok i) ∧
    (max < n.toNat → exec i s = .next (s.withCode .badCommand)) ∧
    (n.toNat ≤ max → n.toNat ≤ s.stream.avail →
      exec i s = .next (((s.withStream (s.stream.advance n.toNat)).withResult
        (BitVec.ofNat 32 (valueOf (s.stream.pendingBits.take n.toNat)))).withCode .ok)) ∧
    (n.toNat ≤ max → s.stream.avail < n.toNat →
      exec i s = .next ((s.withStream s.stream.drained).withCode .underflow))

/-- R305 (a), (c): a read of n1 + n2 bits returns what a read of n1 and a read of n2 bits return, one after
the other, and ends at the same position; a read of bits that BUF still holds takes no byte. -/
def Obligations.ReadsSplitAtAnyBoundary : Prop :=
  ∀ (s t1 t2 t : State) (n1 n2 : Byte), s.stream.rem ≤ 7 → n1.toNat + n2.toNat ≤ 16 →
    n1.toNat + n2.toNat ≤ s.stream.avail →
    exec (.brRead16 n1) s = .next t1 → exec (.brRead16 n2) t1 = .next t2 →
    exec (.brRead16 (n1 + n2)) s = .next t →
    t.result.toNat = t1.result.toNat * 2 ^ n2.toNat + t2.result.toNat ∧ t.stream = t2.stream ∧
    t.status.code = .ok ∧ (n1.toNat ≤ s.stream.rem → t1.stream.src = s.stream.src)

/-! ### CRC-8 -/

/-- R350: the one-bit fold, in numbers. -/
def Obligations.CrcBitStep : Prop :=
  ∀ (c : Byte) (b : Bool), (crcBit c b).toNat =
    if c.getLsbD 7 = b then 2 * c.toNat % 256 else (2 * c.toNat % 256) ^^^ 0x1D

/-- R355: the word with OP = 0x20 and A = v is CRC_INIT v, which writes v to ACC, with status OK, and changes
nothing else. -/
def Obligations.CrcInitSetsAcc : Prop :=
  ∀ (s : State) (v : Byte), decode (0x20 ||| v.setWidth 32 <<< 8) = .ok (.crcInit v) ∧
    exec (.crcInit v) s = .next ((s.withCrc { acc := v, rx := s.crc.rx }).withCode .ok)

/-- R352, R356: the word with OP = 0x21 and A = x is CRC_BYTE x. It replaces ACC by the table entry of
ACC xor x, which is eight one-bit folds of x, x[7] first, and changes nothing else but the status. -/
def Obligations.CrcByteFoldsEightBits : Prop :=
  ∀ (s : State) (x : Byte),
    decode (0x21 ||| x.setWidth 32 <<< 8) = .ok (.crcByte x) ∧
    exec (.crcByte x) s =
      .next ((s.withCrc { acc := crcTable (s.crc.acc ^^^ x), rx := s.crc.rx }).withCode .ok) ∧
    crcTable (s.crc.acc ^^^ x) =
      crcBit (crcBit (crcBit (crcBit (crcBit (crcBit (crcBit (crcBit s.crc.acc (x.getLsbD 7))
        (x.getLsbD 6)) (x.getLsbD 5)) (x.getLsbD 4)) (x.getLsbD 3)) (x.getLsbD 2)) (x.getLsbD 1))
        (x.getLsbD 0)

/-- R353, R357: CRC_BITS folds the k high bits of x, first bit first, for k in 0..7; a larger k ends with
BAD_COMMAND and changes only the status. The word has OP = 0x22, A = x and B = k. -/
def Obligations.CrcBitsFoldsHighBits : Prop :=
  ∀ (s : State) (x k : Byte),
    (k.toNat ≤ 7 →
      decode (0x22 ||| x.setWidth 32 <<< 8 ||| k.setWidth 32 <<< 16) = .ok (.crcBits x k)) ∧
    (k.toNat ≤ 7 → exec (.crcBits x k) s =
      .next ((s.withCrc { acc := ((byteBits x).take k.toNat).foldl crcBit s.crc.acc,
                          rx := s.crc.rx }).withCode .ok)) ∧
    (7 < k.toNat → exec (.crcBits x k) s = .next (s.withCode .badCommand))

/-- R354: the CRC over a byte sequence and a bit length is the fold of its first bits, and over pieces one
after another the fold of their concatenation. -/
def Obligations.CrcOfBytesIsCrcOfBits : Prop :=
  (∀ (init : Byte) (x : List Byte) (nbits : Nat), nbits ≤ 8 * x.length →
    crc8 init x nbits = crcSeq init ((x.flatMap byteBits).take nbits)) ∧
  (∀ (init : Byte) (a b : List Bool), crcSeq init (a ++ b) = crcSeq (crcSeq init a) b)

/-- R358: two bit sequences that differ in exactly one bit have different CRCs. -/
def Obligations.CrcSeesEverySingleBitError : Prop :=
  ∀ (init : Byte) (a b : List Bool) (x : Bool), crcSeq init (a ++ x :: b) ≠ crcSeq init (a ++ (!x) :: b)

/-! ### The header codec -/

/-- R403: the word 0x30 is HDR_DECODE; its four outcomes. BR and every register but HDR and STATUS are unchanged. -/
def Obligations.HdrDecodeOutcomes : Prop :=
  decode 0x30 = .ok .hdrDecode ∧ ∀ (s : State) (b0 b1 b2 : Byte) (q : List Byte),
    (s.stream.src = b0 :: b1 :: b2 :: q →
      exec .hdrDecode s =
        if b0 = 0x9C then
          .next (((s.withStream { buf := s.stream.buf, rem := s.stream.rem, src := q }).withHdr
            (0x80000000 ||| b1.setWidth 32 <<< 8 ||| b2.setWidth 32)).withCode .ok)
        else if b0 = s.params.syncMsbc then
          .next (((s.withStream { buf := s.stream.buf, rem := s.stream.rem, src := q }).withHdr
            0x80010000).withCode .ok)
        else
          .next ((s.withStream { buf := s.stream.buf, rem := s.stream.rem, src := q }).withCode
            .unrecognizedSync)) ∧
    (s.stream.src.length < 3 →
      exec .hdrDecode s =
        .next ((s.withStream { buf := s.stream.buf, rem := s.stream.rem, src := [] }).withCode .underflow))

/-- R404: the word 0x31 is HDR_ENCODE, which puts the three bytes in RESULT, the first in [23:16]; without a header it ends with
BAD_COMMAND. -/
def Obligations.HdrEncodeOutcomes : Prop :=
  decode 0x31 = .ok .hdrEncode ∧ ∀ s : State,
    (hdrV s.hdr = false → exec .hdrEncode s = .next (s.withCode .badCommand)) ∧
    (hdrV s.hdr = true → hdrMode s.hdr = false →
      exec .hdrEncode s =
        .next ((s.withResult (0x009C0000 ||| s.hdr &&& 0x0000FFFF)).withCode .ok)) ∧
    (hdrV s.hdr = true → hdrMode s.hdr = true →
      exec .hdrEncode s = .next ((s.withResult (s.params.syncMsbc.setWidth 32 <<< 16)).withCode .ok))

/-- R407: encoding a held header and decoding the three bytes of RESULT from the source gives the same
HDR, in both modes. -/
def Obligations.HeaderRoundTrip : Prop :=
  ∀ s t : State, s.Inv → s.params.syncMsbc ≠ 0x9C → hdrV s.hdr = true → exec .hdrEncode s = .next t →
    ∃ u, exec .hdrDecode (t.withStream { buf := t.stream.buf, rem := t.stream.rem, src :=
        [t.result.extractLsb' 16 8, t.result.extractLsb' 8 8, t.result.extractLsb' 0 8] }) = .next u ∧
      u.status.code = .ok ∧ u.hdr = s.hdr ∧ u.stream.src = []

/-! ### Bit allocation -/

/-- R451, R452: the bitneed of a cell, with the truncating halving of positive loudness values only, and the
range -2..9 of the loudness values with the default parameters. The last clause rests on the default offset
tables of R453, which are general knowledge (log entry 3, PRESUMED). -/
def Obligations.BitneedFollowsTheMethod : Prop :=
  ∀ (p : Params) (info : HdrInfo) (sf : BitVec 4) (sb : Fin 8),
    (info.alm = .snr → bitneed p info sf sb = sf.toNat) ∧
    (info.alm = .loudness → p.loudnessSf0Minus5 = true → sf = 0 → bitneed p info sf sb = -5) ∧
    (info.alm = .loudness → ¬(p.loudnessSf0Minus5 = true ∧ sf = 0) →
      (0 < (sf.toNat : Int) - offset p info.nsub info.freq sb →
        2 * bitneed p info sf sb ≤ (sf.toNat : Int) - offset p info.nsub info.freq sb ∧
        (sf.toNat : Int) - offset p info.nsub info.freq sb < 2 * bitneed p info sf sb + 2) ∧
      ((sf.toNat : Int) - offset p info.nsub info.freq sb ≤ 0 →
        bitneed p info sf sb = (sf.toNat : Int) - offset p info.nsub info.freq sb)) ∧
    (info.alm = .loudness → ∀ (c : Channels) (m : Subbands),
      -2 ≤ bitneed (Config.defaultParams c m) info sf sb ∧ bitneed (Config.defaultParams c m) info sf sb ≤ 9)

/-- R450: the cases in which ALLOC writes no BITS: no header, a header of another shape, a bitpool that the
search can never spend (R457). -/
def Obligations.AllocRefusals : Prop :=
  ∀ s : State,
    (hdrV s.hdr = false → exec .alloc s = .next (s.withCode .badCommand)) ∧
    (∀ info, hdrInfo s.hdr = some info →
      ¬(impliedChannels info.chm = s.params.ch ∧ info.nsub = s.params.sb) →
      exec .alloc s = .next (s.withCode .configMismatch)) ∧
    (∀ info, hdrInfo s.hdr = some info →
      impliedChannels info.chm = s.params.ch → info.nsub = s.params.sb →
      16 * scopeSize info < info.bitpool.toNat →
      exec .alloc s = .next { s with status := { s.status with code := .hung, hung := true } })

/-- R450, R457, R462: with a header of the instance's shape and a bitpool of at most 16 for each cell of a
scope, ALLOC ends with OK, changes BITS alone, gives every cell at most 16 bits, and spends the whole
bitpool in every scope. -/
def Obligations.AllocSpendsTheWholeBitpool : Prop :=
  ∀ (s : State) (info : HdrInfo), hdrInfo s.hdr = some info →
    impliedChannels info.chm = s.params.ch → info.nsub = s.params.sb →
    info.bitpool.toNat ≤ 16 * scopeSize info →
    ∃ w, exec .alloc s = .next ((s.withBits w).withCode .ok) ∧
      (∀ ch sb, hasCell s.params ch sb = true → (w.get ch sb).toNat ≤ 16) ∧
      (∀ ch sb, hasCell s.params ch sb = false → w.get ch sb = s.bits.get ch sb) ∧
      (info.chm = .mono ∨ info.chm = .dual → ∀ ch : Fin 2, ch.val < s.params.ch.toNat →
        ((Subbands.list s.params.sb).map fun sb => (w.get ch sb).toNat).sum = info.bitpool.toNat) ∧
      (info.chm = .stereo ∨ info.chm = .joint →
        ((cells s.params).map fun c => (w.get c.1 c.2).toNat).sum = info.bitpool.toNat)

/-- R450, R454 to R461: with a header of the instance's shape and a bitpool of at most 16 for each cell of a
scope, the widths ALLOC writes are those of the method, cell by cell: in mono and dual-channel mode each
channel is a scope of its own, its sub-bands in order; in stereo and joint-stereo mode there is one scope,
sub-band outer and channel inner, so position k is channel k mod 2 of sub-band k div 2. -/
def Obligations.AllocGivesEachCellItsWidth : Prop :=
  ∀ (s : State) (info : HdrInfo), hdrInfo s.hdr = some info →
    impliedChannels info.chm = s.params.ch → info.nsub = s.params.sb →
    info.bitpool.toNat ≤ 16 * scopeSize info →
    ∃ w, exec .alloc s = .next ((s.withBits w).withCode .ok) ∧
      (info.chm = .mono ∨ info.chm = .dual → ∀ ch : Fin 2, ch.val < s.params.ch.toNat →
        ScopeWidths info.bitpool.toNat s.params.sb.toNat
          (fun k => bitneed s.params info (s.sf.get ch (Fin.ofNat 8 k)) (Fin.ofNat 8 k))
          (fun k => (w.get ch (Fin.ofNat 8 k)).toNat)) ∧
      (info.chm = .stereo ∨ info.chm = .joint →
        ScopeWidths info.bitpool.toNat (2 * s.params.sb.toNat)
          (fun k => bitneed s.params info (s.sf.get (Fin.ofNat 2 k) (Fin.ofNat 8 (k / 2)))
            (Fin.ofNat 8 (k / 2)))
          (fun k => (w.get (Fin.ofNat 2 k) (Fin.ofNat 8 (k / 2))).toNat))

/-- R456, R463: the search ends at the largest threshold, from the largest bitneed down, at which the running
total plus the slice count reaches the budget; its running total is the sum of the initial widths, and is
below the budget unless both are 0. -/
def Obligations.SearchFindsTheLargestThreshold : Prop :=
  ∀ (budget : Nat) (bns : List Int), bns ≠ [] → budget ≤ 16 * bns.length →
    (search budget bns).1 ≤ maxOf bns ∧
    (search budget bns).2 = (bns.map (initialWidth (search budget bns).1)).sum ∧
    budget ≤ (search budget bns).2 + sliceCount bns (search budget bns).1 ∧
    (∀ s : Int, (search budget bns).1 < s → s ≤ maxOf bns →
      (bns.map (initialWidth s)).sum + sliceCount bns s < budget) ∧
    ((search budget bns).2 < budget ∨ budget = 0 ∧ (search budget bns).2 = 0)

/-! ### Reconstruction -/

/-- R500, R504, R505: the range of the dequantizer, its order in the codeword, and silence at width 0. -/
def Obligations.DequantRange : Prop :=
  (∀ sf c : Nat, dequant sf 0 c = 0) ∧
  ∀ sf w c d : Nat, sf ≤ 15 → 1 ≤ w → w ≤ 16 → c ≤ d → d < 2 ^ w →
    -(2 : Int) ^ (sf + 3) ≤ dequant sf w c ∧ dequant sf w c ≤ dequant sf w d ∧
    dequant sf w d ≤ 2 ^ (sf + 4) ∧ -262140 ≤ dequant sf w c ∧ dequant sf w d ≤ 524288

/-- R502, R503: the word 0x50 is RECON, which reads the block's codewords, channel outer, dequantizes each by its SF and BITS, undoes
mid/side where two channels are configured and JOIN says so, writes SB and nothing else; with too few
bits left it ends with UNDERFLOW and SB is unchanged. -/
def Obligations.ReconOutcomes : Prop :=
  decode 0x50 = .ok .recon ∧ ∀ s : State, s.stream.rem ≤ 7 →
    (blockBits s ≤ s.stream.avail →
      ∃ m, exec .recon s = .next (((s.withStream (s.stream.advance (blockBits s))).withSb m).withCode .ok) ∧
        (∀ ch sb, hasCell s.params ch sb = false → m.get ch sb = s.sb.get ch sb) ∧
        ∃ v : Fin 2 → Fin 8 → Int,
          (∀ ch sb, hasCell s.params ch sb = true → v ch sb =
            dequant (s.sf.get ch sb).toNat (s.bits.get ch sb).toNat
              ((fieldsOf (codewordWidths s) s.stream.pendingBits).getD
                (s.params.sb.toNat * ch.val + sb.val) 0)) ∧
          (∀ ch sb, hasCell s.params ch sb = true →
            ¬(s.params.ch = .two ∧ s.join.getLsbD sb = true) →
            m.get ch sb = BitVec.ofInt 32 (v ch sb)) ∧
          (∀ sb, hasCell s.params 1 sb = true → s.join.getLsbD sb = true →
            m.get 0 sb = BitVec.ofInt 32 (v 0 sb + v 1 sb) ∧
            m.get 1 sb = BitVec.ofInt 32 (v 0 sb - v 1 sb))) ∧
    (s.stream.avail < blockBits s →
      exec .recon s = .next ((s.withStream s.stream.drained).withCode .underflow))

/-- R505: what RECON writes to SB is, as a signed number, exactly the dequantized value, or the sum and the
difference of the two where mid/side is undone, and lies in -786428..1048576: the 32-bit register never
wraps. -/
def Obligations.ReconStaysInRange : Prop :=
  ∀ s t : State, s.Inv → exec .recon s = .next t → t.status.code = .ok →
    ∃ v : Fin 2 → Fin 8 → Int,
      (∀ ch sb, hasCell s.params ch sb = true → v ch sb =
        dequant (s.sf.get ch sb).toNat (s.bits.get ch sb).toNat
          ((fieldsOf (codewordWidths s) s.stream.pendingBits).getD
            (s.params.sb.toNat * ch.val + sb.val) 0)) ∧
      (∀ ch sb, hasCell s.params ch sb = true → ¬(s.params.ch = .two ∧ s.join.getLsbD sb = true) →
        (t.sb.get ch sb).toInt = v ch sb) ∧
      (∀ sb, hasCell s.params 1 sb = true → s.join.getLsbD sb = true →
        (t.sb.get 0 sb).toInt = v 0 sb + v 1 sb ∧ (t.sb.get 1 sb).toInt = v 0 sb - v 1 sb) ∧
      (∀ ch sb, hasCell s.params ch sb = true →
        -786428 ≤ (t.sb.get ch sb).toInt ∧ (t.sb.get ch sb).toInt ≤ 1048576)

/-- R502: RECON looks at neither HDR nor FRAME nor the filter state: two states that agree on what it reads
give the same SB, the same stream position and the same code. -/
def Obligations.ReconIgnoresHeaderAndFrame : Prop :=
  ∀ s s' t t' : State, s.params = s'.params → s.bits = s'.bits → s.sf = s'.sf → s.join = s'.join →
    s.stream = s'.stream → s.sb = s'.sb → exec .recon s = .next t → exec .recon s' = .next t' →
    t.sb = t'.sb ∧ t.stream = t'.stream ∧ t.status.code = t'.status.code

/-! ### The filter bank -/

/-- R551 to R554: the word 0x60 is SYNTH. One SYNTH ends with OK, stores the combined samples into slot CURSOR, convolves the ten taps backward
from it, saturates to 16 bits, advances the cursor once, and changes nothing else. -/
def Obligations.SynthAdvancesTheFilter : Prop :=
  decode 0x60 = .ok .synth ∧ ∀ s : State, ∃ t, exec .synth s = .next t ∧
    (∀ ch k, hasCell s.params ch k = true →
      (t.hist.get ch k)[s.frame.cursor] = BitVec.ofInt 32
        ((∑ i : Fin 8, if i.val < s.params.sb.toNat then
          cosCoeff s.params k i * (s.sb.get ch i).toInt else 0) / 2 ^ 15)) ∧
    (∀ ch k, ∀ u : Fin 10, hasCell s.params ch k = false ∨ u ≠ s.frame.cursor →
      (t.hist.get ch k)[u] = (s.hist.get ch k)[u]) ∧
    (∀ ch j, hasCell s.params ch j = true →
      (t.pcm.get ch j).toInt = max (-32768) (min 32767
        ((∑ u : Fin 10, winCoeff s.params u j *
          ((t.hist.get ch (selIndex s.params u j))[Fin.ofNat 10 (s.frame.cursor.val + 10 - u.val)]).toInt) /
          2 ^ 15))) ∧
    (∀ ch j, hasCell s.params ch j = false → t.pcm.get ch j = s.pcm.get ch j) ∧
    t.frame = { s.frame with cursor := Fin.ofNat 10 (s.frame.cursor.val + 1) } ∧
    t.status = { s.status with code := .ok } ∧ t.params = s.params ∧ t.hdr = s.hdr ∧
    t.result = s.result ∧ t.crc = s.crc ∧ t.stream = s.stream ∧ t.join = s.join ∧ t.sf = s.sf ∧
    t.bits = s.bits ∧ t.sb = s.sb ∧ t.pending = s.pending ∧ t.readData = s.readData

/-- R551: for samples of the decode range and tables within the bound of R550 the value stored is the
shifted sum itself; the wrap never acts. -/
def Obligations.HistoryStoreIsExactInRange : Prop :=
  ∀ (s t : State), exec .synth s = .next t →
    (∀ k i, |cosCoeff s.params k i| ≤ 2 ^ 16) → (∀ ch i, |(s.sb.get ch i).toInt| ≤ 2 ^ 20) →
    ∀ ch k, hasCell s.params ch k = true →
      ((t.hist.get ch k)[s.frame.cursor]).toInt =
        (∑ i : Fin 8, if i.val < s.params.sb.toNat then
          cosCoeff s.params k i * (s.sb.get ch i).toInt else 0) / 2 ^ 15

/-- R554: the channels are independent: a channel's history and PCM after SYNTH depend on no other
channel's samples or history. -/
def Obligations.SynthChannelsAreIndependent : Prop :=
  ∀ (s s' t t' : State) (ch : Fin 2), s.params = s'.params → s.frame.cursor = s'.frame.cursor →
    (∀ sb, s.sb.get ch sb = s'.sb.get ch sb) → (∀ k, s.hist.get ch k = s'.hist.get ch k) →
    exec .synth s = .next t → exec .synth s' = .next t' →
    (∀ k, t.hist.get ch k = t'.hist.get ch k) ∧
    (∀ j, hasCell s.params ch j = true → t.pcm.get ch j = t'.pcm.get ch j)

/-- R557 (a), (d), for every table set: after ten SYNTH commands on an all-zero SB every history value and
every PCM sample of the instance is 0, and the cursor is where it was. -/
def Obligations.TenZeroBlocksSilenceTheFilter : Prop :=
  ∀ r : Nat → State, (∀ n < 10, exec .synth (r n) = .next (r (n + 1))) →
    (∀ ch sb, hasCell (r 0).params ch sb = true → (r 0).sb.get ch sb = 0) →
    (∀ ch k, ∀ u : Fin 10, hasCell (r 0).params ch k = true → ((r 10).hist.get ch k)[u] = 0) ∧
    (∀ ch j, hasCell (r 0).params ch j = true → (r 10).pcm.get ch j = 0) ∧
    (r 10).frame.cursor = (r 0).frame.cursor

/-- R555: the word 0x61 is FILTER_RESET, which clears the instance's history and the cursor and leaves every other register. -/
def Obligations.FilterResetClearsTheHistory : Prop :=
  decode 0x61 = .ok .filterReset ∧ ∀ s : State, ∃ h, exec .filterReset s =
      .next (((s.withHist h).withFrame { s.frame with cursor := 0 }).withCode .ok) ∧
    (∀ ch k, ∀ u : Fin 10, (h.get ch k)[u] = if hasCell s.params ch k then 0 else (s.hist.get ch k)[u])

/-! ### The frame decoder -/

/-- R601, R602: the ways a frame start ends without a frame: no header (nothing changes), a header of another
shape (no byte read), a source that runs empty. In the last two the frame state is IDLE and JOIN, SF,
BITS and CRC are unchanged. -/
def Obligations.FrameStartRefusals : Prop :=
  ∀ (s : State) (i : Instr) (withCrc : Bool),
    (i = .frameStartCrc ∧ withCrc = true) ∨ (i = .frameStartNocrc ∧ withCrc = false) →
    (hdrV s.hdr = false → exec i s = .next (s.withCode .badCommand)) ∧
    ∀ info, hdrInfo s.hdr = some info →
      (¬(impliedChannels info.chm = s.params.ch ∧ info.nsub = s.params.sb) →
        exec i s = .next ((s.withFrame { s.frame with fstate := .idle, blocksLeft := 0 }).withCode
          .configMismatch)) ∧
      (impliedChannels info.chm = s.params.ch → info.nsub = s.params.sb →
        8 * s.stream.src.length < (if withCrc then 8 else 0) + sideBits info →
        exec i s = .next (((s.withFrame { s.frame with fstate := .idle, blocksLeft := 0 }).withStream
          s.stream.emptied.drained).withCode .underflow))

/-- R601, R603: with all its fields on the wire, FRAME_START_CRC compares the CRC byte with the CRC over the
wire bits; where they differ it ends with CHECKSUM_MISMATCH, CRC showing the two values. -/
def Obligations.FrameStartDetectsChecksumMismatch : Prop :=
  ∀ (s : State) (info : HdrInfo), hdrInfo s.hdr = some info →
    impliedChannels info.chm = s.params.ch → info.nsub = s.params.sb →
    8 + sideBits info ≤ 8 * s.stream.src.length →
    s.wireCrc info ≠ BitVec.ofNat 8 (valueOf (s.wireBits.take 8)) →
    exec .frameStartCrc s =
      .next ((((s.withFrame { s.frame with fstate := .idle, blocksLeft := 0 }).withStream
        (s.stream.emptied.advance (8 + sideBits info))).withCrc
          { acc := s.wireCrc info, rx := BitVec.ofNat 8 (valueOf (s.wireBits.take 8)) }).withCode
        .checksumMismatch)

/-- R601, R457, R704: a frame start whose fields are read and whose CRC matches enters the hung state when
the header's bitpool cannot be spent, with no frame, JOIN, SF and BITS unchanged. -/
def Obligations.FrameStartMayHang : Prop :=
  ∀ (s : State) (info : HdrInfo), hdrInfo s.hdr = some info →
    impliedChannels info.chm = s.params.ch → info.nsub = s.params.sb →
    16 * scopeSize info < info.bitpool.toNat →
    (8 + sideBits info ≤ 8 * s.stream.src.length →
      s.wireCrc info = BitVec.ofNat 8 (valueOf (s.wireBits.take 8)) →
      exec .frameStartCrc s =
        .next (((s.withFrame { s.frame with fstate := .idle, blocksLeft := 0 }).withStream
          (s.stream.emptied.advance (8 + sideBits info))).withCrc
            { acc := s.wireCrc info, rx := s.wireCrc info }).enterHung) ∧
    (sideBits info ≤ 8 * s.stream.src.length →
      exec .frameStartNocrc s =
        .next ((s.withFrame { s.frame with fstate := .idle, blocksLeft := 0 }).withStream
          (s.stream.emptied.advance (sideBits info))).enterHung)

/-- R601, R602, R603: with a header of the instance's shape, all fields on the wire, a bitpool that can be
spent and, for FRAME_START_CRC, the right CRC byte, a frame start ends with OK: SF, JOIN, BITS and FRAME
are the new frame's, FRAME_START_CRC shows the CRC in both fields, FRAME_START_NOCRC leaves CRC. -/
def Obligations.FrameStartCompletes : Prop :=
  ∀ (s : State) (info : HdrInfo), hdrInfo s.hdr = some info →
    impliedChannels info.chm = s.params.ch → info.nsub = s.params.sb →
    info.bitpool.toNat ≤ 16 * scopeSize info →
    (8 + sideBits info ≤ 8 * s.stream.src.length →
      s.wireCrc info = BitVec.ofNat 8 (valueOf (s.wireBits.take 8)) →
      ∃ t, exec .frameStartCrc s = .next t ∧ FrameStarted 8 info s t ∧
        t.crc = { acc := s.wireCrc info, rx := s.wireCrc info }) ∧
    (sideBits info ≤ 8 * s.stream.src.length →
      ∃ t, exec .frameStartNocrc s = .next t ∧ FrameStarted 0 info s t ∧ t.crc = s.crc)

/-- R358, R603: let FRAME_START_CRC not reject a frame. A single flipped bit in its CRC byte, joint bitmap or
scale factors, or a single flipped bit of the header in HDR[15:0] that keeps the layout (the same channel
count, sub-band count and joint or non-joint choice), makes FRAME_START_CRC end with CHECKSUM_MISMATCH,
the frame state IDLE and JOIN, SF and BITS unchanged. -/
def Obligations.SingleBitErrorIsRejected : Prop :=
  ∀ (s s' t : State) (info : HdrInfo) (n : Nat), hdrInfo s.hdr = some info →
    impliedChannels info.chm = s.params.ch → info.nsub = s.params.sb →
    8 + sideBits info ≤ 8 * s.stream.src.length →
    exec .frameStartCrc s = .next t → t.status.code ≠ .checksumMismatch →
    ((n < 8 + sideBits info ∧ s' = s.withStream s'.stream ∧
        s'.wireBits = s.wireBits.set n (!s.wireBits.getD n false)) ∨
      (n < 16 ∧ hdrMode s.hdr = false ∧ s' = s.withHdr (s.hdr ^^^ BitVec.twoPow 32 n) ∧
        ∃ info', hdrInfo s'.hdr = some info' ∧ impliedChannels info'.chm = impliedChannels info.chm ∧
          info'.nsub = info.nsub ∧ (info'.chm = .joint ↔ info.chm = .joint))) →
    ∃ t', exec .frameStartCrc s' = .next t' ∧ t'.status.code = .checksumMismatch ∧
      t'.frame.fstate = .idle ∧ t'.join = s.join ∧ t'.sf = s.sf ∧ t'.bits = s.bits

/-- R604, R209: the word 0x72 is NEXT_BLOCK, which in an active frame is RECON and then SYNTH with the counter taken down by one, the
frame EXHAUSTED at its last block; elsewhere it ends with NO_MORE_BLOCKS; with too few bits left it ends
with UNDERFLOW and the frame is abandoned, SB, HIST, CURSOR and PCM unchanged. -/
def Obligations.NextBlockOutcomes : Prop :=
  decode 0x72 = .ok .frameNext ∧ ∀ s : State, s.stream.rem ≤ 7 →
    (s.frame.fstate ≠ .active → exec .frameNext s = .next (s.withCode .noMoreBlocks)) ∧
    (s.frame.fstate = .active → s.stream.avail < blockBits s →
      exec .frameNext s =
        .next (((s.withStream s.stream.drained).withFrame
          { s.frame with fstate := .idle, blocksLeft := 0 }).withCode .underflow)) ∧
    (s.frame.fstate = .active → blockBits s ≤ s.stream.avail →
      ∃ t1 t2, exec .recon (s.withFrame { s.frame with blocksLeft := s.frame.blocksLeft - 1 }) = .next t1 ∧
        t1.status.code = .ok ∧ exec .synth t1 = .next t2 ∧
        exec .frameNext s = .next (t2.withFrame { t2.frame with
          fstate := if s.frame.blocksLeft - 1 = 0 then .exhausted else .active }))

/-- R600: the frame state machine: which outcomes a frame start and NEXT_BLOCK can have and where each
leads, and that every other command leaves FSTATE and BLOCKS_LEFT. -/
def Obligations.FrameStateMachine : Prop :=
  ∀ (i : Instr) (s t : State), exec i s = .next t →
    (i ≠ .frameStartCrc → i ≠ .frameStartNocrc → i ≠ .frameNext →
      t.frame.fstate = s.frame.fstate ∧ t.frame.blocksLeft = s.frame.blocksLeft) ∧
    (i = .frameStartCrc ∨ i = .frameStartNocrc →
      (t.status.code = .badCommand ∧ hdrV s.hdr = false ∧ t.frame = s.frame) ∨
      (t.status.code = .ok ∧ t.frame.fstate = .active ∧
        ∃ info, hdrInfo s.hdr = some info ∧ t.frame.blocksLeft = frameBlockCount info) ∨
      ((t.status.code = .configMismatch ∨ t.status.code = .underflow ∨
          t.status.code = .checksumMismatch ∨ t.status.code = .hung) ∧
        t.frame.fstate = .idle ∧ t.frame.blocksLeft = 0)) ∧
    (i = .frameNext →
      (s.frame.fstate ≠ .active → t.status.code = .noMoreBlocks ∧ t.frame = s.frame) ∧
      (s.frame.fstate = .active → t.status.code = .underflow →
        t.frame.fstate = .idle ∧ t.frame.blocksLeft = 0) ∧
      (s.frame.fstate = .active → t.status.code ≠ .underflow → t.status.code = .ok ∧
        (2 ≤ s.frame.blocksLeft →
          t.frame.fstate = .active ∧ t.frame.blocksLeft = s.frame.blocksLeft - 1) ∧
        (s.frame.blocksLeft = 1 → t.frame.fstate = .exhausted ∧ t.frame.blocksLeft = 0)))

/-- R207, R605: a frame decoded by a frame start and a NEXT_BLOCK for each of its blocks, all ending with
OK, takes exactly the bytes its fields and codewords fill from the source, and ends EXHAUSTED. -/
def Obligations.FrameTakesExactlyItsBytes : Prop :=
  ∀ (r : Nat → State) (i : Instr) (k : Nat) (info : HdrInfo),
    (i = .frameStartCrc ∧ k = 8) ∨ (i = .frameStartNocrc ∧ k = 0) →
    hdrInfo (r 0).hdr = some info → exec i (r 0) = .next (r 1) → (r 1).status.code = .ok →
    (∀ n < frameBlockCount info,
      exec .frameNext (r (n + 1)) = .next (r (n + 2)) ∧ (r (n + 2)).status.code = .ok) →
    (r (frameBlockCount info + 1)).stream.src =
      (r 0).stream.src.drop
        ((k + sideBits info + frameBlockCount info * blockBits (r 1) + 7) / 8) ∧
    (r (frameBlockCount info + 1)).frame.fstate = .exhausted

/-! ### Rules of the whole machine -/

/-- R705: a command that ends with an error changes no register but STATUS, the stream position, FSTATE and
BLOCKS_LEFT (frame commands) and CRC (FRAME_START_CRC). -/
def Obligations.ErrorsAreContained : Prop :=
  ∀ (i : Instr) (s t : State), exec i s = .next t → t.status.code ≠ .ok →
    t.hist = s.hist ∧ t.pcm = s.pcm ∧ t.frame.cursor = s.frame.cursor ∧
    t.frame.frameBlocks = s.frame.frameBlocks ∧ t.hdr = s.hdr ∧ t.result = s.result ∧ t.sb = s.sb ∧
    t.sf = s.sf ∧ t.bits = s.bits ∧ t.join = s.join ∧ t.params = s.params ∧ t.pending = s.pending ∧
    t.readData = s.readData ∧ t.status.lastop = s.status.lastop ∧
    (t.crc ≠ s.crc → i = .frameStartCrc) ∧
    (t.frame ≠ s.frame → i = .frameStartCrc ∨ i = .frameStartNocrc ∨ i = .frameNext) ∧
    (∃ taken, s.stream.src = taken ++ t.stream.src)

/-- R56, R59 to R68, R704: which commands can change each register. -/
def Obligations.CommandsWriteOnlyTheirRegisters : Prop :=
  ∀ (i : Instr) (s t : State), exec i s = .next t →
    t.params = s.params ∧ t.pending = s.pending ∧ t.readData = s.readData ∧
    t.status.lastop = s.status.lastop ∧
    (t.hdr ≠ s.hdr → i = .hdrDecode) ∧
    (t.result ≠ s.result → (∃ n, i = .brRead8 n ∨ i = .brRead16 n) ∨ i = .hdrEncode) ∧
    (t.crc ≠ s.crc → (∃ x k, i = .crcInit x ∨ i = .crcByte x ∨ i = .crcBits x k) ∨ i = .frameStartCrc) ∧
    (t.stream ≠ s.stream → i = .brReset ∨ (∃ n, i = .brRead8 n ∨ i = .brRead16 n) ∨ i = .hdrDecode ∨
      i = .recon ∨ i = .frameStartCrc ∨ i = .frameStartNocrc ∨ i = .frameNext) ∧
    (t.frame ≠ s.frame → i = .synth ∨ i = .filterReset ∨ i = .frameStartCrc ∨ i = .frameStartNocrc ∨
      i = .frameNext) ∧
    (t.join ≠ s.join ∨ t.sf ≠ s.sf → i = .frameStartCrc ∨ i = .frameStartNocrc) ∧
    (t.bits ≠ s.bits → i = .alloc ∨ i = .frameStartCrc ∨ i = .frameStartNocrc) ∧
    (t.sb ≠ s.sb → i = .recon ∨ i = .frameNext) ∧
    (t.pcm ≠ s.pcm → i = .synth ∨ i = .frameNext) ∧
    (t.hist ≠ s.hist → i = .synth ∨ i = .filterReset ∨ i = .frameNext) ∧
    (t.status.hung ≠ s.status.hung → i = .alloc ∨ i = .frameStartCrc ∨ i = .frameStartNocrc)

/-- R68, R555, R604: a step changes a history value only by SYNTH or NEXT_BLOCK, which change only slot
CURSOR, by FILTER_RESET, or by reset. -/
def Obligations.HistoryChangesOnlyInTheFilter : Prop :=
  ∀ (s t : State) (ch : Fin 2) (k : Fin 8) (u : Fin 10), step s = .next t →
    (t.hist.get ch k)[u] ≠ (s.hist.get ch k)[u] →
    (∃ src rest, s.pending = .reset src :: rest) ∨
    (∃ v rest, s.nextCommand v rest ∧ decode v = .ok .filterReset) ∨
    (∃ v rest, s.nextCommand v rest ∧ (decode v = .ok .synth ∨ decode v = .ok .frameNext) ∧
      u = s.frame.cursor ∧ hasCell s.params ch k = true)
end

