-- ==== Sys2Proof/Laws/State.lean ====
section
/-! SUPPORT. One lemma for each field of State and each named update of it: what the field is after the
update. All hold by rfl. -/

namespace Sys2Proof.Machine

variable (s : State)

/-! ### withCode -/

@[simp] theorem withCode_params (v : StatusCode) : (s.withCode v).params = s.params := rfl
@[simp] theorem withCode_status (v : StatusCode) : (s.withCode v).status = { s.status with code := v } := rfl
@[simp] theorem withCode_hdr (v : StatusCode) : (s.withCode v).hdr = s.hdr := rfl
@[simp] theorem withCode_result (v : StatusCode) : (s.withCode v).result = s.result := rfl
@[simp] theorem withCode_crc (v : StatusCode) : (s.withCode v).crc = s.crc := rfl
@[simp] theorem withCode_stream (v : StatusCode) : (s.withCode v).stream = s.stream := rfl
@[simp] theorem withCode_frame (v : StatusCode) : (s.withCode v).frame = s.frame := rfl
@[simp] theorem withCode_join (v : StatusCode) : (s.withCode v).join = s.join := rfl
@[simp] theorem withCode_sf (v : StatusCode) : (s.withCode v).sf = s.sf := rfl
@[simp] theorem withCode_bits (v : StatusCode) : (s.withCode v).bits = s.bits := rfl
@[simp] theorem withCode_sb (v : StatusCode) : (s.withCode v).sb = s.sb := rfl
@[simp] theorem withCode_pcm (v : StatusCode) : (s.withCode v).pcm = s.pcm := rfl
@[simp] theorem withCode_hist (v : StatusCode) : (s.withCode v).hist = s.hist := rfl
@[simp] theorem withCode_pending (v : StatusCode) : (s.withCode v).pending = s.pending := rfl
@[simp] theorem withCode_readData (v : StatusCode) : (s.withCode v).readData = s.readData := rfl

/-! ### withLastop -/

@[simp] theorem withLastop_params (v : Byte) : (s.withLastop v).params = s.params := rfl
@[simp] theorem withLastop_status (v : Byte) : (s.withLastop v).status = { s.status with lastop := v } := rfl
@[simp] theorem withLastop_hdr (v : Byte) : (s.withLastop v).hdr = s.hdr := rfl
@[simp] theorem withLastop_result (v : Byte) : (s.withLastop v).result = s.result := rfl
@[simp] theorem withLastop_crc (v : Byte) : (s.withLastop v).crc = s.crc := rfl
@[simp] theorem withLastop_stream (v : Byte) : (s.withLastop v).stream = s.stream := rfl
@[simp] theorem withLastop_frame (v : Byte) : (s.withLastop v).frame = s.frame := rfl
@[simp] theorem withLastop_join (v : Byte) : (s.withLastop v).join = s.join := rfl
@[simp] theorem withLastop_sf (v : Byte) : (s.withLastop v).sf = s.sf := rfl
@[simp] theorem withLastop_bits (v : Byte) : (s.withLastop v).bits = s.bits := rfl
@[simp] theorem withLastop_sb (v : Byte) : (s.withLastop v).sb = s.sb := rfl
@[simp] theorem withLastop_pcm (v : Byte) : (s.withLastop v).pcm = s.pcm := rfl
@[simp] theorem withLastop_hist (v : Byte) : (s.withLastop v).hist = s.hist := rfl
@[simp] theorem withLastop_pending (v : Byte) : (s.withLastop v).pending = s.pending := rfl
@[simp] theorem withLastop_readData (v : Byte) : (s.withLastop v).readData = s.readData := rfl

/-! ### enterHung -/

@[simp] theorem enterHung_params : s.enterHung.params = s.params := rfl
@[simp] theorem enterHung_status : s.enterHung.status = { s.status with code := .hung, hung := true } := rfl
@[simp] theorem enterHung_hdr : s.enterHung.hdr = s.hdr := rfl
@[simp] theorem enterHung_result : s.enterHung.result = s.result := rfl
@[simp] theorem enterHung_crc : s.enterHung.crc = s.crc := rfl
@[simp] theorem enterHung_stream : s.enterHung.stream = s.stream := rfl
@[simp] theorem enterHung_frame : s.enterHung.frame = s.frame := rfl
@[simp] theorem enterHung_join : s.enterHung.join = s.join := rfl
@[simp] theorem enterHung_sf : s.enterHung.sf = s.sf := rfl
@[simp] theorem enterHung_bits : s.enterHung.bits = s.bits := rfl
@[simp] theorem enterHung_sb : s.enterHung.sb = s.sb := rfl
@[simp] theorem enterHung_pcm : s.enterHung.pcm = s.pcm := rfl
@[simp] theorem enterHung_hist : s.enterHung.hist = s.hist := rfl
@[simp] theorem enterHung_pending : s.enterHung.pending = s.pending := rfl
@[simp] theorem enterHung_readData : s.enterHung.readData = s.readData := rfl

/-! ### withHdr -/

@[simp] theorem withHdr_params (v : Word) : (s.withHdr v).params = s.params := rfl
@[simp] theorem withHdr_status (v : Word) : (s.withHdr v).status = s.status := rfl
@[simp] theorem withHdr_hdr (v : Word) : (s.withHdr v).hdr = v := rfl
@[simp] theorem withHdr_result (v : Word) : (s.withHdr v).result = s.result := rfl
@[simp] theorem withHdr_crc (v : Word) : (s.withHdr v).crc = s.crc := rfl
@[simp] theorem withHdr_stream (v : Word) : (s.withHdr v).stream = s.stream := rfl
@[simp] theorem withHdr_frame (v : Word) : (s.withHdr v).frame = s.frame := rfl
@[simp] theorem withHdr_join (v : Word) : (s.withHdr v).join = s.join := rfl
@[simp] theorem withHdr_sf (v : Word) : (s.withHdr v).sf = s.sf := rfl
@[simp] theorem withHdr_bits (v : Word) : (s.withHdr v).bits = s.bits := rfl
@[simp] theorem withHdr_sb (v : Word) : (s.withHdr v).sb = s.sb := rfl
@[simp] theorem withHdr_pcm (v : Word) : (s.withHdr v).pcm = s.pcm := rfl
@[simp] theorem withHdr_hist (v : Word) : (s.withHdr v).hist = s.hist := rfl
@[simp] theorem withHdr_pending (v : Word) : (s.withHdr v).pending = s.pending := rfl
@[simp] theorem withHdr_readData (v : Word) : (s.withHdr v).readData = s.readData := rfl

/-! ### withResult -/

@[simp] theorem withResult_params (v : Word) : (s.withResult v).params = s.params := rfl
@[simp] theorem withResult_status (v : Word) : (s.withResult v).status = s.status := rfl
@[simp] theorem withResult_hdr (v : Word) : (s.withResult v).hdr = s.hdr := rfl
@[simp] theorem withResult_result (v : Word) : (s.withResult v).result = v := rfl
@[simp] theorem withResult_crc (v : Word) : (s.withResult v).crc = s.crc := rfl
@[simp] theorem withResult_stream (v : Word) : (s.withResult v).stream = s.stream := rfl
@[simp] theorem withResult_frame (v : Word) : (s.withResult v).frame = s.frame := rfl
@[simp] theorem withResult_join (v : Word) : (s.withResult v).join = s.join := rfl
@[simp] theorem withResult_sf (v : Word) : (s.withResult v).sf = s.sf := rfl
@[simp] theorem withResult_bits (v : Word) : (s.withResult v).bits = s.bits := rfl
@[simp] theorem withResult_sb (v : Word) : (s.withResult v).sb = s.sb := rfl
@[simp] theorem withResult_pcm (v : Word) : (s.withResult v).pcm = s.pcm := rfl
@[simp] theorem withResult_hist (v : Word) : (s.withResult v).hist = s.hist := rfl
@[simp] theorem withResult_pending (v : Word) : (s.withResult v).pending = s.pending := rfl
@[simp] theorem withResult_readData (v : Word) : (s.withResult v).readData = s.readData := rfl

/-! ### withCrcAcc -/

@[simp] theorem withCrcAcc_params (v : Byte) : (s.withCrcAcc v).params = s.params := rfl
@[simp] theorem withCrcAcc_status (v : Byte) : (s.withCrcAcc v).status = s.status := rfl
@[simp] theorem withCrcAcc_hdr (v : Byte) : (s.withCrcAcc v).hdr = s.hdr := rfl
@[simp] theorem withCrcAcc_result (v : Byte) : (s.withCrcAcc v).result = s.result := rfl
@[simp] theorem withCrcAcc_crc (v : Byte) : (s.withCrcAcc v).crc = { s.crc with acc := v } := rfl
@[simp] theorem withCrcAcc_stream (v : Byte) : (s.withCrcAcc v).stream = s.stream := rfl
@[simp] theorem withCrcAcc_frame (v : Byte) : (s.withCrcAcc v).frame = s.frame := rfl
@[simp] theorem withCrcAcc_join (v : Byte) : (s.withCrcAcc v).join = s.join := rfl
@[simp] theorem withCrcAcc_sf (v : Byte) : (s.withCrcAcc v).sf = s.sf := rfl
@[simp] theorem withCrcAcc_bits (v : Byte) : (s.withCrcAcc v).bits = s.bits := rfl
@[simp] theorem withCrcAcc_sb (v : Byte) : (s.withCrcAcc v).sb = s.sb := rfl
@[simp] theorem withCrcAcc_pcm (v : Byte) : (s.withCrcAcc v).pcm = s.pcm := rfl
@[simp] theorem withCrcAcc_hist (v : Byte) : (s.withCrcAcc v).hist = s.hist := rfl
@[simp] theorem withCrcAcc_pending (v : Byte) : (s.withCrcAcc v).pending = s.pending := rfl
@[simp] theorem withCrcAcc_readData (v : Byte) : (s.withCrcAcc v).readData = s.readData := rfl

/-! ### withCrc -/

@[simp] theorem withCrc_params (v : CrcReg) : (s.withCrc v).params = s.params := rfl
@[simp] theorem withCrc_status (v : CrcReg) : (s.withCrc v).status = s.status := rfl
@[simp] theorem withCrc_hdr (v : CrcReg) : (s.withCrc v).hdr = s.hdr := rfl
@[simp] theorem withCrc_result (v : CrcReg) : (s.withCrc v).result = s.result := rfl
@[simp] theorem withCrc_crc (v : CrcReg) : (s.withCrc v).crc = v := rfl
@[simp] theorem withCrc_stream (v : CrcReg) : (s.withCrc v).stream = s.stream := rfl
@[simp] theorem withCrc_frame (v : CrcReg) : (s.withCrc v).frame = s.frame := rfl
@[simp] theorem withCrc_join (v : CrcReg) : (s.withCrc v).join = s.join := rfl
@[simp] theorem withCrc_sf (v : CrcReg) : (s.withCrc v).sf = s.sf := rfl
@[simp] theorem withCrc_bits (v : CrcReg) : (s.withCrc v).bits = s.bits := rfl
@[simp] theorem withCrc_sb (v : CrcReg) : (s.withCrc v).sb = s.sb := rfl
@[simp] theorem withCrc_pcm (v : CrcReg) : (s.withCrc v).pcm = s.pcm := rfl
@[simp] theorem withCrc_hist (v : CrcReg) : (s.withCrc v).hist = s.hist := rfl
@[simp] theorem withCrc_pending (v : CrcReg) : (s.withCrc v).pending = s.pending := rfl
@[simp] theorem withCrc_readData (v : CrcReg) : (s.withCrc v).readData = s.readData := rfl

/-! ### withStream -/

@[simp] theorem withStream_params (v : Stream) : (s.withStream v).params = s.params := rfl
@[simp] theorem withStream_status (v : Stream) : (s.withStream v).status = s.status := rfl
@[simp] theorem withStream_hdr (v : Stream) : (s.withStream v).hdr = s.hdr := rfl
@[simp] theorem withStream_result (v : Stream) : (s.withStream v).result = s.result := rfl
@[simp] theorem withStream_crc (v : Stream) : (s.withStream v).crc = s.crc := rfl
@[simp] theorem withStream_stream (v : Stream) : (s.withStream v).stream = v := rfl
@[simp] theorem withStream_frame (v : Stream) : (s.withStream v).frame = s.frame := rfl
@[simp] theorem withStream_join (v : Stream) : (s.withStream v).join = s.join := rfl
@[simp] theorem withStream_sf (v : Stream) : (s.withStream v).sf = s.sf := rfl
@[simp] theorem withStream_bits (v : Stream) : (s.withStream v).bits = s.bits := rfl
@[simp] theorem withStream_sb (v : Stream) : (s.withStream v).sb = s.sb := rfl
@[simp] theorem withStream_pcm (v : Stream) : (s.withStream v).pcm = s.pcm := rfl
@[simp] theorem withStream_hist (v : Stream) : (s.withStream v).hist = s.hist := rfl
@[simp] theorem withStream_pending (v : Stream) : (s.withStream v).pending = s.pending := rfl
@[simp] theorem withStream_readData (v : Stream) : (s.withStream v).readData = s.readData := rfl

/-! ### withFrame -/

@[simp] theorem withFrame_params (v : Frame) : (s.withFrame v).params = s.params := rfl
@[simp] theorem withFrame_status (v : Frame) : (s.withFrame v).status = s.status := rfl
@[simp] theorem withFrame_hdr (v : Frame) : (s.withFrame v).hdr = s.hdr := rfl
@[simp] theorem withFrame_result (v : Frame) : (s.withFrame v).result = s.result := rfl
@[simp] theorem withFrame_crc (v : Frame) : (s.withFrame v).crc = s.crc := rfl
@[simp] theorem withFrame_stream (v : Frame) : (s.withFrame v).stream = s.stream := rfl
@[simp] theorem withFrame_frame (v : Frame) : (s.withFrame v).frame = v := rfl
@[simp] theorem withFrame_join (v : Frame) : (s.withFrame v).join = s.join := rfl
@[simp] theorem withFrame_sf (v : Frame) : (s.withFrame v).sf = s.sf := rfl
@[simp] theorem withFrame_bits (v : Frame) : (s.withFrame v).bits = s.bits := rfl
@[simp] theorem withFrame_sb (v : Frame) : (s.withFrame v).sb = s.sb := rfl
@[simp] theorem withFrame_pcm (v : Frame) : (s.withFrame v).pcm = s.pcm := rfl
@[simp] theorem withFrame_hist (v : Frame) : (s.withFrame v).hist = s.hist := rfl
@[simp] theorem withFrame_pending (v : Frame) : (s.withFrame v).pending = s.pending := rfl
@[simp] theorem withFrame_readData (v : Frame) : (s.withFrame v).readData = s.readData := rfl

/-! ### withJoin -/

@[simp] theorem withJoin_params (v : BitVec 8) : (s.withJoin v).params = s.params := rfl
@[simp] theorem withJoin_status (v : BitVec 8) : (s.withJoin v).status = s.status := rfl
@[simp] theorem withJoin_hdr (v : BitVec 8) : (s.withJoin v).hdr = s.hdr := rfl
@[simp] theorem withJoin_result (v : BitVec 8) : (s.withJoin v).result = s.result := rfl
@[simp] theorem withJoin_crc (v : BitVec 8) : (s.withJoin v).crc = s.crc := rfl
@[simp] theorem withJoin_stream (v : BitVec 8) : (s.withJoin v).stream = s.stream := rfl
@[simp] theorem withJoin_frame (v : BitVec 8) : (s.withJoin v).frame = s.frame := rfl
@[simp] theorem withJoin_join (v : BitVec 8) : (s.withJoin v).join = v := rfl
@[simp] theorem withJoin_sf (v : BitVec 8) : (s.withJoin v).sf = s.sf := rfl
@[simp] theorem withJoin_bits (v : BitVec 8) : (s.withJoin v).bits = s.bits := rfl
@[simp] theorem withJoin_sb (v : BitVec 8) : (s.withJoin v).sb = s.sb := rfl
@[simp] theorem withJoin_pcm (v : BitVec 8) : (s.withJoin v).pcm = s.pcm := rfl
@[simp] theorem withJoin_hist (v : BitVec 8) : (s.withJoin v).hist = s.hist := rfl
@[simp] theorem withJoin_pending (v : BitVec 8) : (s.withJoin v).pending = s.pending := rfl
@[simp] theorem withJoin_readData (v : BitVec 8) : (s.withJoin v).readData = s.readData := rfl

/-! ### withSf -/

@[simp] theorem withSf_params (v : Mat (BitVec 4)) : (s.withSf v).params = s.params := rfl
@[simp] theorem withSf_status (v : Mat (BitVec 4)) : (s.withSf v).status = s.status := rfl
@[simp] theorem withSf_hdr (v : Mat (BitVec 4)) : (s.withSf v).hdr = s.hdr := rfl
@[simp] theorem withSf_result (v : Mat (BitVec 4)) : (s.withSf v).result = s.result := rfl
@[simp] theorem withSf_crc (v : Mat (BitVec 4)) : (s.withSf v).crc = s.crc := rfl
@[simp] theorem withSf_stream (v : Mat (BitVec 4)) : (s.withSf v).stream = s.stream := rfl
@[simp] theorem withSf_frame (v : Mat (BitVec 4)) : (s.withSf v).frame = s.frame := rfl
@[simp] theorem withSf_join (v : Mat (BitVec 4)) : (s.withSf v).join = s.join := rfl
@[simp] theorem withSf_sf (v : Mat (BitVec 4)) : (s.withSf v).sf = v := rfl
@[simp] theorem withSf_bits (v : Mat (BitVec 4)) : (s.withSf v).bits = s.bits := rfl
@[simp] theorem withSf_sb (v : Mat (BitVec 4)) : (s.withSf v).sb = s.sb := rfl
@[simp] theorem withSf_pcm (v : Mat (BitVec 4)) : (s.withSf v).pcm = s.pcm := rfl
@[simp] theorem withSf_hist (v : Mat (BitVec 4)) : (s.withSf v).hist = s.hist := rfl
@[simp] theorem withSf_pending (v : Mat (BitVec 4)) : (s.withSf v).pending = s.pending := rfl
@[simp] theorem withSf_readData (v : Mat (BitVec 4)) : (s.withSf v).readData = s.readData := rfl

/-! ### withBits -/

@[simp] theorem withBits_params (v : Mat (BitVec 5)) : (s.withBits v).params = s.params := rfl
@[simp] theorem withBits_status (v : Mat (BitVec 5)) : (s.withBits v).status = s.status := rfl
@[simp] theorem withBits_hdr (v : Mat (BitVec 5)) : (s.withBits v).hdr = s.hdr := rfl
@[simp] theorem withBits_result (v : Mat (BitVec 5)) : (s.withBits v).result = s.result := rfl
@[simp] theorem withBits_crc (v : Mat (BitVec 5)) : (s.withBits v).crc = s.crc := rfl
@[simp] theorem withBits_stream (v : Mat (BitVec 5)) : (s.withBits v).stream = s.stream := rfl
@[simp] theorem withBits_frame (v : Mat (BitVec 5)) : (s.withBits v).frame = s.frame := rfl
@[simp] theorem withBits_join (v : Mat (BitVec 5)) : (s.withBits v).join = s.join := rfl
@[simp] theorem withBits_sf (v : Mat (BitVec 5)) : (s.withBits v).sf = s.sf := rfl
@[simp] theorem withBits_bits (v : Mat (BitVec 5)) : (s.withBits v).bits = v := rfl
@[simp] theorem withBits_sb (v : Mat (BitVec 5)) : (s.withBits v).sb = s.sb := rfl
@[simp] theorem withBits_pcm (v : Mat (BitVec 5)) : (s.withBits v).pcm = s.pcm := rfl
@[simp] theorem withBits_hist (v : Mat (BitVec 5)) : (s.withBits v).hist = s.hist := rfl
@[simp] theorem withBits_pending (v : Mat (BitVec 5)) : (s.withBits v).pending = s.pending := rfl
@[simp] theorem withBits_readData (v : Mat (BitVec 5)) : (s.withBits v).readData = s.readData := rfl

/-! ### withSb -/

@[simp] theorem withSb_params (v : Mat Word) : (s.withSb v).params = s.params := rfl
@[simp] theorem withSb_status (v : Mat Word) : (s.withSb v).status = s.status := rfl
@[simp] theorem withSb_hdr (v : Mat Word) : (s.withSb v).hdr = s.hdr := rfl
@[simp] theorem withSb_result (v : Mat Word) : (s.withSb v).result = s.result := rfl
@[simp] theorem withSb_crc (v : Mat Word) : (s.withSb v).crc = s.crc := rfl
@[simp] theorem withSb_stream (v : Mat Word) : (s.withSb v).stream = s.stream := rfl
@[simp] theorem withSb_frame (v : Mat Word) : (s.withSb v).frame = s.frame := rfl
@[simp] theorem withSb_join (v : Mat Word) : (s.withSb v).join = s.join := rfl
@[simp] theorem withSb_sf (v : Mat Word) : (s.withSb v).sf = s.sf := rfl
@[simp] theorem withSb_bits (v : Mat Word) : (s.withSb v).bits = s.bits := rfl
@[simp] theorem withSb_sb (v : Mat Word) : (s.withSb v).sb = v := rfl
@[simp] theorem withSb_pcm (v : Mat Word) : (s.withSb v).pcm = s.pcm := rfl
@[simp] theorem withSb_hist (v : Mat Word) : (s.withSb v).hist = s.hist := rfl
@[simp] theorem withSb_pending (v : Mat Word) : (s.withSb v).pending = s.pending := rfl
@[simp] theorem withSb_readData (v : Mat Word) : (s.withSb v).readData = s.readData := rfl

/-! ### withPcm -/

@[simp] theorem withPcm_params (v : Mat (BitVec 16)) : (s.withPcm v).params = s.params := rfl
@[simp] theorem withPcm_status (v : Mat (BitVec 16)) : (s.withPcm v).status = s.status := rfl
@[simp] theorem withPcm_hdr (v : Mat (BitVec 16)) : (s.withPcm v).hdr = s.hdr := rfl
@[simp] theorem withPcm_result (v : Mat (BitVec 16)) : (s.withPcm v).result = s.result := rfl
@[simp] theorem withPcm_crc (v : Mat (BitVec 16)) : (s.withPcm v).crc = s.crc := rfl
@[simp] theorem withPcm_stream (v : Mat (BitVec 16)) : (s.withPcm v).stream = s.stream := rfl
@[simp] theorem withPcm_frame (v : Mat (BitVec 16)) : (s.withPcm v).frame = s.frame := rfl
@[simp] theorem withPcm_join (v : Mat (BitVec 16)) : (s.withPcm v).join = s.join := rfl
@[simp] theorem withPcm_sf (v : Mat (BitVec 16)) : (s.withPcm v).sf = s.sf := rfl
@[simp] theorem withPcm_bits (v : Mat (BitVec 16)) : (s.withPcm v).bits = s.bits := rfl
@[simp] theorem withPcm_sb (v : Mat (BitVec 16)) : (s.withPcm v).sb = s.sb := rfl
@[simp] theorem withPcm_pcm (v : Mat (BitVec 16)) : (s.withPcm v).pcm = v := rfl
@[simp] theorem withPcm_hist (v : Mat (BitVec 16)) : (s.withPcm v).hist = s.hist := rfl
@[simp] theorem withPcm_pending (v : Mat (BitVec 16)) : (s.withPcm v).pending = s.pending := rfl
@[simp] theorem withPcm_readData (v : Mat (BitVec 16)) : (s.withPcm v).readData = s.readData := rfl

/-! ### withHist -/

@[simp] theorem withHist_params (v : Mat (Vector Word 10)) : (s.withHist v).params = s.params := rfl
@[simp] theorem withHist_status (v : Mat (Vector Word 10)) : (s.withHist v).status = s.status := rfl
@[simp] theorem withHist_hdr (v : Mat (Vector Word 10)) : (s.withHist v).hdr = s.hdr := rfl
@[simp] theorem withHist_result (v : Mat (Vector Word 10)) : (s.withHist v).result = s.result := rfl
@[simp] theorem withHist_crc (v : Mat (Vector Word 10)) : (s.withHist v).crc = s.crc := rfl
@[simp] theorem withHist_stream (v : Mat (Vector Word 10)) : (s.withHist v).stream = s.stream := rfl
@[simp] theorem withHist_frame (v : Mat (Vector Word 10)) : (s.withHist v).frame = s.frame := rfl
@[simp] theorem withHist_join (v : Mat (Vector Word 10)) : (s.withHist v).join = s.join := rfl
@[simp] theorem withHist_sf (v : Mat (Vector Word 10)) : (s.withHist v).sf = s.sf := rfl
@[simp] theorem withHist_bits (v : Mat (Vector Word 10)) : (s.withHist v).bits = s.bits := rfl
@[simp] theorem withHist_sb (v : Mat (Vector Word 10)) : (s.withHist v).sb = s.sb := rfl
@[simp] theorem withHist_pcm (v : Mat (Vector Word 10)) : (s.withHist v).pcm = s.pcm := rfl
@[simp] theorem withHist_hist (v : Mat (Vector Word 10)) : (s.withHist v).hist = v := rfl
@[simp] theorem withHist_pending (v : Mat (Vector Word 10)) : (s.withHist v).pending = s.pending := rfl
@[simp] theorem withHist_readData (v : Mat (Vector Word 10)) : (s.withHist v).readData = s.readData := rfl

/-! ### withPending -/

@[simp] theorem withPending_params (v : List HostAction) : (s.withPending v).params = s.params := rfl
@[simp] theorem withPending_status (v : List HostAction) : (s.withPending v).status = s.status := rfl
@[simp] theorem withPending_hdr (v : List HostAction) : (s.withPending v).hdr = s.hdr := rfl
@[simp] theorem withPending_result (v : List HostAction) : (s.withPending v).result = s.result := rfl
@[simp] theorem withPending_crc (v : List HostAction) : (s.withPending v).crc = s.crc := rfl
@[simp] theorem withPending_stream (v : List HostAction) : (s.withPending v).stream = s.stream := rfl
@[simp] theorem withPending_frame (v : List HostAction) : (s.withPending v).frame = s.frame := rfl
@[simp] theorem withPending_join (v : List HostAction) : (s.withPending v).join = s.join := rfl
@[simp] theorem withPending_sf (v : List HostAction) : (s.withPending v).sf = s.sf := rfl
@[simp] theorem withPending_bits (v : List HostAction) : (s.withPending v).bits = s.bits := rfl
@[simp] theorem withPending_sb (v : List HostAction) : (s.withPending v).sb = s.sb := rfl
@[simp] theorem withPending_pcm (v : List HostAction) : (s.withPending v).pcm = s.pcm := rfl
@[simp] theorem withPending_hist (v : List HostAction) : (s.withPending v).hist = s.hist := rfl
@[simp] theorem withPending_pending (v : List HostAction) : (s.withPending v).pending = v := rfl
@[simp] theorem withPending_readData (v : List HostAction) : (s.withPending v).readData = s.readData := rfl

/-! ### withReadData -/

@[simp] theorem withReadData_params (v : Word) : (s.withReadData v).params = s.params := rfl
@[simp] theorem withReadData_status (v : Word) : (s.withReadData v).status = s.status := rfl
@[simp] theorem withReadData_hdr (v : Word) : (s.withReadData v).hdr = s.hdr := rfl
@[simp] theorem withReadData_result (v : Word) : (s.withReadData v).result = s.result := rfl
@[simp] theorem withReadData_crc (v : Word) : (s.withReadData v).crc = s.crc := rfl
@[simp] theorem withReadData_stream (v : Word) : (s.withReadData v).stream = s.stream := rfl
@[simp] theorem withReadData_frame (v : Word) : (s.withReadData v).frame = s.frame := rfl
@[simp] theorem withReadData_join (v : Word) : (s.withReadData v).join = s.join := rfl
@[simp] theorem withReadData_sf (v : Word) : (s.withReadData v).sf = s.sf := rfl
@[simp] theorem withReadData_bits (v : Word) : (s.withReadData v).bits = s.bits := rfl
@[simp] theorem withReadData_sb (v : Word) : (s.withReadData v).sb = s.sb := rfl
@[simp] theorem withReadData_pcm (v : Word) : (s.withReadData v).pcm = s.pcm := rfl
@[simp] theorem withReadData_hist (v : Word) : (s.withReadData v).hist = s.hist := rfl
@[simp] theorem withReadData_pending (v : Word) : (s.withReadData v).pending = s.pending := rfl
@[simp] theorem withReadData_readData (v : Word) : (s.withReadData v).readData = v := rfl

end Sys2Proof.Machine
end

