-- ==== Sys2Proof/Laws/Operands.lean ====
section
/-! SUPPORT. What the matrix operations do, cell by cell, and which cells the configuration has. -/

namespace Sys2Proof.Machine

variable {α : Type}

@[simp] theorem Mat.get_ofFn (f : Fin 2 → Fin 8 → α) (ch : Fin 2) (sb : Fin 8) :
    (Mat.ofFn f).get ch sb = f ch sb := by
  simp [Mat.get, Mat.ofFn]

/-- Two matrices with the same cells are the same. -/
theorem Mat.ext_get {m n : Mat α} (h : ∀ ch sb, m.get ch sb = n.get ch sb) : m = n := by
  apply Vector.ext
  intro i hi
  apply Vector.ext
  intro j hj
  exact h ⟨i, hi⟩ ⟨j, hj⟩

theorem Mat.get_set (m : Mat α) (ch c : Fin 2) (sb b : Fin 8) (a : α) :
    (m.set ch sb a).get c b = if ch = c ∧ sb = b then a else m.get c b := by
  unfold Mat.set Mat.get
  simp only [Fin.getElem_fin]
  by_cases h1 : ch = c
  · subst h1
    have row : (Vector.set m ↑ch (Vector.set m[ch.val] ↑sb a sb.isLt) ch.isLt)[ch.val] =
        Vector.set m[ch.val] ↑sb a sb.isLt := by
      simp
    rw [show (Vector.set m ↑ch (Vector.set m[ch.val] ↑sb a sb.isLt) ch.isLt)[ch.val][b.val] =
      (Vector.set m[ch.val] ↑sb a sb.isLt)[b.val] by simp only [row]]
    rw [Vector.getElem_set]
    simp [Fin.ext_iff]
  · have h2 : ch.val ≠ c.val := fun e => h1 (Fin.ext e)
    simp [h1, Vector.getElem_set_ne, h2]

@[simp] theorem Mat.get_set_self (m : Mat α) (ch : Fin 2) (sb : Fin 8) (a : α) :
    (m.set ch sb a).get ch sb = a := by
  simp [Mat.get_set]

/-- A cell that is not in the list keeps its value. -/
theorem writeCells_get_of_notMem (cs : List Cell) (as : List α) (m : Mat α) (ch : Fin 2) (sb : Fin 8)
    (h : (ch, sb) ∉ cs) : (writeCells cs as m).get ch sb = m.get ch sb := by
  induction cs generalizing as m with
  | nil => simp [writeCells]
  | cons c cs ih =>
    cases as with
    | nil => simp [writeCells]
    | cons a as =>
      simp only [List.mem_cons, not_or] at h
      rw [writeCells, ih as _ h.2, Mat.get_set]
      have : ¬(c.1 = ch ∧ c.2 = sb) := fun e => h.1 (by rw [← e.1, ← e.2])
      simp [this]

/-- The cell at position i of a list without repeats takes the value at position i. -/
theorem writeCells_get_of_getElem (cs : List Cell) (as : List α) (m : Mat α) (hnd : cs.Nodup)
    (i : Nat) (hi : i < cs.length) (hj : i < as.length) :
    (writeCells cs as m).get cs[i].1 cs[i].2 = as[i] := by
  induction cs generalizing as m i with
  | nil => simp at hi
  | cons c cs ih =>
    cases as with
    | nil => simp at hj
    | cons a as =>
      rw [List.nodup_cons] at hnd
      cases i with
      | zero =>
        simp only [List.getElem_cons_zero, writeCells]
        rw [writeCells_get_of_notMem _ _ _ _ _ hnd.1, Mat.get_set_self]
      | succ i =>
        simp only [List.getElem_cons_succ, writeCells]
        exact ih as _ hnd.2 i (by simpa using hi) (by simpa using hj)

/-- The cell at position i takes what f makes of it and of the value at position i. -/
theorem writeCells_zipWith_get (f : Cell → Nat → α) (cs : List Cell) (xs : List Nat) (m : Mat α)
    (hnd : cs.Nodup) (hlen : xs.length = cs.length) (i : Nat) (c : Cell) (hi : cs[i]? = some c) :
    (writeCells cs (List.zipWith f cs xs) m).get c.1 c.2 = f c (xs.getD i 0) := by
  obtain ⟨h1, rfl⟩ := List.getElem?_eq_some_iff.mp hi
  have h2 : i < xs.length := by omega
  rw [writeCells_get_of_getElem cs (List.zipWith f cs xs) m hnd i h1 (by simp; omega),
    List.getElem_zipWith, List.getD_eq_getElem?_getD, List.getElem?_eq_getElem h2, Option.getD_some]

/-- The cells of a shape, channel outer: the cell at position M·ch + sb is (ch, sb). -/
theorem cellsOf_nodup (ch : Channels) (sb : Subbands) : (cellsOf ch sb).Nodup := by
  cases ch <;> cases sb <;> decide

theorem mem_cellsOf (ch : Channels) (sb : Subbands) (c : Fin 2) (b : Fin 8) :
    (c, b) ∈ cellsOf ch sb ↔ c.val < ch.toNat ∧ b.val < sb.toNat := by
  revert c b
  cases ch <;> cases sb <;> decide

/-- The instance's cells are those of its configuration (R70). -/
theorem mem_cells (p : Params) (c : Fin 2) (b : Fin 8) :
    (c, b) ∈ cells p ↔ hasCell p c b = true := by
  simp [cells, mem_cellsOf, hasCell]

theorem cells_length (p : Params) : (cells p).length = p.ch.toNat * p.sb.toNat := by
  rcases p with ⟨ch, sb, _⟩
  cases ch <;> cases sb <;> rfl

theorem cellsOf_getElem? (ch : Channels) (sb : Subbands) (c : Fin 2) (b : Fin 8)
    (hc : c.val < ch.toNat) (hb : b.val < sb.toNat) :
    (cellsOf ch sb)[sb.toNat * c.val + b.val]? = some (c, b) := by
  revert c b
  cases ch <;> cases sb <;> decide

/-- Where the header fits the instance, its shape is the instance's (R406). -/
theorem fits_iff (p : Params) (info : HdrInfo) :
    fits p info = true ↔ impliedChannels info.chm = p.ch ∧ info.nsub = p.sb := by
  simp [fits]

end Sys2Proof.Machine
end

