-- ==== Sys2Proof/Laws/Allocation.lean ====
section
/-! SUPPORT. What the passes of the bit allocation keep: how many widths they give, that none exceeds 16,
which cells they write, and when an allocation does not end (R457 to R462). -/

namespace Sys2Proof.Machine

theorem initialWidth_le (bitslice b : Int) : initialWidth bitslice b ≤ 16 := by
  unfold initialWidth
  split <;> omega

theorem topUp1_length (budget : Nat) (bitslice : Int) (bc : Nat) (l : List (Int × Nat)) :
    (topUp1 budget bitslice bc l).1.length = l.length := by
  induction l generalizing bc with
  | nil => rfl
  | cons x l ih =>
    unfold topUp1
    split
    · simp
    · split
      · simp [ih]
      · split <;> simp [ih]

theorem topUp1_le (budget : Nat) (bitslice : Int) (bc : Nat) (l : List (Int × Nat))
    (h : ∀ x ∈ l, x.2 ≤ 16) : ∀ w ∈ (topUp1 budget bitslice bc l).1, w ≤ 16 := by
  induction l generalizing bc with
  | nil => simp [topUp1]
  | cons x l ih =>
    have hx := h x (by simp)
    have hl : ∀ y ∈ l, y.2 ≤ 16 := fun y hy => h y (by simp [hy])
    unfold topUp1
    split
    · intro w hw
      simp only [List.mem_cons, List.mem_map] at hw
      rcases hw with rfl | ⟨y, hy, rfl⟩
      · exact hx
      · exact hl y hy
    · split
      · intro w hw
        simp only [List.mem_cons] at hw
        rcases hw with rfl | hw
        · omega
        · exact ih _ hl w hw
      · split
        · intro w hw
          simp only [List.mem_cons] at hw
          rcases hw with rfl | hw
          · omega
          · exact ih _ hl w hw
        · intro w hw
          simp only [List.mem_cons] at hw
          rcases hw with rfl | hw
          · exact hx
          · exact ih _ hl w hw

theorem topUp2_length (budget bc : Nat) (ws : List Nat) :
    (topUp2 budget bc ws).length = ws.length := by
  induction ws generalizing bc with
  | nil => rfl
  | cons w ws ih =>
    unfold topUp2
    split
    · rfl
    · split <;> simp [ih]

theorem topUp2_le (budget bc : Nat) (ws : List Nat) (h : ∀ w ∈ ws, w ≤ 16) :
    ∀ w ∈ topUp2 budget bc ws, w ≤ 16 := by
  induction ws generalizing bc with
  | nil => simp [topUp2]
  | cons x ws ih =>
    have hl : ∀ y ∈ ws, y ≤ 16 := fun y hy => h y (by simp [hy])
    have hx := h x (by simp)
    unfold topUp2
    split
    · exact h
    · split
      · intro w hw
        simp only [List.mem_cons] at hw
        rcases hw with rfl | hw
        · omega
        · exact ih _ hl w hw
      · intro w hw
        simp only [List.mem_cons] at hw
        rcases hw with rfl | hw
        · exact hx
        · exact ih _ hl w hw

/-- The allocation of a scope: it does not end exactly when the budget is more than 16 for each cell
(R457); else it gives every cell one width of at most 16 (R462). -/
theorem allocScope_spec (budget : Nat) (bns : List Int) :
    (16 * bns.length < budget ∧ allocScope budget bns = none) ∨
    (budget ≤ 16 * bns.length ∧ ∃ ws, allocScope budget bns = some ws ∧ ws.length = bns.length ∧
      ∀ w ∈ ws, w ≤ 16) := by
  unfold allocScope
  by_cases h : 16 * bns.length < budget
  · exact .inl ⟨h, if_pos h⟩
  · refine .inr ⟨by omega, _, if_neg h, ?_, ?_⟩
    · simp only [topUps, topUp2_length, topUp1_length, List.length_map]
    · refine topUp2_le _ _ _ (topUp1_le _ _ _ _ ?_)
      intro x hx
      simp only [List.mem_map] at hx
      obtain ⟨b, -, rfl⟩ := hx
      exact initialWidth_le _ _

/-- Every scope of a header has N cells (R454, R457). -/
theorem scopes_length (info : HdrInfo) : ∀ l ∈ scopes info, l.length = scopeSize info := by
  rcases info with ⟨f, b, chm, alm, nsub, bp⟩
  cases chm <;> cases nsub <;> simp [scopes, scopeSize, impliedChannels, Channels.list, Subbands.list,
    Subbands.toNat]

theorem mem_scopes_shape (chm : ChannelMode) (nsub : Subbands) (ch : Fin 2) (sb : Fin 8) :
    (∃ l ∈ scopes { freq := 0, blocks := none, chm := chm, alm := .snr, nsub := nsub, bitpool := 0 },
      (ch, sb) ∈ l) ↔ (ch, sb) ∈ cellsOf (impliedChannels chm) nsub := by
  revert ch sb
  cases chm <;> cases nsub <;> decide

/-- The cells of a header's scopes are the cells of its shape (R454). -/
theorem mem_scopes (info : HdrInfo) (c : Cell) :
    (∃ l ∈ scopes info, c ∈ l) ↔ c ∈ cellsOf (impliedChannels info.chm) info.nsub :=
  mem_scopes_shape info.chm info.nsub c.1 c.2

theorem writeCells_bits_le (cs : List Cell) (ws : List Nat) (m : Mat (BitVec 5))
    (hw : ∀ w ∈ ws, w ≤ 16) (hm : ∀ ch sb, (m.get ch sb).toNat ≤ 16) :
    ∀ ch sb, ((writeCells cs (ws.map (BitVec.ofNat 5)) m).get ch sb).toNat ≤ 16 := by
  induction cs generalizing ws m with
  | nil => simpa [writeCells] using hm
  | cons c cs ih =>
    cases ws with
    | nil => simpa [writeCells] using hm
    | cons w ws =>
      simp only [List.map_cons, writeCells]
      refine ih ws _ (fun x hx => hw x (by simp [hx])) ?_
      intro ch sb
      rw [Mat.get_set]
      split
      · have := hw w (by simp)
        simp
        omega
      · exact hm ch sb

theorem allocScopes_spec (p : Params) (info : HdrInfo) (sf : Mat (BitVec 4)) (ls : List (List Cell))
    (w : Mat (BitVec 5)) (n : Nat) (hls : ∀ l ∈ ls, l.length = n) (hne : ls ≠ []) :
    (16 * n < info.bitpool.toNat ∧ allocScopes p info sf ls w = none) ∨
    (info.bitpool.toNat ≤ 16 * n ∧ ∃ w', allocScopes p info sf ls w = some w' ∧
      (∀ ch sb, (∀ l ∈ ls, (ch, sb) ∉ l) → w'.get ch sb = w.get ch sb) ∧
      ((∀ ch sb, (w.get ch sb).toNat ≤ 16) → ∀ ch sb, (w'.get ch sb).toNat ≤ 16)) := by
  induction ls generalizing w with
  | nil => exact absurd rfl hne
  | cons l ls ih =>
    have hl := hls l (by simp)
    rcases allocScope_spec info.bitpool.toNat (l.map fun c => bitneed p info (sf.get c.1 c.2) c.2) with
      ⟨h1, h2⟩ | ⟨h1, ws, h2, -, hle⟩
    · rw [List.length_map, hl] at h1
      exact .inl ⟨h1, by rw [allocScopes, h2]⟩
    · rw [List.length_map, hl] at h1
      by_cases hnil : ls = []
      · subst hnil
        refine .inr ⟨h1, _, by rw [allocScopes, h2]; rfl, ?_, ?_⟩
        · intro ch sb h
          exact writeCells_get_of_notMem _ _ _ _ _ (h l (by simp))
        · intro hw
          exact writeCells_bits_le _ _ _ hle hw
      · rcases ih (writeCells l (ws.map (BitVec.ofNat 5)) w) (fun x hx => hls x (by simp [hx])) hnil
          with ⟨h3, h4⟩ | ⟨h3, w', h4, h5, h6⟩
        · omega
        · refine .inr ⟨h1, w', by rw [allocScopes, h2]; exact h4, ?_, ?_⟩
          · intro ch sb h
            rw [h5 ch sb fun x hx => h x (by simp [hx])]
            exact writeCells_get_of_notMem _ _ _ _ _ (h l (by simp))
          · intro hw
            exact h6 (writeCells_bits_le _ _ _ hle hw)

/-- An allocation does not end exactly when the bitpool exceeds 16 for each cell of a scope (R457); else
it writes only the cells of the header's shape, each at most 16 (R462). -/
theorem allocate_spec (p : Params) (info : HdrInfo) (sf : Mat (BitVec 4)) (w : Mat (BitVec 5)) :
    (16 * scopeSize info < info.bitpool.toNat ∧ allocate p info sf w = none) ∨
    (info.bitpool.toNat ≤ 16 * scopeSize info ∧ ∃ w', allocate p info sf w = some w' ∧
      (∀ ch sb, (ch, sb) ∉ cellsOf (impliedChannels info.chm) info.nsub →
        w'.get ch sb = w.get ch sb) ∧
      ((∀ ch sb, (w.get ch sb).toNat ≤ 16) → ∀ ch sb, (w'.get ch sb).toNat ≤ 16)) := by
  have hne : scopes info ≠ [] := by
    rcases info with ⟨f, b, chm, alm, nsub, bp⟩
    cases chm <;> simp [scopes, impliedChannels, Channels.list]
  rcases allocScopes_spec p info sf (scopes info) w (scopeSize info) (scopes_length info) hne with
    h | ⟨h1, w', h2, h3, h4⟩
  · exact .inl h
  · refine .inr ⟨h1, w', h2, ?_, h4⟩
    intro ch sb hn
    refine h3 ch sb ?_
    intro l hl hmem
    exact hn ((mem_scopes info (ch, sb)).mp ⟨l, hl, hmem⟩)

end Sys2Proof.Machine
end

