-- ==== Sys2Proof/Laws/BitReader.lean ====
section
/-! SUPPORT. The bit reader in closed form: what `bitRead` and `readFields` return and where they leave the
stream, in terms of the bits still pending (R154, R301, R305). -/

namespace Sys2Proof.Machine

/-! ### Bit sequences and the numbers they stand for -/

@[simp] theorem bitsMsb_length (n v : Nat) : (bitsMsb n v).length = n := by
  induction n with
  | zero => rfl
  | succ n ih => simp [bitsMsb, ih]

theorem bitsMsb_add (a b v : Nat) : bitsMsb (a + b) v = bitsMsb a (v / 2 ^ b) ++ bitsMsb b v := by
  induction a with
  | zero => simp [bitsMsb]
  | succ a ih =>
    rw [show a + 1 + b = a + b + 1 by omega, bitsMsb, bitsMsb, ih, Nat.testBit_div_two_pow]
    simp

theorem bitsMsb_take (n k v : Nat) (h : k ≤ n) :
    (bitsMsb n v).take k = bitsMsb k (v / 2 ^ (n - k)) := by
  obtain ⟨m, rfl⟩ := Nat.exists_eq_add_of_le h
  rw [bitsMsb_add, Nat.add_sub_cancel_left]
  exact List.take_left' (bitsMsb_length _ _)

theorem bitsMsb_drop (n k v : Nat) (h : k ≤ n) : (bitsMsb n v).drop k = bitsMsb (n - k) v := by
  obtain ⟨m, rfl⟩ := Nat.exists_eq_add_of_le h
  rw [bitsMsb_add, Nat.add_sub_cancel_left]
  exact List.drop_left' (bitsMsb_length _ _)

theorem valueOf_foldl (bits : List Bool) (v : Nat) :
    bits.foldl (fun v b => 2 * v + b.toNat) v = v * 2 ^ bits.length + valueOf bits := by
  induction bits generalizing v with
  | nil => simp [valueOf]
  | cons b bs ih =>
    have h1 := ih (2 * v + b.toNat)
    have h2 := ih (2 * 0 + b.toNat)
    rw [valueOf] at *
    rw [List.foldl_cons, List.foldl_cons, h1, h2, List.length_cons, pow_succ]
    ring

@[simp] theorem valueOf_nil : valueOf [] = 0 := rfl

theorem valueOf_append (a b : List Bool) :
    valueOf (a ++ b) = valueOf a * 2 ^ b.length + valueOf b := by
  rw [valueOf, List.foldl_append, valueOf_foldl]
  rfl

theorem valueOf_cons (b : Bool) (bs : List Bool) :
    valueOf (b :: bs) = b.toNat * 2 ^ bs.length + valueOf bs := by
  have h := valueOf_append [b] bs
  simpa [valueOf] using h

theorem valueOf_lt (bits : List Bool) : valueOf bits < 2 ^ bits.length := by
  induction bits with
  | nil => simp
  | cons b bs ih =>
    rw [valueOf_cons, List.length_cons, pow_succ]
    cases b <;> simp <;> omega

/-- The bits of a number, read back (R17). -/
theorem valueOf_bitsMsb (n v : Nat) : valueOf (bitsMsb n v) = v % 2 ^ n := by
  induction n with
  | zero => simp [bitsMsb, Nat.mod_one]
  | succ n ih =>
    rw [bitsMsb, valueOf_cons, bitsMsb_length, ih, Nat.mod_pow_succ, Nat.toNat_testBit]
    ring

/-! ### The position -/

@[simp] theorem byteBits_length (b : Byte) : (byteBits b).length = 8 := bitsMsb_length _ _

theorem flatMap_byteBits_length (q : List Byte) : (q.flatMap byteBits).length = 8 * q.length := by
  induction q with
  | nil => rfl
  | cons b q ih =>
    rw [List.flatMap_cons, List.length_append, ih, byteBits_length, List.length_cons]
    omega

theorem pendingBits_length (st : Stream) : st.pendingBits.length = st.avail := by
  rw [Stream.pendingBits, List.length_append, bitsMsb_length, flatMap_byteBits_length]
  rfl

@[simp] theorem advance_zero (st : Stream) : st.advance 0 = st := by
  cases st
  simp [Stream.advance, Stream.fetches]

theorem advance_rem_le (st : Stream) (n : Nat) (h : st.rem ≤ 7) : (st.advance n).rem ≤ 7 := by
  simp only [Stream.advance, Stream.fetches]
  omega

/-- Reading a bits and then b bits leaves the position that reading a + b bits does. -/
theorem advance_advance (st : Stream) (a b : Nat) :
    (st.advance a).advance b = st.advance (a + b) := by
  have hf : st.fetches a + (st.advance a).fetches b = st.fetches (a + b) := by
    simp only [Stream.advance, Stream.fetches]
    omega
  have hr : (st.advance a).rem + 8 * (st.advance a).fetches b - b =
      st.rem + 8 * st.fetches (a + b) - (a + b) := by
    simp only [Stream.advance, Stream.fetches]
    omega
  have hb : (if (st.advance a).fetches b = 0 then (st.advance a).buf
      else (st.advance a).src.getD ((st.advance a).fetches b - 1) 0) =
      if st.fetches (a + b) = 0 then st.buf else st.src.getD (st.fetches (a + b) - 1) 0 := by
    rw [← hf]
    by_cases h0 : (st.advance a).fetches b = 0
    · simp only [h0, if_true, Nat.add_zero]
      rfl
    · have h1 : ¬(st.fetches a + (st.advance a).fetches b = 0) := by omega
      simp only [h0, h1, if_false]
      rw [show (st.advance a).src = st.src.drop (st.fetches a) from rfl, List.getD_eq_getElem?_getD,
        List.getElem?_drop, List.getD_eq_getElem?_getD]
      congr 2
      omega
  have hs : (st.advance a).src.drop ((st.advance a).fetches b) =
      st.src.drop (st.fetches (a + b)) := by
    rw [← hf, show (st.advance a).src = st.src.drop (st.fetches a) from rfl, List.drop_drop]
  exact Stream.mk.injEq .. ▸ ⟨hb, hr, hs⟩

theorem advance_avail (st : Stream) (n : Nat) (h : n ≤ st.avail) :
    (st.advance n).avail = st.avail - n := by
  simp only [Stream.avail, Stream.advance, Stream.fetches, List.length_drop] at *
  omega

/-- An underflow ends at the same position whatever was read before it. -/
theorem advance_drained (st : Stream) (n : Nat) (h : n ≤ st.avail) :
    (st.advance n).drained = st.drained := by
  have hle : st.fetches n ≤ st.src.length := by
    simp only [Stream.avail, Stream.fetches] at *
    omega
  have hb : (st.src.drop (st.fetches n)).getLastD (st.advance n).buf = st.src.getLastD st.buf := by
    by_cases h0 : st.fetches n = 0
    · simp [h0, Stream.advance]
    · rw [List.getLastD_eq_getLast?, List.getLastD_eq_getLast?, List.getLast?_drop]
      by_cases h1 : st.src.length ≤ st.fetches n
      · have hlast : st.src.length - 1 = st.fetches n - 1 := by omega
        have hlt : st.fetches n - 1 < st.src.length := by omega
        simp [h1, Stream.advance, h0, List.getLast?_eq_getElem?, hlast, List.getElem?_eq_getElem hlt]
      · have hne : st.src ≠ [] := by
          intro e
          simp [e] at h1
        simp [h1, List.getLast?_eq_some_getLast hne]
  exact Stream.mk.injEq .. ▸ ⟨hb, rfl, rfl⟩

/-- The fetch of R301 changes neither the pending bits nor where a read of one bit or more ends. -/
theorem fill_spec (st : Stream) :
    (st.fill = none ∧ st.avail = 0 ∧ st.drained = st) ∨
    ∃ st', st.fill = some st' ∧ 0 < st'.rem ∧ (st.rem ≤ 8 → st'.rem ≤ 8) ∧
      st'.pendingBits = st.pendingBits ∧ st'.avail = st.avail ∧ st'.drained = st.drained ∧
      ∀ n, 0 < n → st'.advance n = st.advance n := by
  rcases st with ⟨buf, rem, src⟩
  by_cases h : rem = 0
  · subst h
    cases src with
    | nil => exact .inl ⟨rfl, rfl, rfl⟩
    | cons b q =>
      refine .inr ⟨⟨b, 8, q⟩, rfl, by simp, by simp, ?_, ?_, ?_, ?_⟩
      · simp [Stream.pendingBits, byteBits, bitsMsb]
      · simp [Stream.avail]
        omega
      · simp only [Stream.drained, List.getLastD_cons]
      · intro n hn
        have hf : Stream.fetches ⟨buf, 0, b :: q⟩ n = Stream.fetches ⟨b, 8, q⟩ n + 1 := by
          simp only [Stream.fetches]
          omega
        simp only [Stream.advance, hf, Stream.mk.injEq]
        refine ⟨?_, by omega, by simp⟩
        by_cases h0 : Stream.fetches ⟨b, 8, q⟩ n = 0
        · simp [h0]
        · obtain ⟨m, hm⟩ := Nat.exists_eq_succ_of_ne_zero h0
          simp [hm]
  · refine .inr ⟨⟨buf, rem, src⟩, ?_, by simp; omega, id, rfl, rfl, rfl, fun _ _ => rfl⟩
    simp [Stream.fill, h]

/-! ### BitRead -/

theorem bitReadLoop_spec (fuel need v : Nat) (st : Stream) (hf : need ≤ fuel) (hr : st.rem ≤ 8) :
    bitReadLoop fuel need v st =
      if need ≤ st.avail then
        (some (v * 2 ^ need + valueOf (st.pendingBits.take need)), st.advance need)
      else (none, st.drained) := by
  induction fuel generalizing need v st with
  | zero =>
    obtain rfl : need = 0 := by omega
    simp [bitReadLoop]
  | succ fuel ih =>
    cases need with
    | zero => simp [bitReadLoop]
    | succ need =>
      rw [bitReadLoop]
      rcases fill_spec st with ⟨h1, h2, h3⟩ | ⟨st', h1, hpos, hr', hbits, havail, hdr, hadv⟩
      · simp [h1, h2, h3]
      · simp only [h1]
        have hr8 := hr' hr
        rw [ih _ _ _ (by omega) (by simp; omega)]
        have hlen : st'.avail = st'.rem + 8 * st'.src.length := rfl
        have htop : ∀ k ≤ st'.rem, st'.top k = valueOf ((bitsMsb st'.rem st'.buf.toNat).take k) := by
          intro k hk
          rw [bitsMsb_take _ _ _ hk, valueOf_bitsMsb]
          rfl
        by_cases hc : need + 1 ≤ st'.rem
        · have hm : min (need + 1) st'.rem = need + 1 := by omega
          have hle : need + 1 ≤ st.avail := by omega
          simp only [hm, Nat.sub_self, Nat.zero_le, if_true, hle, List.take_zero, valueOf_nil,
            pow_zero, Nat.mul_one, Nat.add_zero, advance_zero, Prod.mk.injEq, Option.some.injEq]
          refine ⟨?_, ?_⟩
          · rw [htop _ hc, ← hbits, Stream.pendingBits,
              List.take_append_of_le_length (by simpa using hc)]
          · rw [← hadv _ (by omega)]
            have hf0 : st'.fetches (need + 1) = 0 := by
              simp only [Stream.fetches]
              omega
            simp [Stream.advance, hf0]
        · have hm : min (need + 1) st'.rem = st'.rem := by omega
          have hstep : ({ st' with rem := st'.rem - st'.rem } : Stream) = st'.advance st'.rem := by
            have hf0 : st'.fetches st'.rem = 0 := by simp [Stream.fetches]
            simp [Stream.advance, hf0]
          simp only [hm, hstep]
          rw [advance_avail _ _ (by omega), advance_drained _ _ (by omega), advance_advance, hdr,
            show st'.rem + (need + 1 - st'.rem) = need + 1 by omega,
            hadv (need + 1) (by omega), havail]
          by_cases hle : need + 1 ≤ st.avail
          · have hle' : need + 1 - st'.rem ≤ st.avail - st'.rem := by omega
            simp only [hle, hle', if_true, Prod.mk.injEq, Option.some.injEq, and_true]
            have hsplit : st.pendingBits.take (need + 1) =
                bitsMsb st'.rem st'.buf.toNat ++
                  (st'.src.flatMap byteBits).take (need + 1 - st'.rem) := by
              rw [← hbits, Stream.pendingBits, List.take_append, bitsMsb_length,
                List.take_of_length_le (by simp; omega)]
            have hrest : (st'.advance st'.rem).pendingBits = st'.src.flatMap byteBits := by
              rw [← hstep]
              simp [Stream.pendingBits, bitsMsb]
            rw [hsplit, hrest, valueOf_append, htop _ (Nat.le_refl _),
              List.take_of_length_le (by simp)]
            have hl : ((st'.src.flatMap byteBits).take (need + 1 - st'.rem)).length =
                need + 1 - st'.rem := by
              rw [List.length_take, flatMap_byteBits_length]
              omega
            rw [hl]
            have hp : 2 ^ (need + 1) = 2 ^ st'.rem * 2 ^ (need + 1 - st'.rem) := by
              rw [← pow_add]
              congr 1
              omega
            rw [hp]
            ring
          · have hle' : ¬(need + 1 - st'.rem ≤ st.avail - st'.rem) := by omega
            simp [hle, hle']

/-- BitRead in closed form (R301): the next n bits as a number and the position after them, or
Underflow with every byte taken. -/
theorem bitRead_spec (n : Nat) (st : Stream) (hr : st.rem ≤ 7) :
    bitRead n st =
      if n ≤ st.avail then (some (valueOf (st.pendingBits.take n)), st.advance n)
      else (none, st.drained) := by
  rw [bitRead, bitReadLoop_spec n n 0 st (Nat.le_refl _) (by omega)]
  simp

/-- The bits pending after a read are those after the ones it took (R305). -/
theorem advance_pendingBits (st : Stream) (n : Nat) (h : n ≤ st.avail) :
    (st.advance n).pendingBits = st.pendingBits.drop n := by
  have hsrc : ∀ (q : List Byte) (k : Nat), (q.drop k).flatMap byteBits =
      (q.flatMap byteBits).drop (8 * k) := by
    intro q
    induction q with
    | nil => simp
    | cons b q ih =>
      intro k
      cases k with
      | zero => simp
      | succ k =>
        have h8 : (byteBits b).drop (8 * (k + 1)) = [] :=
          List.drop_of_length_le (by rw [byteBits_length]; omega)
        rw [List.drop_succ_cons, ih, List.flatMap_cons, List.drop_append, byteBits_length, h8,
          List.nil_append]
        congr 1
  by_cases h0 : st.fetches n = 0
  · have hn : n ≤ st.rem := by
      simp only [Stream.fetches] at h0
      omega
    simp only [Stream.pendingBits, Stream.advance, h0, if_true, Nat.mul_zero, Nat.add_zero,
      List.drop_zero]
    rw [List.drop_append_of_le_length (by simpa using hn), bitsMsb_drop _ _ _ hn]
  · have hn : st.rem < n := by
      simp only [Stream.fetches] at h0
      omega
    have hk : st.fetches n ≤ st.src.length := by
      simp only [Stream.fetches, Stream.avail] at *
      omega
    obtain ⟨k, hk1⟩ := Nat.exists_eq_succ_of_ne_zero h0
    have hlt : k < st.src.length := by omega
    have hrem : st.rem + 8 * (k + 1) - n = 8 - (n - st.rem - 8 * k) := by
      simp only [Stream.fetches] at hk1
      omega
    have hpart : n - st.rem - 8 * k ≤ 8 := by
      simp only [Stream.fetches] at hk1
      omega
    have hge : 8 * k ≤ n - st.rem := by
      simp only [Stream.fetches] at hk1
      omega
    simp only [Stream.pendingBits, Stream.advance, hk1, Nat.succ_eq_add_one, Nat.add_one_ne_zero,
      if_false, Nat.add_sub_cancel, hrem]
    have hskip : (bitsMsb st.rem st.buf.toNat ++ st.src.flatMap byteBits).drop n =
        (st.src.flatMap byteBits).drop (n - st.rem) := by
      rw [List.drop_append, bitsMsb_length, List.drop_of_length_le (by rw [bitsMsb_length]; omega),
        List.nil_append]
    have hsplit : (st.src.flatMap byteBits).drop (n - st.rem) =
        ((st.src.drop k).flatMap byteBits).drop (n - st.rem - 8 * k) := by
      rw [hsrc, List.drop_drop]
      congr 1
      omega
    rw [hskip, hsplit, ← bitsMsb_drop 8 _ _ hpart, List.drop_eq_getElem_cons hlt,
      List.flatMap_cons, List.drop_append_of_le_length (by rw [byteBits_length]; exact hpart)]
    simp [byteBits, List.getD_eq_getElem?_getD, List.getElem?_eq_getElem hlt]

/-! ### Fields one after another -/

/-- A list of fields in closed form: their values cut off the pending bits, or Underflow. -/
theorem readFields_spec (ws : List Nat) (st : Stream) (hr : st.rem ≤ 7) :
    readFields ws st =
      if ws.sum ≤ st.avail then (some (fieldsOf ws st.pendingBits), st.advance ws.sum)
      else (none, st.drained) := by
  induction ws generalizing st with
  | nil => simp [readFields, fieldsOf]
  | cons w ws ih =>
    rw [readFields, bitRead_spec w st hr, List.sum_cons]
    by_cases hw : w ≤ st.avail
    · simp only [hw, if_true]
      rw [ih _ (advance_rem_le _ _ hr), advance_avail _ _ hw, advance_drained _ _ hw,
        advance_advance, advance_pendingBits _ _ hw]
      by_cases hs : w + ws.sum ≤ st.avail
      · have hs' : ws.sum ≤ st.avail - w := by omega
        simp only [hs, hs', if_true, fieldsOf]
      · have hs' : ¬(ws.sum ≤ st.avail - w) := by omega
        simp only [hs, hs', if_false]
    · have hs : ¬(w + ws.sum ≤ st.avail) := by omega
      simp only [hw, hs, if_false]

@[simp] theorem fieldsOf_length (ws : List Nat) (bits : List Bool) :
    (fieldsOf ws bits).length = ws.length := by
  induction ws generalizing bits with
  | nil => rfl
  | cons w ws ih => simp [fieldsOf, ih]

theorem fieldsOf_append (a b : List Nat) (bits : List Bool) :
    fieldsOf (a ++ b) bits = fieldsOf a bits ++ fieldsOf b (bits.drop a.sum) := by
  induction a generalizing bits with
  | nil => simp [fieldsOf]
  | cons w a ih => simp [fieldsOf, ih, List.drop_drop]

end Sys2Proof.Machine
end

