-- ==== Sys2Proof/Laws/Commands.lean ====
section
/-! SUPPORT. One lemma for each operation that several commands share: everything it can do. -/

namespace Sys2Proof.Machine

/-- The end of a command changes STATUS.CODE alone (R701). -/
theorem finish_next {c : StatusCode} {s t : State} (h : finish c s = .next t) : t = s.withCode c := by
  cases h
  rfl

/-- Three bytes from the source, or an empty queue (R154, R403). -/
theorem srcRead3_spec (q : List Byte) :
    (∃ b0 b1 b2 r, q = b0 :: b1 :: b2 :: r ∧ srcRead3 q = (some (b0, b1, b2), r)) ∨
    (q.length < 3 ∧ srcRead3 q = (none, [])) := by
  match q with
  | [] => exact .inr ⟨by simp, rfl⟩
  | [_] => exact .inr ⟨by simp, rfl⟩
  | [_, _] => exact .inr ⟨by simp, rfl⟩
  | b0 :: b1 :: b2 :: r => exact .inl ⟨b0, b1, b2, r, rfl, rfl⟩

/-- The read commands in closed form (R303, R304). -/
theorem readToResult_spec (max : Nat) (n : Byte) (s : State) (hr : s.stream.rem ≤ 7) :
    readToResult max n s =
      if max < n.toNat then finish .badCommand s
      else if n.toNat ≤ s.stream.avail then
        finish .ok ((s.withStream (s.stream.advance n.toNat)).withResult
          (BitVec.ofNat 32 (valueOf (s.stream.pendingBits.take n.toNat))))
      else finish .underflow (s.withStream s.stream.drained) := by
  unfold readToResult
  split
  · rfl
  · rw [bitRead_spec _ _ hr]
    by_cases h : n.toNat ≤ s.stream.avail <;> simp only [h, if_true, if_false]

/-- Reconstruction in closed form (R502). -/
theorem recon_spec (s : State) (hr : s.stream.rem ≤ 7) :
    recon s =
      if blockBits s ≤ s.stream.avail then
        (true, (s.withStream (s.stream.advance (blockBits s))).withSb
          (reconMat s (fieldsOf (codewordWidths s) s.stream.pendingBits)))
      else (false, s.withStream s.stream.drained) := by
  unfold recon
  rw [readFields_spec _ _ hr]
  by_cases h : blockBits s ≤ s.stream.avail
  · have h' : (codewordWidths s).sum ≤ s.stream.avail := h
    simp only [h, h', if_true]
    rfl
  · have h' : ¬((codewordWidths s).sum ≤ s.stream.avail) := h
    simp only [h, h', if_false]

/-- What a frame start makes of a bit sequence (R601). -/
def frameFieldsOf (withCrc : Bool) (info : HdrInfo) (bits : List Bool) : FrameFields where
  rx := if withCrc then some (valueOf (bits.take 8)) else none
  joint := fieldsOf (jointWidths info) (bits.drop (if withCrc then 8 else 0))
  sf := fieldsOf (sfWidths info) (bits.drop ((if withCrc then 8 else 0) + (jointWidths info).sum))

/-- The reads of a frame start in closed form (R601). -/
theorem readFrameFields_spec (withCrc : Bool) (info : HdrInfo) (st : Stream) (hr : st.rem ≤ 7) :
    readFrameFields withCrc info st =
      if frameStartBits withCrc info ≤ st.avail then
        (some (frameFieldsOf withCrc info st.pendingBits), st.advance (frameStartBits withCrc info))
      else (none, st.drained) := by
  have hrest : ∀ (st : Stream) (rx : Option Nat), st.rem ≤ 7 →
      (match readFields (jointWidths info) st with
        | (none, st2) => ((none, st2) : Option FrameFields × Stream)
        | (some j, st2) =>
          match readFields (sfWidths info) st2 with
          | (none, st3) => (none, st3)
          | (some sf, st3) => (some { rx := rx, joint := j, sf := sf }, st3)) =
      if (jointWidths info).sum + (sfWidths info).sum ≤ st.avail then
        (some { rx := rx, joint := fieldsOf (jointWidths info) st.pendingBits,
                sf := fieldsOf (sfWidths info) (st.pendingBits.drop (jointWidths info).sum) },
          st.advance ((jointWidths info).sum + (sfWidths info).sum))
      else (none, st.drained) := by
    intro st rx hr
    rw [readFields_spec _ _ hr]
    by_cases h1 : (jointWidths info).sum ≤ st.avail
    · simp only [h1, if_true]
      rw [readFields_spec _ _ (advance_rem_le _ _ hr), advance_avail _ _ h1,
        advance_drained _ _ h1, advance_advance, advance_pendingBits _ _ h1]
      by_cases h2 : (jointWidths info).sum + (sfWidths info).sum ≤ st.avail
      · have h2' : (sfWidths info).sum ≤ st.avail - (jointWidths info).sum := by omega
        simp only [h2, h2', if_true]
      · have h2' : ¬((sfWidths info).sum ≤ st.avail - (jointWidths info).sum) := by omega
        simp only [h2, h2', if_false]
    · have h2 : ¬((jointWidths info).sum + (sfWidths info).sum ≤ st.avail) := by omega
      simp only [h1, h2, if_false]
  unfold readFrameFields readRx frameStartBits frameFieldsOf
  cases withCrc with
  | false =>
    simp only [Bool.false_eq_true, if_false, Nat.zero_add, List.drop_zero]
    exact hrest st none hr
  | true =>
    simp only [if_true]
    rw [bitRead_spec 8 st hr]
    by_cases h1 : 8 ≤ st.avail
    · simp only [h1, if_true]
      refine (hrest (st.advance 8) (some (valueOf (st.pendingBits.take 8)))
        (advance_rem_le _ _ hr)).trans ?_
      rw [advance_avail _ _ h1, advance_drained _ _ h1, advance_advance,
        advance_pendingBits _ _ h1, List.drop_drop, ← Nat.add_assoc]
      by_cases h2 : 8 + (jointWidths info).sum + (sfWidths info).sum ≤ st.avail
      · have h2' : (jointWidths info).sum + (sfWidths info).sum ≤ st.avail - 8 := by omega
        simp only [h2, h2', if_true]
      · have h2' : ¬((jointWidths info).sum + (sfWidths info).sum ≤ st.avail - 8) := by omega
        simp only [h2, h2', if_false]
    · have h2 : ¬(8 + (jointWidths info).sum + (sfWidths info).sum ≤ st.avail) := by omega
      simp only [h1, h2, if_false]

/-- A new bit reader has the source's bytes pending, from a byte boundary (R601). -/
theorem emptied_avail (st : Stream) : st.emptied.avail = 8 * st.src.length := by
  simp [Stream.emptied, Stream.avail]

theorem emptied_pendingBits (st : Stream) : st.emptied.pendingBits = st.src.flatMap byteBits := by
  simp [Stream.emptied, Stream.pendingBits, bitsMsb]

/-- Cell by cell, what reconstruction leaves in SB (R502, R503, R70). -/
theorem reconMat_get (s : State) (cs : List Nat) (ch : Fin 2) (sb : Fin 8) :
    (reconMat s cs).get ch sb =
      if hasCell s.params ch sb then BitVec.ofInt 32 (demux s.params s.join (dequantBlock s cs) ch sb)
      else s.sb.get ch sb := by
  simp [reconMat]

/-- The dequantized value of a cell is that of its codeword, the one at position M·ch + sb (R502). -/
theorem dequantBlock_get (s : State) (cs : List Nat) (hlen : cs.length = (cells s.params).length)
    (ch : Fin 2) (sb : Fin 8) (h : hasCell s.params ch sb = true) :
    (dequantBlock s cs).get ch sb =
      dequant (s.sf.get ch sb).toNat (s.bits.get ch sb).toNat
        (cs.getD (s.params.sb.toNat * ch.val + sb.val) 0) := by
  have hb : ch.val < s.params.ch.toNat ∧ sb.val < s.params.sb.toNat := by
    simpa [hasCell] using h
  exact writeCells_zipWith_get _ _ _ _ (cellsOf_nodup _ _) hlen _ _
    (cellsOf_getElem? s.params.ch s.params.sb ch sb hb.1 hb.2)

/-! ### Synthesis, cell by cell -/

/-- HIST after one advance (R551, R70). -/
theorem storeHist_get (p : Params) (sb : Mat Word) (c : Fin 10) (h : Mat (Vector Word 10))
    (ch : Fin 2) (k : Fin 8) (t : Fin 10) :
    ((storeHist p sb c h).get ch k)[t] =
      if hasCell p ch k ∧ c = t then BitVec.ofInt 32 (asr15 (combine p sb ch k))
      else (h.get ch k)[t] := by
  simp only [storeHist, Mat.get_ofFn, Fin.getElem_fin]
  by_cases hc : hasCell p ch k = true
  · simp only [hc, if_true, true_and, Vector.getElem_set, Fin.ext_iff]
  · simp [hc]

/-- PCM after one advance (R552, R70). -/
theorem pcmMat_get (p : Params) (c : Fin 10) (h : Mat (Vector Word 10)) (pcm : Mat (BitVec 16))
    (ch : Fin 2) (j : Fin 8) :
    (pcmMat p c h pcm).get ch j =
      if hasCell p ch j then BitVec.ofInt 16 (sat16 (asr15 (convolve p c h ch j)))
      else pcm.get ch j := by
  simp [pcmMat]

theorem clearHist_get (p : Params) (h : Mat (Vector Word 10)) (ch : Fin 2) (k : Fin 8) (t : Fin 10) :
    ((clearHist p h).get ch k)[t] = if hasCell p ch k then 0 else (h.get ch k)[t] := by
  simp only [clearHist, Mat.get_ofFn]
  split <;> simp

/-- One advance of the filter bank changes HIST, PCM and the cursor and nothing else (R554). -/
theorem synth_frame (s : State) :
    (synth s).params = s.params ∧ (synth s).status = s.status ∧ (synth s).hdr = s.hdr ∧
    (synth s).result = s.result ∧ (synth s).crc = s.crc ∧ (synth s).stream = s.stream ∧
    (synth s).frame = { s.frame with cursor := s.frame.cursor + 1 } ∧ (synth s).join = s.join ∧
    (synth s).sf = s.sf ∧ (synth s).bits = s.bits ∧ (synth s).sb = s.sb ∧
    (synth s).pending = s.pending ∧ (synth s).readData = s.readData :=
  ⟨rfl, rfl, rfl, rfl, rfl, rfl, rfl, rfl, rfl, rfl, rfl, rfl, rfl⟩

end Sys2Proof.Machine
end

