-- ==== Sys2Proof/Laws/Decode.lean ====
section
/-! SUPPORT. The fields of an encoded command word. -/

namespace Sys2Proof

/-- A command word, as a number. -/
theorem toNat_commandWord (op a b : Byte) :
    (commandWord op a b).toNat = op.toNat + 2 ^ 8 * a.toNat + 2 ^ 16 * b.toNat := by
  unfold commandWord
  have h : ∀ (n : Nat) (x : BitVec n) (y : Byte), (x ++ y).toNat = x.toNat * 2 ^ 8 + y.toNat := by
    intro n x y
    rw [BitVec.toNat_append, ← Nat.shiftLeft_add_eq_or_of_lt y.isLt, Nat.shiftLeft_eq]
  have := h 24 (0#8 ++ b ++ a) op
  rw [h 16 (0#8 ++ b) a, h 8 0#8 b] at this
  exact this.trans (by simp; omega)

@[simp] theorem opOf_commandWord (op a b : Byte) : opOf (commandWord op a b) = op := by
  apply BitVec.eq_of_toNat_eq
  simp only [opOf, BitVec.extractLsb'_toNat, toNat_commandWord, Nat.shiftRight_eq_div_pow]
  omega

@[simp] theorem aOf_commandWord (op a b : Byte) : aOf (commandWord op a b) = a := by
  apply BitVec.eq_of_toNat_eq
  simp only [aOf, BitVec.extractLsb'_toNat, toNat_commandWord, Nat.shiftRight_eq_div_pow]
  omega

@[simp] theorem bOf_commandWord (op a b : Byte) : bOf (commandWord op a b) = b := by
  apply BitVec.eq_of_toNat_eq
  simp only [bOf, BitVec.extractLsb'_toNat, toNat_commandWord, Nat.shiftRight_eq_div_pow]
  omega

@[simp] theorem zOf_commandWord (op a b : Byte) : zOf (commandWord op a b) = 0 := by
  apply BitVec.eq_of_toNat_eq
  simp only [zOf, BitVec.extractLsb'_toNat, toNat_commandWord, Nat.shiftRight_eq_div_pow]
  have := op.isLt
  have := a.isLt
  have := b.isLt
  simp
  omega

end Sys2Proof
end

