-- ==== Sys2Proof/Laws/Step.lean ====
section
/-! SUPPORT. What one step does, access by access of the host (R50, R151 to R153, R701 to R704, R800). -/

namespace Sys2Proof.Machine

variable {s : State} {rest : List HostAction}

/-- The head of the list takes effect. -/
theorem step_cons {act : HostAction} (h : s.pending = act :: rest) :
    step s = hostAct act (s.withPending rest) := by
  simp [step, h]

/-- A register read returns the register's value to the host and changes nothing else. -/
theorem step_read {a : Addr} (h : s.pending = .read a :: rest) :
    step s = .next ((s.withPending rest).withReadData (regRead s a)) :=
  step_cons h

/-- A register write other than to CMD. -/
theorem step_write {a : Addr} {v : Word} (ha : a ≠ 0) (h : s.pending = .write a v :: rest) :
    step s = .next (regWrite (s.withPending rest) a v) := by
  rw [step_cons h, hostAct, if_neg ha]

/-- The reset input. -/
theorem step_reset {src : List Byte} (h : s.pending = .reset src :: rest) :
    step s = .next (((State.resetOf s.params src).withPending rest).withReadData s.readData) :=
  step_cons h

/-- A write to CMD, whole: ignored in the hung state, else the decoded command or BAD_COMMAND. -/
theorem step_command {v : Word} (h : s.pending = .write 0 v :: rest) :
    step s =
      if s.status.hung then .next (s.withPending rest)
      else
        match decode v with
        | .ok i => exec i ((s.withPending rest).withLastop (opOf v))
        | .error _ => finish .badCommand ((s.withPending rest).withLastop (opOf v)) :=
  step_cons h

end Sys2Proof.Machine
end

