-- ==== Sys2Proof/Laws/Exec.lean ====
section
/-! SUPPORT. Inversion, command by command: if a command answers a next state, the state is one of these.
Each case holds its guards, so later proofs need not unfold a command again. -/

namespace Sys2Proof.Machine

variable {s t : State}

theorem readToResult_cases {max : Nat} {n : Byte} (h : readToResult max n s = .next t) :
    (max < n.toNat ∧ t = s.withCode .badCommand) ∨
    (n.toNat ≤ max ∧ ∃ st, bitRead n.toNat s.stream = (none, st) ∧
      t = (s.withStream st).withCode .underflow) ∨
    (n.toNat ≤ max ∧ ∃ v st, bitRead n.toNat s.stream = (some v, st) ∧
      t = ((s.withStream st).withResult (BitVec.ofNat 32 v)).withCode .ok) := by
  unfold readToResult at h
  split at h
  · exact .inl ⟨‹_›, finish_next h⟩
  · split at h
    · exact .inr (.inl ⟨by omega, _, ‹_›, finish_next h⟩)
    · exact .inr (.inr ⟨by omega, _, _, ‹_›, finish_next h⟩)

theorem execHdrDecode_cases (h : execHdrDecode s = .next t) :
    (s.stream.src.length < 3 ∧
      t = (s.withStream { s.stream with src := [] }).withCode .underflow) ∨
    ∃ b0 b1 b2 q, s.stream.src = b0 :: b1 :: b2 :: q ∧
      ((decodeHeader s.params b0 b1 b2 = none ∧
          t = (s.withStream { s.stream with src := q }).withCode .unrecognizedSync) ∨
        ∃ w, decodeHeader s.params b0 b1 b2 = some w ∧
          t = ((s.withStream { s.stream with src := q }).withHdr w).withCode .ok) := by
  unfold execHdrDecode at h
  rcases srcRead3_spec s.stream.src with ⟨b0, b1, b2, q, hsrc, hread⟩ | ⟨hlen, hread⟩
  · rw [hread] at h
    refine .inr ⟨b0, b1, b2, q, hsrc, ?_⟩
    simp only at h
    split at h
    · exact .inl ⟨‹_›, finish_next h⟩
    · exact .inr ⟨_, ‹_›, finish_next h⟩
  · rw [hread] at h
    exact .inl ⟨hlen, finish_next h⟩

theorem execHdrEncode_cases (h : execHdrEncode s = .next t) :
    (hdrV s.hdr = false ∧ t = s.withCode .badCommand) ∨
    (hdrV s.hdr = true ∧ ∃ r, t = (s.withResult r).withCode .ok) := by
  unfold execHdrEncode at h
  split at h
  · exact .inl ⟨‹_›, finish_next h⟩
  · exact .inr ⟨by simpa using ‹¬hdrV s.hdr = false›, _, finish_next h⟩

/-- No header is effective exactly when HDR.V = 0 (R405). -/
theorem hdrInfo_eq_none_iff (hdr : Word) : hdrInfo hdr = none ↔ hdrV hdr = false := by
  unfold hdrInfo
  cases hdrV hdr <;> cases hdrMode hdr <;> simp

theorem execAlloc_cases (h : execAlloc s = .next t) :
    (hdrInfo s.hdr = none ∧ t = s.withCode .badCommand) ∨
    ∃ info, hdrInfo s.hdr = some info ∧
      ((fits s.params info = false ∧ t = s.withCode .configMismatch) ∨
        (fits s.params info = true ∧ allocate s.params info s.sf s.bits = none ∧ t = s.enterHung) ∨
        (fits s.params info = true ∧ ∃ w, allocate s.params info s.sf s.bits = some w ∧
          t = (s.withBits w).withCode .ok)) := by
  unfold execAlloc at h
  split at h
  · exact .inl ⟨‹_›, finish_next h⟩
  · refine .inr ⟨_, ‹_›, ?_⟩
    split at h
    · exact .inl ⟨‹_›, finish_next h⟩
    · split at h
      · refine .inr (.inl ⟨by simpa using ‹¬fits s.params _ = false›, ‹_›, ?_⟩)
        cases h
        rfl
      · exact .inr (.inr ⟨by simpa using ‹¬fits s.params _ = false›, _, ‹_›, finish_next h⟩)

theorem recon_cases :
    (∃ st, readFields (codewordWidths s) s.stream = (none, st) ∧ recon s = (false, s.withStream st)) ∨
    ∃ cs st, readFields (codewordWidths s) s.stream = (some cs, st) ∧
      recon s = (true, (s.withStream st).withSb (reconMat s cs)) := by
  unfold recon
  rcases hread : readFields (codewordWidths s) s.stream with ⟨_ | cs, st⟩
  · exact .inl ⟨st, rfl, rfl⟩
  · exact .inr ⟨cs, st, rfl, rfl⟩

theorem execRecon_cases (h : execRecon s = .next t) :
    (∃ st, readFields (codewordWidths s) s.stream = (none, st) ∧
      t = (s.withStream st).withCode .underflow) ∨
    ∃ cs st, readFields (codewordWidths s) s.stream = (some cs, st) ∧
      t = ((s.withStream st).withSb (reconMat s cs)).withCode .ok := by
  unfold execRecon at h
  rcases recon_cases (s := s) with ⟨st, hread, hrec⟩ | ⟨cs, st, hread, hrec⟩
  · rw [hrec] at h
    exact .inl ⟨st, hread, finish_next h⟩
  · rw [hrec] at h
    exact .inr ⟨cs, st, hread, finish_next h⟩

/-- The end of a frame start whose CRC, if any, matched (R601). -/
theorem startFrame_cases {info : HdrInfo} {f : FrameFields} (h : startFrame info f s = .next t) :
    (allocate s.params info (sfMat info f s.sf) s.bits = none ∧ t = s.enterHung) ∨
    ∃ w, allocate s.params info (sfMat info f s.sf) s.bits = some w ∧
      t = ((((s.withJoin (BitVec.ofNat 8 (joinOf f.joint))).withSf (sfMat info f s.sf)).withBits
        w).withFrame { s.frame with fstate := .active, blocksLeft := frameBlockCount info,
                                    frameBlocks := frameBlockCount info }).withCode .ok := by
  unfold startFrame at h
  split at h
  · refine .inl ⟨‹_›, ?_⟩
    cases h
    rfl
  · exact .inr ⟨_, ‹_›, finish_next h⟩

/-- A frame start after its fields were read: CRC_MISMATCH, or what `startFrame` does with CRC as it then
stands (R601). -/
theorem checkFrame_cases {info : HdrInfo} {f : FrameFields} (h : checkFrame info f s = .next t) :
    (f.rx = none ∧ startFrame info f s = .next t) ∨
    ∃ rx, f.rx = some rx ∧
      ((crcSeq s.params.crcInit (frameCrcBits s.params s.hdr f) ≠ BitVec.ofNat 8 rx ∧
          t = (s.withCrc { acc := crcSeq s.params.crcInit (frameCrcBits s.params s.hdr f),
                           rx := BitVec.ofNat 8 rx }).withCode .checksumMismatch) ∨
        (crcSeq s.params.crcInit (frameCrcBits s.params s.hdr f) = BitVec.ofNat 8 rx ∧
          startFrame info f
            (s.withCrc { acc := crcSeq s.params.crcInit (frameCrcBits s.params s.hdr f),
                         rx := BitVec.ofNat 8 rx }) = .next t)) := by
  unfold checkFrame at h
  split at h
  · exact .inl ⟨‹_›, h⟩
  · refine .inr ⟨_, ‹_›, ?_⟩
    split at h
    · exact .inl ⟨‹_›, finish_next h⟩
    · exact .inr ⟨by simpa using ‹¬(crcSeq _ _ ≠ _)›, h⟩

theorem frameStart_cases {withCrc : Bool} (h : frameStart withCrc s = .next t) :
    (hdrInfo s.hdr = none ∧ t = s.withCode .badCommand) ∨
    ∃ info, hdrInfo s.hdr = some info ∧
      ((fits s.params info = false ∧ t = s.idleFrame.withCode .configMismatch) ∨
        (fits s.params info = true ∧
          ((∃ st, readFrameFields withCrc info s.stream.emptied = (none, st) ∧
              t = (s.idleFrame.withStream st).withCode .underflow) ∨
            ∃ f st, readFrameFields withCrc info s.stream.emptied = (some f, st) ∧
              checkFrame info f (s.idleFrame.withStream st) = .next t))) := by
  unfold frameStart at h
  split at h
  · exact .inl ⟨‹_›, finish_next h⟩
  · refine .inr ⟨_, ‹_›, ?_⟩
    split at h
    · exact .inl ⟨‹_›, finish_next h⟩
    · refine .inr ⟨by simpa using ‹¬fits s.params _ = false›, ?_⟩
      split at h
      · exact .inl ⟨_, ‹_›, finish_next h⟩
      · exact .inr ⟨_, _, ‹_›, h⟩

theorem execFrameNext_cases (h : execFrameNext s = .next t) :
    (s.frame.fstate ≠ .active ∧ t = s.withCode .noMoreBlocks) ∨
    (s.frame.fstate = .active ∧
      ((∃ st, readFields (codewordWidths s) s.stream = (none, st) ∧
          t = ((s.withStream st).withFrame
            { s.frame with fstate := .idle, blocksLeft := 0 }).withCode .underflow) ∨
        ∃ cs st, readFields (codewordWidths s) s.stream = (some cs, st) ∧
          t = (synth (((s.withFrame { s.frame with blocksLeft := s.frame.blocksLeft - 1 }).withStream
            st).withSb (reconMat s cs))).endBlock.withCode .ok)) := by
  unfold execFrameNext at h
  split at h
  · exact .inl ⟨by simp [*], finish_next h⟩
  · exact .inl ⟨by simp [*], finish_next h⟩
  · refine .inr ⟨‹_›, ?_⟩
    rcases recon_cases (s := s.withFrame { s.frame with blocksLeft := s.frame.blocksLeft - 1 }) with
      ⟨st, hread, hrec⟩ | ⟨cs, st, hread, hrec⟩
    · rw [hrec] at h
      exact .inl ⟨st, hread, finish_next h⟩
    · rw [hrec] at h
      exact .inr ⟨cs, st, hread, finish_next h⟩

end Sys2Proof.Machine
end

