-- ==== Sys2Proof/Laws/PerInstr.lean ====
section
/-! SUPPORT. Statements for all commands, one lemma for each constructor of Instr. -/

namespace Sys2Proof.Laws.EncodesInMap

/-- The word a command encodes to has Z = 0 and an opcode of the map of R202. -/
def Statement (i : Instr) : Prop :=
  zOf (encode i) = 0 ∧ ∃ r ∈ Machine.opcodeMap, (opOf (encode i)).toNat = r.1

/-- A word built from an opcode of the map is such a word. -/
theorem of_commandWord {i : Instr} {op a b : Byte} (h : encode i = commandWord op a b)
    (hm : op.toNat ∈ Machine.opcodeMap.map Prod.fst) : Statement i := by
  obtain ⟨r, hr, e⟩ := List.mem_map.mp hm
  exact ⟨by rw [h, zOf_commandWord], r, hr, by rw [h, opOf_commandWord, e]⟩

theorem brReset : Statement .brReset := of_commandWord rfl (by decide)
theorem brRead8 (n : Byte) : Statement (.brRead8 n) := of_commandWord rfl (by decide)
theorem brRead16 (n : Byte) : Statement (.brRead16 n) := of_commandWord rfl (by decide)
theorem crcInit (v : Byte) : Statement (.crcInit v) := of_commandWord rfl (by decide)
theorem crcByte (x : Byte) : Statement (.crcByte x) := of_commandWord rfl (by decide)
theorem crcBits (x k : Byte) : Statement (.crcBits x k) := of_commandWord rfl (by decide)
theorem hdrDecode : Statement .hdrDecode := of_commandWord rfl (by decide)
theorem hdrEncode : Statement .hdrEncode := of_commandWord rfl (by decide)
theorem alloc : Statement .alloc := of_commandWord rfl (by decide)
theorem recon : Statement .recon := of_commandWord rfl (by decide)
theorem synth : Statement .synth := of_commandWord rfl (by decide)
theorem filterReset : Statement .filterReset := of_commandWord rfl (by decide)
theorem frameStartCrc : Statement .frameStartCrc := of_commandWord rfl (by decide)
theorem frameStartNocrc : Statement .frameStartNocrc := of_commandWord rfl (by decide)
theorem frameNext : Statement .frameNext := of_commandWord rfl (by decide)

end Sys2Proof.Laws.EncodesInMap
end

