-- ==== Sys2Proof/Tests/Slice0.lean ====
section
/-! SUPPORT. Tests of the model against the spec's own encodings (30_encoding.md R202, R208) and vectors
(95_test_vectors.md), and for every obligation with hypotheses a named witness that meets them. -/

namespace Sys2Proof.Tests

open Sys2Proof.Machine

set_option maxRecDepth 100000

/-! ### Helpers -/

/-- An instance with the TOY tables of 95_test_vectors.md section 7. -/
def toyParams (ch : Channels) (sb : Subbands) : Params :=
  { Config.defaultParams ch sb with
    cos4 := Vector.ofFn fun k => Vector.ofFn fun i => if k = i then 2 ^ 15 else 0
    cos8 := Vector.ofFn fun k => Vector.ofFn fun i => if k = i then 2 ^ 15 else 0
    win4 := Vector.ofFn fun t => Vector.ofFn fun _ => if t.val < 3 then 2 ^ 15 / 2 ^ t.val else 0
    win8 := Vector.ofFn fun t => Vector.ofFn fun _ => if t.val < 3 then 2 ^ 15 / 2 ^ t.val else 0
    sel4 := #v[#v[0, 1, 2, 3], #v[1, 2, 3, 0]]
    sel8 := #v[#v[0, 1, 2, 3, 4, 5, 6, 7], #v[1, 2, 3, 4, 5, 6, 7, 0]] }

/-- The state after reset of a TOY instance with a header and source bytes. -/
def toy (ch : Channels) (sb : Subbands) (hdr : Word) (src : List Byte) : State :=
  (State.resetOf (toyParams ch sb) src).withHdr hdr

/-- The state with a bit reader position. -/
def atBits (s : State) (buf : Byte) (rem : Nat) : State :=
  s.withStream { buf := buf, rem := rem, src := s.stream.src }

/-- A matrix from its rows; absent cells are the default. -/
def mat {α : Type} (d : α) (rows : List (List α)) : Mat α :=
  Mat.ofFn fun ch sb => (rows.getD ch.val []).getD sb.val d

/-- The state a step or command ends in, `d` where it stops. -/
def nextOr (d : State) : Host.Outcome State Fault Refusal → State
  | .next t => t
  | .fault _ | .refused _ => d

/-- Whether a step or command ends in a next state. -/
def isNext : Host.Outcome State Fault Refusal → Bool
  | .next _ => true
  | .fault _ | .refused _ => false

theorem eq_next {r : Host.Outcome State Fault Refusal} {d : State} (h : isNext r = true) :
    r = .next (nextOr d r) := by
  cases r <;> first | rfl | cases h

/-- The state after a command. -/
def after (i : Instr) (s : State) : State := nextOr s (exec i s)

/-- The state after a step. -/
def afterStep (s : State) : State := nextOr s (step s)

/-- The sub-bands 0 to 3 of a channel of PCM or SB, as numbers. -/
def row {n : Nat} (m : Mat (BitVec n)) (ch : Fin 2) : List Int :=
  [0, 1, 2, 3].map fun sb => (m.get ch sb).toInt

/-- The sub-bands 0 to 7 of a channel of SF or BITS, as numbers. -/
def rowNat {n : Nat} (m : Mat (BitVec n)) (ch : Fin 2) : List Nat :=
  [0, 1, 2, 3, 4, 5, 6, 7].map fun sb => (m.get ch sb).toNat

/-- The scenario-A frame after its header (95_test_vectors.md FA). -/
def frameA : State :=
  toy .one .four 0x80000018
    [0x61, 0x75, 0x31, 0x80, 0x41, 0x08, 0x80, 0x41, 0x08, 0x80, 0x41, 0x08, 0x80, 0x41, 0x08]

/-- The first block of the scenario-A frame (95_test_vectors.md Q10, P3). -/
def blockA : State :=
  { toy .one .four 0x80000018 [0x80, 0x41, 0x08] with
    sf := mat 0 [[7, 5, 3, 1]], bits := mat 0 [[9, 6, 5, 4]],
    frame := { fstate := .active, blocksLeft := 4, cursor := 0, frameBlocks := 4 } }

/-! ### The words of R202 and R208 -/

theorem test_decode_brReset : decode 0x00000010 = .ok .brReset := by decide
theorem test_decode_brRead8 : decode 0x00000811 = .ok (.brRead8 8) := by decide
theorem test_decode_brRead16 : decode 0x00001012 = .ok (.brRead16 16) := by decide
theorem test_decode_crcInit : decode 0x00000F20 = .ok (.crcInit 0x0F) := by decide
theorem test_decode_crcByte : decode 0x00003121 = .ok (.crcByte 0x31) := by decide
theorem test_decode_crcBits : decode 0x0003A022 = .ok (.crcBits 0xA0 3) := by decide
theorem test_decode_hdrDecode : decode 0x00000030 = .ok .hdrDecode := by decide
theorem test_decode_hdrEncode : decode 0x00000031 = .ok .hdrEncode := by decide
theorem test_decode_alloc : decode 0x00000040 = .ok .alloc := by decide
theorem test_decode_recon : decode 0x00000050 = .ok .recon := by decide
theorem test_decode_synth : decode 0x00000060 = .ok .synth := by decide
theorem test_decode_filterReset : decode 0x00000061 = .ok .filterReset := by decide
theorem test_decode_frameStartCrc : decode 0x00000070 = .ok .frameStartCrc := by decide
theorem test_decode_frameStartNocrc : decode 0x00000071 = .ok .frameStartNocrc := by decide
theorem test_decode_frameNext : decode 0x00000072 = .ok .frameNext := by decide

/-- R203: an opcode outside the map. -/
theorem test_decode_rejects_opcode : decode 0x00000013 = .error .unknownOpcode ∧
    decode 0x00000000 = .error .unknownOpcode ∧ decode 0x000000FF = .error .unknownOpcode := by decide

/-- R203: Z ≠ 0. -/
theorem test_decode_rejects_z : decode 0x01000010 = .error .reservedNotZero ∧
    decode 0x80000022 = .error .reservedNotZero := by decide

/-- R203: a field the command does not use is not 0. -/
theorem test_decode_rejects_unused : decode 0x00000110 = .error .unusedNotZero ∧
    decode 0x00010010 = .error .unusedNotZero ∧ decode 0x00010011 = .error .unusedNotZero ∧
    decode 0x00010020 = .error .unusedNotZero := by decide

/-- R303: n = 9 is ill-formed for BR_READ8, and its word is refused. -/
theorem test_wf_brRead8 : (Instr.brRead8 8).wf = true ∧ (Instr.brRead8 9).wf = false ∧
    decode 0x00000911 = .error .operandOutOfRange := by decide

/-- R304: n = 17 is ill-formed for BR_READ16, and its word is refused. -/
theorem test_wf_brRead16 : (Instr.brRead16 16).wf = true ∧ (Instr.brRead16 17).wf = false ∧
    decode 0x00001112 = .error .operandOutOfRange := by decide

/-- R357: k = 8 is ill-formed for CRC_BITS, and its word is refused. -/
theorem test_wf_crcBits : (Instr.crcBits 0xA0 7).wf = true ∧ (Instr.crcBits 0xA0 8).wf = false ∧
    decode 0x0008A022 = .error .operandOutOfRange := by decide

/-! ### The commands (95_test_vectors.md) -/

/-- Vector B13. -/
theorem test_brReset : (after .brReset (atBits (toy .one .four 0 [7]) 0xA5 5)).stream =
    { buf := 0, rem := 0, src := [7] } := by decide

/-- Vector B1. -/
theorem test_brRead8 : (after (.brRead8 3) (toy .one .four 0 [0xA5, 0x3C])).result = 5 ∧
    (after (.brRead8 3) (toy .one .four 0 [0xA5, 0x3C])).stream =
      { buf := 0xA5, rem := 5, src := [0x3C] } := by decide

/-- Vector B6: the bits taken are lost. -/
theorem test_brRead8_underflow :
    (after (.brRead8 8) (atBits (toy .one .four 0 []) 1 7)).stream = { buf := 1, rem := 0, src := [] } ∧
    (after (.brRead8 8) (atBits (toy .one .four 0 []) 1 7)).status.code = .underflow := by decide

/-- Vector B10: two fetches. -/
theorem test_brRead16 :
    (after (.brRead16 16) (atBits (toy .one .four 0 [0x12, 0x34]) 0xB7 3)).result = 0xE246 ∧
    (after (.brRead16 16) (atBits (toy .one .four 0 [0x12, 0x34]) 0xB7 3)).stream =
      { buf := 0x34, rem := 3, src := [] } := by decide

/-- Vector B9: a read of no bits from an empty source. -/
theorem test_brRead16_zero : (after (.brRead16 0) (atBits (toy .one .four 0 []) 1 0)).status.code = .ok ∧
    (after (.brRead16 0) (atBits (toy .one .four 0 []) 1 0)).result = 0 := by decide

/-- Vector K1. -/
theorem test_crcInit : (after (.crcInit 0x0F) (toy .one .four 0 [])).crc = { acc := 0x0F, rx := 0 } := by
  decide

/-- Vector K3. -/
theorem test_crcByte :
    (after (.crcByte 0x18) ((toy .one .four 0 []).withCrcAcc 0xBB)).crc.acc = 0x86 := by decide

/-- Vectors K6, K10. -/
theorem test_crcBits :
    (after (.crcBits 0xA0 3) ((toy .one .four 0 []).withCrcAcc 0x0F)).crc.acc = 0x11 ∧
    (after (.crcBits 0xFE 7) ((toy .one .four 0 []).withCrcAcc 0x0F)).crc.acc = 0x31 := by decide

/-- Vector K15. -/
theorem test_crcBits_bad :
    (after (.crcBits 0xA0 8) ((toy .one .four 0 []).withCrcAcc 0x0F)).status.code = .badCommand := by decide

/-- The first, the fifth and the last row of the table of 95_test_vectors.md section 2, at columns 0, 1, 15. -/
theorem test_crcTable : [0x00, 0x01, 0x0F, 0x40, 0x41, 0x4F, 0xF0, 0xF1, 0xFF].map crcTable =
    [0x00, 0x1D, 0xBB, 0x13, 0x0E, 0xA8, 0x7F, 0x62, 0xC4] := by decide

/-- Vector H2: HDR and HDR_INFO. -/
theorem test_hdrDecode :
    (after .hdrDecode (toy .one .four 0 [0x9C, 0xBD, 0x35, 1])).hdr = 0x8000BD35 ∧
    regRead (after .hdrDecode (toy .one .four 0 [0x9C, 0xBD, 0x35, 1])) 0x004 = 0x82354342 := by decide

/-- Vector H7: three bytes taken, HDR unchanged. -/
theorem test_hdrDecode_sync :
    (after .hdrDecode (toy .one .four 5 [0x9D, 0x00, 0x18])).status.code = .unrecognizedSync ∧
    (after .hdrDecode (toy .one .four 5 [0x9D, 0x00, 0x18])).hdr = 5 := by decide

/-- Vectors H3, H5. -/
theorem test_hdrEncode : (after .hdrEncode (toy .one .four 0x80005E20 [])).result = 0x009C5E20 ∧
    (after .hdrEncode (toy .one .four 0x80010000 [])).result = 0x00AD0000 := by decide

/-- Vector H9. -/
theorem test_hdrEncode_bad : (after .hdrEncode (toy .one .four 0 [])).status.code = .badCommand := by decide

/-- Vector A12: joint-stereo, loudness, a negative bitneed. -/
theorem test_alloc :
    rowNat (after .alloc { toy .two .eight 0x8000BD35 [] with
      sf := mat 0 [[10, 9, 9, 8, 7, 6, 5, 3], [8, 8, 7, 7, 6, 5, 3, 1]] }).bits 0 =
        [8, 5, 5, 4, 3, 3, 2, 0] ∧
    rowNat (after .alloc { toy .two .eight 0x8000BD35 [] with
      sf := mat 0 [[10, 9, 9, 8, 7, 6, 5, 3], [8, 8, 7, 7, 6, 5, 3, 1]] }).bits 1 =
        [7, 5, 3, 3, 3, 2, 0, 0] := by decide

/-- Vector A8: the hung state. -/
theorem test_alloc_hung : regRead (after .alloc ((toy .one .four 0x80000241 []).withLastop 0x40)) 0x001 =
    0x00014007 := by decide

/-- Vector Q10. -/
theorem test_recon : row (after .recon blockA).sb 0 = [4, 8, 4, 2] ∧
    (after .recon blockA).stream = { buf := 0x08, rem := 0, src := [] } := by decide

/-- Vector Q14: the mid/side undo of sub-bands 0 and 2. -/
theorem test_recon_joint :
    row (after .recon { toy .two .four 0 [0xA7, 0x70, 0x3E] with
      bits := mat 3 [], sf := mat 2 [], join := 5 }).sb 0 = [-10, -19, 63, 36] ∧
    row (after .recon { toy .two .four 0 [0xA7, 0x70, 0x3E] with
      bits := mat 3 [], sf := mat 2 [], join := 5 }).sb 1 = [46, -28, -9, 27] := by decide

/-- Vectors Q5, Q7, Q8. -/
theorem test_dequant : [dequant 5 3 1, dequant 5 3 4, dequant 15 16 0, dequant 15 16 65535, dequant 15 1 1] =
    [-147, 73, -262140, 262148, 524288] := by decide

/-- Vector Y1.1: the last sample saturates. -/
theorem test_synth :
    row (after .synth { toy .one .four 0 [] with
      sb := mat 0 [[1000, BitVec.ofInt 32 (-2000), 3000, 40000]] }).pcm 0 = [1000, -2000, 3000, 32767] := by
  decide

/-- Vector Y1.4: the shift rounds down. -/
theorem test_synth_floor :
    row (after .synth { toy .one .four 0 [] with
      hist := mat (Vector.replicate 10 0) [[#v[1000, 1, 0, 0, 0, 0, 0, 0, 0, 0],
        #v[BitVec.ofInt 32 (-2000), 2, 0, 0, 0, 0, 0, 0, 0, 0], #v[3000, 3, 0, 0, 0, 0, 0, 0, 0, 0],
        #v[40000, BitVec.ofInt 32 (-5), 0, 0, 0, 0, 0, 0, 0, 0]]]
      frame := { fstate := .idle, blocksLeft := 0, cursor := 3, frameBlocks := 0 } }).pcm 0 =
        [0, 0, 0, -2] := by decide

/-- Vector Y5. -/
theorem test_filterReset :
    (after .filterReset { toy .one .four 0 [] with
      hist := mat (Vector.replicate 10 0) [[Vector.replicate 10 0, Vector.replicate 10 0,
        #v[0, 0, 0, 55, 0, 0, 0, 0, 0, 0]]]
      frame := { fstate := .idle, blocksLeft := 0, cursor := 7, frameBlocks := 0 } }) =
    (toy .one .four 0 []) := by decide

/-- Vector FA. -/
theorem test_frameStartCrc : rowNat (after .frameStartCrc frameA).bits 0 = [9, 6, 5, 4, 0, 0, 0, 0] ∧
    (after .frameStartCrc frameA).crc = { acc := 0x61, rx := 0x61 } := by decide

/-- Vector FJ: the joint bitmap and its CRC. -/
theorem test_frameStartCrc_joint :
    (after .frameStartCrc (toy .two .four 0x80000E10 [0x72, 0xA4, 0x32, 0x11, 0x23, 0x48])).join = 5 ∧
    regRead (after .frameStartCrc (toy .two .four 0x80000E10 [0x72, 0xA4, 0x32, 0x11, 0x23, 0x48])) 0x006 =
      0x7272 := by decide

/-- The example of R602. -/
theorem test_frameStartNocrc :
    regRead (after .frameStartNocrc (toy .one .four 0x80000018 [0x75, 0x31])) 0x008 = 0x04000401 ∧
    rowNat (after .frameStartNocrc (toy .one .four 0x80000018 [0x75, 0x31])).sf 0 =
      [7, 5, 3, 1, 0, 0, 0, 0] := by decide

/-- Program P3, the first block. -/
theorem test_frameNext : row (after .frameNext blockA).pcm 0 = [4, 8, 4, 2] ∧
    regRead (after .frameNext blockA) 0x008 = 0x04010301 := by decide

/-- Vector FS3: the block is cut short. -/
theorem test_frameNext_underflow :
    (after .frameNext (blockA.withStream { buf := 0, rem := 0, src := [0x80, 0x41] })).frame =
      { fstate := .idle, blocksLeft := 0, cursor := 0, frameBlocks := 4 } ∧
    (after .frameNext (blockA.withStream { buf := 0, rem := 0, src := [0x80, 0x41] })).status.code =
      .underflow := by decide

/-! ### The host's accesses -/

/-- 95_test_vectors.md section 4.2: host writes of HDR. -/
theorem test_write_hdr :
    [0xFFFFFFFF, 0x7FFFFFFF, 0x8FFE1234].map legalHdr = [0x80010000, 0x00010000, 0x80001234] := by decide

/-- Program P4: in the hung state a command changes nothing. -/
theorem test_hung_ignores :
    regRead (afterStep (((toy .one .four 0x80000241 []).withLastop 0x40).enterHung.withFetchWord 32 0x10)) 0x001 =
      0x00014007 := by decide

/-- R70: a cell outside the configuration is neither written nor read. -/
theorem test_absent_cell :
    afterStep ((toy .one .four 0 []).withPending [.write 0x014 3]) = toy .one .four 0 [] ∧
    regRead { toy .one .four 0 [] with sf := mat 3 [] } 0x014 = 0 := by decide

/-- R68: the address of HIST[1][7][9]. -/
theorem test_hist_address : regAt (toyParams .two .eight) 0x19F = some (.hist 1 7 9) ∧
    regAt (toyParams .one .eight) 0x150 = none := by decide

/-! ### Witnesses: a concrete input meeting the hypotheses of each obligation -/

/-- The instance after reset has the invariant, with a header in HDR that reads back whole. -/
theorem toy_inv (ch : Channels) (sb : Subbands) (src : List Byte) : (toy ch sb 0x80000018 src).Inv where
  rem_le := by simp [toy, State.withHdr, State.resetOf]
  active_iff := by simp [toy, State.withHdr, State.resetOf]
  blocksLeft_le := by simp [toy, State.withHdr, State.resetOf]
  frameBlocks_range := by simp [toy, State.withHdr, State.resetOf]
  hdr_reserved := by simp only [toy, State.withHdr]; decide
  hdr_fixed := by simp only [toy, State.withHdr]; decide
  join_range := by simp [toy, State.withHdr, State.resetOf]
  bits_le := by
    show ∀ ch sb, (Mat.get (Vector.replicate 2 (Vector.replicate 8 (0 : BitVec 5))) ch sb).toNat ≤ 16
    decide
  absent := by
    intro _ _ _
    refine ⟨?_, ?_, ?_, ?_, ?_⟩ <;> simp [toy, State.withHdr, State.resetOf, Mat.get]
  hung_iff := by simp [toy, State.withHdr, State.resetOf]

/-- A state inside a frame has the invariant. -/
theorem blockA_inv : blockA.Inv where
  rem_le := by decide
  active_iff := by decide
  blocksLeft_le := by decide
  frameBlocks_range := by decide
  hdr_reserved := by decide
  hdr_fixed := by decide
  join_range := by decide
  bits_le := by decide
  absent := by decide
  hung_iff := by decide

/-- OperandWordsDecode: the largest operands. -/
theorem witness_OperandWordsDecode : (8 : Byte).toNat ≤ 8 ∧ (16 : Byte).toNat ≤ 16 ∧ (7 : Byte).toNat ≤ 7 := by
  decide

/-- DecodeEncodeRoundTrip: a well-formed command at its largest operand. -/
theorem witness_DecodeEncodeRoundTrip : (Instr.crcBits 0xFF 7).wf = true := by decide

/-- EncodeDecodeRoundTrip: a word that decodes. -/
theorem witness_EncodeDecodeRoundTrip : decode 0x0007FF22 = .ok (.crcBits 0xFF 7) := by decide

/-- DecodeAcceptsExactlyLegalWords and BadCommandExactly: a legal word, and one that is not. -/
theorem witness_LegalWord : LegalWord 0x0007FF22 ∧ ¬LegalWord 0x0008FF22 ∧ ¬LegalWord 0x01000010 := by
  unfold LegalWord
  decide

/-- A TOY instance whose host writes v to CMD next. -/
def commanding (s : State) (v : Word) : State := s.withPending [.write 0 v]

/-- StepRunsDecodedCommand, CommandWritesLastop. -/
theorem witness_StepRunsDecodedCommand :
    (commanding frameA 0x70).nextCommand 0x70 [] ∧ (commanding frameA 0x70).status.hung = false ∧
      decode 0x70 = .ok .frameStartCrc := ⟨rfl, rfl, by decide⟩

/-- IdleCoreWaits. -/
theorem witness_IdleCoreWaits : frameA.pending = [] := rfl

/-- CommandWritesLastop: a command that succeeds, and one that enters the hung state. -/
theorem witness_CommandWritesLastop :
    (commanding (toy .one .four 0x80000241 []) 0x40).nextCommand 0x40 [] ∧
      (commanding (toy .one .four 0x80000241 []) 0x40).status.hung = false ∧
      (afterStep (commanding (toy .one .four 0x80000241 []) 0x40)).status.hung = true :=
  ⟨rfl, rfl, by decide⟩

/-- BadCommandExactly, first clause: an illegal word, no hung state. -/
theorem witness_BadCommandExactly_word :
    (commanding frameA 0x0008FF22).nextCommand 0x0008FF22 [] ∧
      (commanding frameA 0x0008FF22).status.hung = false ∧ ¬LegalWord 0x0008FF22 :=
  ⟨rfl, rfl, witness_LegalWord.2.1⟩

/-- BadCommandExactly, second and third clause: no header held. -/
theorem witness_BadCommandExactly_header :
    hdrV (toy .one .four 0x00010000 []).hdr = false ∧ Instr.alloc.wf = true ∧
      exec .alloc (toy .one .four 0x00010000 []) = .next (after .alloc (toy .one .four 0x00010000 [])) ∧
      (after .alloc (toy .one .four 0x00010000 [])).status.code = .badCommand :=
  ⟨by decide, rfl, eq_next (by decide), by decide⟩

/-- The hung state of 95_test_vectors.md A8. -/
def hungA : State := (toy .one .four 0x80000241 []).enterHung

/-- HungCoreIgnoresCommands. -/
theorem witness_HungCoreIgnoresCommands :
    (commanding hungA 0x10).nextCommand 0x10 [] ∧ (commanding hungA 0x10).status.hung = true := ⟨rfl, rfl⟩

/-- HungStateEntryAndExit: an entry, and an exit by reset. -/
theorem witness_HungStateEntryAndExit :
    (step (commanding (toy .one .four 0x80000241 []) 0x40) =
        .next (afterStep (commanding (toy .one .four 0x80000241 []) 0x40)) ∧
      (commanding (toy .one .four 0x80000241 []) 0x40).status.hung = false ∧
      (afterStep (commanding (toy .one .four 0x80000241 []) 0x40)).status.hung = true) ∧
    step (hungA.withPending [.reset [1]]) = .next (afterStep (hungA.withPending [.reset [1]])) ∧
      (hungA.withPending [.reset [1]]).status.hung = true ∧
      (afterStep (hungA.withPending [.reset [1]])).status.hung = false :=
  ⟨⟨eq_next (by decide), rfl, by decide⟩, rfl, rfl, rfl⟩

/-- ResetClearsEveryRegister. -/
theorem witness_ResetClearsEveryRegister :
    (hungA.withPending [.reset [1], .read 1]).pending = .reset [1] :: [.read 1] := rfl

/-- StepKeepsInv: a NEXT_BLOCK command inside a frame. -/
theorem witness_StepKeepsInv : (commanding blockA 0x72).Inv ∧
    step (commanding blockA 0x72) = .next (afterStep (commanding blockA 0x72)) ∧
    (afterStep (commanding blockA 0x72)).frame.blocksLeft = 3 := by
  refine ⟨?_, eq_next (by decide), by decide⟩
  exact ⟨blockA_inv.rem_le, blockA_inv.active_iff, blockA_inv.blocksLeft_le, blockA_inv.frameBlocks_range,
    blockA_inv.hdr_reserved, blockA_inv.hdr_fixed, blockA_inv.join_range, blockA_inv.bits_le,
    blockA_inv.absent, blockA_inv.hung_iff⟩

/-- NamedRegistersReadTheirFields: an instance with a header. -/
theorem witness_NamedRegistersReadTheirFields : (toy .two .eight 0x80000018 []).Inv := toy_inv _ _ _

/-- RegisterReadHasNoEffect. -/
theorem witness_RegisterReadHasNoEffect :
    (frameA.withPending [.read 0x1FF]).pending = .read 0x1FF :: [] := rfl

/-- HdrInfoReportsTheHeader: no header, the two modes. -/
theorem witness_HdrInfoReportsTheHeader : hdrV (toy .one .four 0x7FFFFFFF []).hdr = false ∧
    (hdrV (toy .one .four 0x8000FFFF []).hdr = true ∧ hdrMode (toy .one .four 0x8000FFFF []).hdr = false) ∧
    hdrV (toy .one .four 0x80010000 []).hdr = true ∧ hdrMode (toy .one .four 0x80010000 []).hdr = true := by
  decide

/-- CellRegistersReadTheirCells: the last cell of the largest and of the smallest instance. -/
theorem witness_CellRegistersReadTheirCells : hasCell (toyParams .two .eight) 1 7 = true ∧
    hasCell (toyParams .one .four) 0 3 = true := by decide

/-- OtherAddressesAreInert: an absent cell for a read, a read-only register for a write. -/
theorem witness_OtherAddressesAreInert :
    ((∀ ch sb, hasCell (toyParams .one .four) ch sb = true →
        (0x014 : Addr).toNat ≠ 0x010 + 8 * ch.val + sb.val ∧ (0x014 : Addr).toNat ≠ 0x020 + 8 * ch.val + sb.val ∧
        (0x014 : Addr).toNat ≠ 0x030 + 8 * ch.val + sb.val ∧ (0x014 : Addr).toNat ≠ 0x040 + 8 * ch.val + sb.val ∧
        ∀ t : Fin 10, (0x014 : Addr).toNat ≠ 0x100 + 80 * ch.val + 10 * sb.val + t.val) ∧
      0x009 < (0x014 : Addr).toNat) ∧
    ((0x001 : Addr).toNat ≠ 0x000 ∧ (0x001 : Addr).toNat ≠ 0x003 ∧ (0x001 : Addr).toNat ≠ 0x009 ∧
      (∀ ch sb, hasCell (toyParams .one .four) ch sb = true →
        (0x001 : Addr).toNat ≠ 0x010 + 8 * ch.val + sb.val ∧ (0x001 : Addr).toNat ≠ 0x030 + 8 * ch.val + sb.val) ∧
      (frameA.withPending [.write 0x001 7]).pending = .write 0x001 7 :: []) :=
  ⟨by decide, by decide, by decide, by decide, by decide, rfl⟩

/-- HostWriteLegalizesHdr. -/
theorem witness_HostWriteLegalizesHdr :
    (frameA.withPending [.write 0x003 0x8FFE1234]).pending = .write 0x003 0x8FFE1234 :: [] := rfl

/-- HostWritesJoinSfSb: one write for each clause, the last cell of the instance. -/
theorem witness_HostWritesJoinSfSb :
    (hungA.withPending [.write 0x009 0xFFFFFFFF]).pending = .write 0x009 0xFFFFFFFF :: [] ∧
    hasCell hungA.params 0 3 = true ∧
    (hungA.withPending [.write 0x013 0xFFFFFFFF]).pending =
      .write (BitVec.ofNat 9 (0x010 + 8 * (0 : Fin 2).val + (3 : Fin 8).val)) 0xFFFFFFFF :: [] ∧
    (hungA.withPending [.write 0x033 0x80000000]).pending =
      .write (BitVec.ofNat 9 (0x030 + 8 * (0 : Fin 2).val + (3 : Fin 8).val)) 0x80000000 :: [] :=
  ⟨rfl, by decide, rfl, rfl⟩

/-- HostPushAppends. -/
theorem witness_HostPushAppends : (frameA.withPending [.push [1, 2]]).pending = .push [1, 2] :: [] := rfl

/-- ReadCommandsReturnTheNextBits: n out of range, all bits there, too few bits, for both commands. -/
theorem witness_ReadCommandsReturnTheNextBits :
    (atBits frameA 0xA5 5).stream.rem ≤ 7 ∧
    8 < (9 : Byte).toNat ∧ 16 < (17 : Byte).toNat ∧
    ((8 : Byte).toNat ≤ 8 ∧ (8 : Byte).toNat ≤ (atBits frameA 0xA5 5).stream.avail) ∧
    ((16 : Byte).toNat ≤ 16 ∧ (16 : Byte).toNat ≤ (atBits frameA 0xA5 5).stream.avail) ∧
    ((8 : Byte).toNat ≤ 8 ∧ (atBits (toy .one .four 0 []) 0xA5 7).stream.avail < (8 : Byte).toNat) ∧
    ((16 : Byte).toNat ≤ 16 ∧ (atBits (toy .one .four 0 [1]) 0xA5 7).stream.avail < (16 : Byte).toNat) := by
  decide

/-- ReadsSplitAtAnyBoundary: the split of 95_test_vectors.md B10. -/
theorem witness_ReadsSplitAtAnyBoundary :
    (atBits frameA 0xB7 3).stream.rem ≤ 7 ∧ (3 : Byte).toNat + (13 : Byte).toNat ≤ 16 ∧
    (3 : Byte).toNat + (13 : Byte).toNat ≤ (atBits frameA 0xB7 3).stream.avail ∧
    exec (.brRead16 3) (atBits frameA 0xB7 3) = .next (after (.brRead16 3) (atBits frameA 0xB7 3)) ∧
    exec (.brRead16 13) (after (.brRead16 3) (atBits frameA 0xB7 3)) =
      .next (after (.brRead16 13) (after (.brRead16 3) (atBits frameA 0xB7 3))) ∧
    exec (.brRead16 (3 + 13)) (atBits frameA 0xB7 3) = .next (after (.brRead16 (3 + 13)) (atBits frameA 0xB7 3)) ∧
    (3 : Byte).toNat ≤ (atBits frameA 0xB7 3).stream.rem :=
  ⟨by decide, by decide, by decide, eq_next (by decide), eq_next (by decide), eq_next (by decide), by decide⟩

/-- CrcBitsFoldsHighBits: the two sides of the bound. -/
theorem witness_CrcBitsFoldsHighBits : (7 : Byte).toNat ≤ 7 ∧ 7 < (8 : Byte).toNat := by decide

/-- CrcOfBytesIsCrcOfBits: a bit length that is no multiple of 8. -/
theorem witness_CrcOfBytesIsCrcOfBits : 11 ≤ 8 * ([0x5A, 0xA0] : List Byte).length ∧
    crc8 0x0F [0x5A, 0xA0] 11 = crcSeq 0x0F (([0x5A, 0xA0] : List Byte).flatMap byteBits |>.take 11) := by decide

/-- HdrDecodeOutcomes: three bytes at hand, and too few. -/
theorem witness_HdrDecodeOutcomes :
    (toy .one .four 0 [0x9C, 0x00, 0x18, 1]).stream.src = 0x9C :: 0x00 :: 0x18 :: [1] ∧
    (toy .one .four 0 [0x9C, 0x01]).stream.src.length < 3 := by decide

/-- HdrEncodeOutcomes: no header, the two modes. -/
theorem witness_HdrEncodeOutcomes : hdrV (toy .one .four 0 []).hdr = false ∧
    (hdrV frameA.hdr = true ∧ hdrMode frameA.hdr = false) ∧
    hdrV (toy .one .four 0x80010000 []).hdr = true ∧ hdrMode (toy .one .four 0x80010000 []).hdr = true := by decide

/-- HeaderRoundTrip. -/
theorem witness_HeaderRoundTrip : (toy .one .four 0x80000018 []).Inv ∧
    (toy .one .four 0x80000018 []).params.syncMsbc ≠ 0x9C ∧ hdrV (toy .one .four 0x80000018 []).hdr = true ∧
    exec .hdrEncode (toy .one .four 0x80000018 []) = .next (after .hdrEncode (toy .one .four 0x80000018 [])) :=
  ⟨toy_inv _ _ _, by decide, by decide, eq_next (by decide)⟩

/-- The effective header of the scenario frame. -/
def infoA : HdrInfo := ⟨0, some 4, .mono, .loudness, .four, 24⟩

/-- BitneedFollowsTheMethod: SNR, the special case of loudness, a positive value, a value of 0 (A13). -/
theorem witness_BitneedFollowsTheMethod :
    ({ infoA with alm := .snr } : HdrInfo).alm = .snr ∧
    (infoA.alm = .loudness ∧ ({ toyParams .one .four with loudnessSf0Minus5 := true }).loudnessSf0Minus5 = true ∧
      (0 : BitVec 4) = 0) ∧
    (¬((toyParams .one .four).loudnessSf0Minus5 = true ∧ (7 : BitVec 4) = 0) ∧
      0 < ((7 : BitVec 4).toNat : Int) - offset (toyParams .one .four) infoA.nsub infoA.freq 0) ∧
    ((1 : BitVec 4).toNat : Int) - offset (toyParams .one .four) infoA.nsub 3 3 ≤ 0 := by decide

/-- AllocRefusals: no header, a dual-channel header on one channel, a bitpool of 65. -/
theorem witness_AllocRefusals :
    hdrV (toy .one .four 0 []).hdr = false ∧
    (hdrInfo 0x8000041A = some ⟨0, some 4, .dual, .loudness, .four, 26⟩ ∧
      ¬(impliedChannels .dual = (toyParams .one .four).ch ∧ Subbands.four = (toyParams .one .four).sb)) ∧
    (hdrInfo 0x80000241 = some ⟨0, some 4, .mono, .snr, .four, 65⟩ ∧
      impliedChannels .mono = (toyParams .one .four).ch ∧ Subbands.four = (toyParams .one .four).sb ∧
      16 * scopeSize ⟨0, some 4, .mono, .snr, .four, 65⟩ < (65 : Byte).toNat) := by decide

/-- AllocSpendsTheWholeBitpool: mono, dual, stereo and joint headers at the largest bitpool of each. -/
theorem witness_AllocSpendsTheWholeBitpool :
    (hdrInfo 0x80000240 = some ⟨0, some 4, .mono, .snr, .four, 64⟩ ∧
      impliedChannels .mono = (toyParams .one .four).ch ∧
      (64 : Byte).toNat ≤ 16 * scopeSize ⟨0, some 4, .mono, .snr, .four, 64⟩) ∧
    (hdrInfo 0x80000640 = some ⟨0, some 4, .dual, .snr, .four, 64⟩ ∧
      impliedChannels .dual = (toyParams .two .four).ch ∧
      (64 : Byte).toNat ≤ 16 * scopeSize ⟨0, some 4, .dual, .snr, .four, 64⟩) ∧
    (hdrInfo 0x80000A80 = some ⟨0, some 4, .stereo, .snr, .four, 128⟩ ∧
      impliedChannels .stereo = (toyParams .two .four).ch ∧
      (128 : Byte).toNat ≤ 16 * scopeSize ⟨0, some 4, .stereo, .snr, .four, 128⟩) ∧
    (hdrInfo 0x80000E80 = some ⟨0, some 4, .joint, .snr, .four, 128⟩ ∧
      impliedChannels .joint = (toyParams .two .four).ch ∧
      (128 : Byte).toNat ≤ 16 * scopeSize ⟨0, some 4, .joint, .snr, .four, 128⟩) ∧
    Subbands.four = (toyParams .one .four).sb ∧ Subbands.four = (toyParams .two .four).sb := by decide

/-- AllocGivesEachCellItsWidth: a mono header and a joint-stereo header. -/
theorem witness_AllocGivesEachCellItsWidth :
    (hdrInfo 0x80000205 = some ⟨0, some 4, .mono, .snr, .four, 5⟩ ∧
      impliedChannels .mono = (toyParams .one .four).ch ∧ Subbands.four = (toyParams .one .four).sb ∧
      (5 : Byte).toNat ≤ 16 * scopeSize ⟨0, some 4, .mono, .snr, .four, 5⟩ ∧
      (0 : Fin 2).val < (toyParams .one .four).ch.toNat) ∧
    (hdrInfo 0x80000E80 = some ⟨0, some 4, .joint, .snr, .four, 128⟩ ∧
      impliedChannels .joint = (toyParams .two .four).ch ∧ Subbands.four = (toyParams .two .four).sb ∧
      (128 : Byte).toNat ≤ 16 * scopeSize ⟨0, some 4, .joint, .snr, .four, 128⟩) := by decide

/-- Vector A21 as `ScopeWidths` reads it: the threshold is 14, the first pass grants 2 and 2 bits, the second
pass gives the last bit to the first cell. -/
theorem test_scopeWidths : ScopeWidths 5 4 (fun _ => 15) fun k => [3, 2, 0, 0].getD k 0 := by
  refine ⟨14, fun _ => 0, fun k => [2, 2, 0, 0].getD k 0, fun k => [0, 2, 4, 4, 4].getD k 0,
    fun k => [4, 5, 5, 5, 5].getD k 0, ⟨⟨0, by decide⟩, by decide, ?_⟩, by decide, by decide, by decide,
    by decide, by decide⟩
  rintro T h ⟨_, _, hT⟩
  have hT : T ≤ 15 := hT
  obtain rfl : T = 15 := by omega
  decide

/-- SearchFindsTheLargestThreshold: the scenario frame's scope, whose bitslice is -4 (A1). -/
theorem witness_SearchFindsTheLargestThreshold : ([4, 2, 1, 0] : List Int) ≠ [] ∧
    24 ≤ 16 * ([4, 2, 1, 0] : List Int).length ∧ (search 24 [4, 2, 1, 0]).1 = -4 ∧
    (search 24 [4, 2, 1, 0]).1 < -3 ∧ -3 ≤ maxOf [4, 2, 1, 0] := by decide

/-- DequantRange: the extremes of R505. -/
theorem witness_DequantRange : (15 ≤ 15 ∧ 1 ≤ 16 ∧ 16 ≤ 16 ∧ 0 ≤ 65535 ∧ 65535 < 2 ^ 16) ∧
    (15 ≤ 15 ∧ 1 ≤ 1 ∧ 1 ≤ 16 ∧ 0 ≤ 1 ∧ 1 < 2 ^ 1) := by decide

/-- ReconOutcomes: the block is there, the block is cut short, a pair of cells with JOIN set. -/
theorem witness_ReconOutcomes :
    (blockA.stream.rem ≤ 7 ∧ blockBits blockA ≤ blockA.stream.avail ∧ hasCell blockA.params 0 3 = true ∧
      hasCell blockA.params 1 0 = false ∧ ¬(blockA.params.ch = .two ∧ blockA.join.getLsbD 3 = true)) ∧
    (blockA.withStream { buf := 0, rem := 0, src := [0x80, 0x41] }).stream.avail <
      blockBits (blockA.withStream { buf := 0, rem := 0, src := [0x80, 0x41] }) ∧
    (hasCell (toyParams .two .four) 1 2 = true ∧ (5 : BitVec 8).getLsbD 2 = true) := by decide

/-- ReconStaysInRange: the first block of the scenario frame. -/
theorem witness_ReconStaysInRange : blockA.Inv ∧ exec .recon blockA = .next (after .recon blockA) ∧
    (after .recon blockA).status.code = .ok ∧ hasCell blockA.params 0 3 = true :=
  ⟨blockA_inv, eq_next (by decide), by decide, by decide⟩

/-- A joint-stereo block (95_test_vectors.md Q14). -/
def blockJoint : State :=
  { toy .two .four 0 [0xA7, 0x70, 0x3E] with
    bits := mat 0 [[3, 3, 3, 3], [3, 3, 3, 3]], sf := mat 0 [[2, 2, 2, 2], [2, 2, 2, 2]], join := 5 }

/-- ReconStaysInRange: a cell whose mid/side is undone. -/
theorem witness_ReconStaysInRange_joint : blockJoint.Inv ∧
    exec .recon blockJoint = .next (after .recon blockJoint) ∧
    (after .recon blockJoint).status.code = .ok ∧ hasCell blockJoint.params 1 2 = true ∧
    blockJoint.join.getLsbD (2 : Fin 8) = true := by
  refine ⟨?_, eq_next (by decide), by decide, by decide, by decide⟩
  constructor <;> decide

/-- ReconIgnoresHeaderAndFrame: two states that differ in HDR and FRAME. -/
theorem witness_ReconIgnoresHeaderAndFrame :
    ((blockA.withHdr 0).idleFrame.params = blockA.params ∧ (blockA.withHdr 0).idleFrame.bits = blockA.bits ∧
      (blockA.withHdr 0).idleFrame.sf = blockA.sf ∧ (blockA.withHdr 0).idleFrame.join = blockA.join ∧
      (blockA.withHdr 0).idleFrame.stream = blockA.stream ∧ (blockA.withHdr 0).idleFrame.sb = blockA.sb) ∧
    exec .recon blockA = .next (after .recon blockA) ∧
    exec .recon (blockA.withHdr 0).idleFrame = .next (after .recon (blockA.withHdr 0).idleFrame) :=
  ⟨⟨rfl, rfl, rfl, rfl, rfl, rfl⟩, eq_next (by decide), eq_next (by decide)⟩

/-- HistoryStoreIsExactInRange: the TOY tables and samples at the bound of R66. -/
theorem witness_HistoryStoreIsExactInRange :
    (∀ k i, |cosCoeff (toyParams .one .four) k i| ≤ 2 ^ 16) ∧
    (∀ ch i, |((mat 0x00100000 [[BitVec.ofInt 32 (-(2 ^ 20))]] : Mat Word).get ch i).toInt| ≤ 2 ^ 20) ∧
    hasCell (toyParams .one .four) 0 3 = true := by decide

/-- SynthChannelsAreIndependent: two states that differ in the other channel's samples. -/
theorem witness_SynthChannelsAreIndependent :
    ((∀ k : Fin 8, ((toy .two .four 0 []).withSb (mat 0 [[1], [2]])).sb.get 0 k =
        ((toy .two .four 0 []).withSb (mat 0 [[1], [3]])).sb.get 0 k) ∧
      hasCell (toy .two .four 0 []).params 0 3 = true) ∧
    exec .synth ((toy .two .four 0 []).withSb (mat 0 [[1], [2]])) =
      .next (after .synth ((toy .two .four 0 []).withSb (mat 0 [[1], [2]]))) ∧
    exec .synth ((toy .two .four 0 []).withSb (mat 0 [[1], [3]])) =
      .next (after .synth ((toy .two .four 0 []).withSb (mat 0 [[1], [3]]))) :=
  ⟨⟨by decide, by decide⟩, rfl, rfl⟩

/-- The state after n SYNTH commands of blockA with SB all 0. -/
def silence : Nat → State
  | 0 => { toy .one .four 0 [] with
      hist := mat (Vector.replicate 10 0) [[Vector.replicate 10 5, Vector.replicate 10 7]] }
  | n + 1 => after .synth (silence n)

/-- TenZeroBlocksSilenceTheFilter: ten SYNTH commands from a history that is not 0. -/
theorem witness_TenZeroBlocksSilenceTheFilter :
    (∀ n < 10, exec .synth (silence n) = .next (silence (n + 1))) ∧
    (∀ ch sb, hasCell (silence 0).params ch sb = true → (silence 0).sb.get ch sb = 0) :=
  ⟨fun _ _ => rfl, by decide⟩

/-- The three refusals of a frame start: no header, a header of another shape, a source that runs empty. -/
theorem witness_FrameStartRefusals :
    hdrV (toy .one .four 0 [0x61]).hdr = false ∧
    (hdrInfo 0x8000041A = some ⟨0, some 4, .dual, .loudness, .four, 26⟩ ∧
      ¬(impliedChannels .dual = (toyParams .one .four).ch ∧ Subbands.four = (toyParams .one .four).sb)) ∧
    (hdrInfo 0x80000018 = some infoA ∧ impliedChannels infoA.chm = (toyParams .one .four).ch ∧
      infoA.nsub = (toyParams .one .four).sb ∧
      8 * (toy .one .four 0x80000018 [0x61, 0x75]).stream.src.length < (if true then 8 else 0) + sideBits infoA ∧
      8 * (toy .one .four 0x80000018 [0x75]).stream.src.length < (if false then 8 else 0) + sideBits infoA) := by
  decide

/-- The scenario frame with its CRC byte's last bit flipped (F-flip). -/
def frameBad : State := toy .one .four 0x80000018 [0x60, 0x75, 0x31]

/-- FrameStartDetectsChecksumMismatch. -/
theorem witness_FrameStartDetectsChecksumMismatch :
    hdrInfo frameBad.hdr = some infoA ∧ impliedChannels infoA.chm = frameBad.params.ch ∧
    infoA.nsub = frameBad.params.sb ∧ 8 + sideBits infoA ≤ 8 * frameBad.stream.src.length ∧
    frameBad.wireCrc infoA = 0x61 ∧
    frameBad.wireCrc infoA ≠ BitVec.ofNat 8 (valueOf (frameBad.wireBits.take 8)) := by decide

/-- The effective header of 0x80000241: a bitpool of 65 for four cells. -/
def infoHung : HdrInfo := ⟨0, some 4, .mono, .snr, .four, 65⟩

/-- A frame whose header's bitpool cannot be spent, with the right CRC byte in front of two SF bytes. -/
def frameHung : State := toy .one .four 0x80000241 [0xBD, 0x75, 0x31]

/-- FrameStartMayHang: both frame starts. -/
theorem witness_FrameStartMayHang :
    hdrInfo frameHung.hdr = some infoHung ∧ impliedChannels infoHung.chm = frameHung.params.ch ∧
    infoHung.nsub = frameHung.params.sb ∧ 16 * scopeSize infoHung < infoHung.bitpool.toNat ∧
    8 + sideBits infoHung ≤ 8 * frameHung.stream.src.length ∧
    frameHung.wireCrc infoHung = BitVec.ofNat 8 (valueOf (frameHung.wireBits.take 8)) ∧
    sideBits infoHung ≤ 8 * frameHung.stream.src.length := by decide

/-- FrameStartCompletes: both frame starts, on the scenario frame. -/
theorem witness_FrameStartCompletes :
    hdrInfo frameA.hdr = some infoA ∧ impliedChannels infoA.chm = frameA.params.ch ∧
    infoA.nsub = frameA.params.sb ∧ infoA.bitpool.toNat ≤ 16 * scopeSize infoA ∧
    8 + sideBits infoA ≤ 8 * frameA.stream.src.length ∧
    frameA.wireCrc infoA = BitVec.ofNat 8 (valueOf (frameA.wireBits.take 8)) ∧
    sideBits infoA ≤ 8 * frameA.stream.src.length := by decide

/-- The start of the scenario frame: CRC byte and scale factors. -/
def startA : State := toy .one .four 0x80000018 [0x61, 0x75, 0x31]

/-- SingleBitErrorIsRejected: the scenario frame is not rejected. -/
theorem witness_SingleBitErrorIsRejected :
    hdrInfo startA.hdr = some infoA ∧ impliedChannels infoA.chm = startA.params.ch ∧
    infoA.nsub = startA.params.sb ∧ 8 + sideBits infoA ≤ 8 * startA.stream.src.length ∧
    exec .frameStartCrc startA = .next (after .frameStartCrc startA) ∧
    (after .frameStartCrc startA).status.code ≠ .checksumMismatch :=
  ⟨by decide, by decide, by decide, by decide, eq_next (by decide), by decide⟩

/-- SingleBitErrorIsRejected, the wire: the CRC byte's last bit, and the last scale factor bit. -/
theorem witness_SingleBitErrorIsRejected_wire :
    (7 < 8 + sideBits infoA ∧ frameBad = startA.withStream frameBad.stream ∧
      frameBad.wireBits = startA.wireBits.set 7 (!startA.wireBits.getD 7 false)) ∧
    (23 < 8 + sideBits infoA ∧
      (toy .one .four 0x80000018 [0x61, 0x75, 0x30]).wireBits =
        startA.wireBits.set 23 (!startA.wireBits.getD 23 false)) :=
  ⟨⟨by decide, rfl, by decide⟩, by decide, by decide⟩

/-- SingleBitErrorIsRejected, the header: the first bit (FREQ) and the last bit (BITPOOL) of HDR[15:0]. -/
theorem witness_SingleBitErrorIsRejected_header :
    hdrMode startA.hdr = false ∧
    (15 < 16 ∧ hdrInfo (startA.hdr ^^^ BitVec.twoPow 32 15) = some { infoA with freq := 2 }) ∧
    (0 < 16 ∧ hdrInfo (startA.hdr ^^^ BitVec.twoPow 32 0) = some { infoA with bitpool := 25 }) := by decide

/-- Vector F-flip, byte 2 bit 7: a flip in the header's bitpool. -/
theorem test_header_flip :
    (after .frameStartCrc (startA.withHdr (startA.hdr ^^^ BitVec.twoPow 32 0))).crc =
      { acc := 0xEE, rx := 0x61 } := by decide

/-- NextBlockOutcomes: no frame, a block cut short, a block that is there. -/
theorem witness_NextBlockOutcomes :
    (frameA.stream.rem ≤ 7 ∧ frameA.frame.fstate ≠ .active) ∧
    ((blockA.withStream { buf := 0, rem := 0, src := [0x80, 0x41] }).frame.fstate = .active ∧
      (blockA.withStream { buf := 0, rem := 0, src := [0x80, 0x41] }).stream.avail <
        blockBits (blockA.withStream { buf := 0, rem := 0, src := [0x80, 0x41] })) ∧
    (blockA.stream.rem ≤ 7 ∧ blockA.frame.fstate = .active ∧ blockBits blockA ≤ blockA.stream.avail) := by decide

/-- FrameStateMachine: a block that is not the last, the last block, and no block left. -/
theorem witness_FrameStateMachine :
    (exec .frameNext blockA = .next (after .frameNext blockA) ∧ blockA.frame.fstate = .active ∧
      (after .frameNext blockA).status.code ≠ .underflow ∧ 2 ≤ blockA.frame.blocksLeft) ∧
    (exec .frameNext (blockA.withFrame { blockA.frame with blocksLeft := 1 }) =
        .next (after .frameNext (blockA.withFrame { blockA.frame with blocksLeft := 1 })) ∧
      (after .frameNext (blockA.withFrame { blockA.frame with blocksLeft := 1 })).frame.fstate = .exhausted) ∧
    exec .frameNext frameA = .next (after .frameNext frameA) ∧ frameA.frame.fstate ≠ .active :=
  ⟨⟨eq_next (by decide), by decide, by decide, by decide⟩, ⟨eq_next (by decide), by decide⟩,
    eq_next (by decide), by decide⟩

/-- The state after n steps of decoding the scenario-A frame. -/
def decoding : Nat → State
  | 0 => frameA
  | 1 => after .frameStartCrc frameA
  | n + 2 => after .frameNext (decoding (n + 1))

/-- FrameTakesExactlyItsBytes: the scenario-A frame, whose four blocks follow its start. -/
theorem witness_FrameTakesExactlyItsBytes :
    hdrInfo (decoding 0).hdr = some infoA ∧ exec .frameStartCrc (decoding 0) = .next (decoding 1) ∧
    (decoding 1).status.code = .ok ∧
    (∀ n < frameBlockCount infoA, exec .frameNext (decoding (n + 1)) = .next (decoding (n + 2)) ∧
      (decoding (n + 2)).status.code = .ok) := by
  refine ⟨by decide, eq_next (d := frameA) (by decide), by decide, ?_⟩
  have h : ∀ n < 4, isNext (exec .frameNext (decoding (n + 1))) = true ∧
      (decoding (n + 2)).status.code = .ok := by decide
  exact fun n hn => ⟨eq_next (d := decoding (n + 1)) (h n hn).1, (h n hn).2⟩

/-- ErrorsAreContained: a checksum mismatch. -/
theorem witness_ErrorsAreContained : exec .frameStartCrc frameBad = .next (after .frameStartCrc frameBad) ∧
    (after .frameStartCrc frameBad).status.code ≠ .ok := ⟨eq_next (by decide), by decide⟩

/-- CommandsWriteOnlyTheirRegisters: a command that writes a register. -/
theorem witness_CommandsWriteOnlyTheirRegisters :
    exec (.brRead8 3) frameA = .next (after (.brRead8 3) frameA) ∧
    (after (.brRead8 3) frameA).result ≠ frameA.result := ⟨eq_next (by decide), by decide⟩

/-- HistoryChangesOnlyInTheFilter: a SYNTH that changes slot CURSOR. -/
theorem witness_HistoryChangesOnlyInTheFilter :
    step (commanding ((toy .one .four 0 []).withSb (mat 9 [])) 0x60) =
      .next (afterStep (commanding ((toy .one .four 0 []).withSb (mat 9 [])) 0x60)) ∧
    ((afterStep (commanding ((toy .one .four 0 []).withSb (mat 9 [])) 0x60)).hist.get 0 3)[(0 : Fin 10)] ≠
      ((commanding ((toy .one .four 0 []).withSb (mat 9 [])) 0x60).hist.get 0 3)[(0 : Fin 10)] :=
  ⟨eq_next (by decide), by decide⟩

/-- The state after reset runs a command that the host writes next. -/
theorem test_reset_runs_command :
    (afterStep (State.reset.withFetchWord 32 0x00000F20)).crc = { acc := 0x0F, rx := 0 } := by decide

end Sys2Proof.Tests
end

section
/-! SUPPORT. The register map read backwards (R52, R69, R70): every register has one address, and an
address holds a register exactly when it is that register's and the configuration has the cell. -/

namespace Sys2Proof.Machine

/-- The word address of a register (R52). -/
def Reg.addr : Reg → Nat
  | .cmd => 0x000
  | .status => 0x001
  | .config => 0x002
  | .hdr => 0x003
  | .hdrInfo => 0x004
  | .result => 0x005
  | .crc => 0x006
  | .br => 0x007
  | .frame => 0x008
  | .join => 0x009
  | .sf ch b => 0x010 + 8 * ch.val + b.val
  | .bits ch b => 0x020 + 8 * ch.val + b.val
  | .sb ch b => 0x030 + 8 * ch.val + b.val
  | .pcm ch j => 0x040 + 8 * ch.val + j.val
  | .hist ch k t => 0x100 + 80 * ch.val + 10 * k.val + t.val

/-- The register exists: always for a named one, for a cell where the configuration has it (R70). -/
def Reg.present (p : Params) : Reg → Bool
  | .sf ch b | .bits ch b | .sb ch b | .pcm ch b | .hist ch b _ => hasCell p ch b
  | .cmd | .status | .config | .hdr | .hdrInfo | .result | .crc | .br | .frame | .join => true

variable {p : Params} {s : State} {a : Addr} {r : Reg}

/-- A block of cells: the register at an address is the cell the address stands for. -/
theorem cellAt_eq_some {base n : Nat} {f : Fin 2 → Fin 8 → Reg} (hn : base ≤ n ∧ n ≤ base + 15)
    (h : cellAt p (n - base) f = some r) :
    ∃ ch b, hasCell p ch b = true ∧ n = base + 8 * ch.val + b.val ∧ r = f ch b := by
  unfold cellAt at h
  split at h
  · refine ⟨_, _, ‹_›, ?_, (Option.some.inj h).symm⟩
    simp only [Fin.val_ofNat]
    omega
  · cases h

/-- A block of cells: a cell of the configuration stands at its offset. -/
theorem cellAt_cell (f : Fin 2 → Fin 8 → Reg) {ch : Fin 2} {b : Fin 8}
    (h : hasCell p ch b = true) : cellAt p (8 * ch.val + b.val) f = some (f ch b) := by
  have hch : Fin.ofNat 2 ((8 * ch.val + b.val) / 8) = ch :=
    Fin.ext (by simp only [Fin.val_ofNat]; omega)
  have hb : Fin.ofNat 8 (8 * ch.val + b.val) = b := Fin.ext (by simp only [Fin.val_ofNat]; omega)
  rw [cellAt, hch, hb, if_pos h]

/-- What stands at an address is that address's register, and the configuration has it. -/
theorem regAt_eq_some (h : regAt p a = some r) : a.toNat = r.addr ∧ r.present p = true := by
  unfold regAt at h
  split at h
  case h_11 =>
    split_ifs at h
    · obtain ⟨ch, b, hc, ho, rfl⟩ := cellAt_eq_some ‹_› h
      exact ⟨ho, hc⟩
    · obtain ⟨ch, b, hc, ho, rfl⟩ := cellAt_eq_some ‹_› h
      exact ⟨ho, hc⟩
    · obtain ⟨ch, b, hc, ho, rfl⟩ := cellAt_eq_some ‹_› h
      exact ⟨ho, hc⟩
    · obtain ⟨ch, b, hc, ho, rfl⟩ := cellAt_eq_some ‹_› h
      exact ⟨ho, hc⟩
    · cases h
      exact ⟨by simp only [Reg.addr, Fin.val_ofNat]; omega, ‹_›⟩
  all_goals
    cases h
    exact ⟨‹a.toNat = _›, rfl⟩

/-- Above the named registers only the blocks of cells hold registers. -/
theorem regAt_of_ten_le (h : 10 ≤ a.toNat) : regAt p a =
    if 0x010 ≤ a.toNat ∧ a.toNat ≤ 0x01F then cellAt p (a.toNat - 0x010) .sf
    else if 0x020 ≤ a.toNat ∧ a.toNat ≤ 0x02F then cellAt p (a.toNat - 0x020) .bits
    else if 0x030 ≤ a.toNat ∧ a.toNat ≤ 0x03F then cellAt p (a.toNat - 0x030) .sb
    else if 0x040 ≤ a.toNat ∧ a.toNat ≤ 0x04F then cellAt p (a.toNat - 0x040) .pcm
    else if 0x100 ≤ a.toNat ∧ a.toNat ≤ 0x19F then
      if hasCell p (Fin.ofNat 2 ((a.toNat - 0x100) / 80))
          (Fin.ofNat 8 ((a.toNat - 0x100) % 80 / 10)) then
        some (.hist (Fin.ofNat 2 ((a.toNat - 0x100) / 80))
          (Fin.ofNat 8 ((a.toNat - 0x100) % 80 / 10)) (Fin.ofNat 10 (a.toNat - 0x100)))
      else none
    else none := by
  unfold regAt
  split
  case h_11 => rfl
  all_goals omega

/-- A register that the configuration has stands at its address. -/
theorem regAt_addr (ha : a.toNat = r.addr) (hr : r.present p = true) : regAt p a = some r := by
  cases r with
  | sf ch b =>
    simp only [Reg.addr] at ha
    have ho : a.toNat - 0x010 = 8 * ch.val + b.val := by omega
    rw [regAt_of_ten_le (by omega), if_pos (by omega), ho, cellAt_cell _ hr]
  | bits ch b =>
    simp only [Reg.addr] at ha
    have ho : a.toNat - 0x020 = 8 * ch.val + b.val := by omega
    rw [regAt_of_ten_le (by omega), if_neg (by omega), if_pos (by omega), ho, cellAt_cell _ hr]
  | sb ch b =>
    simp only [Reg.addr] at ha
    have ho : a.toNat - 0x030 = 8 * ch.val + b.val := by omega
    rw [regAt_of_ten_le (by omega), if_neg (by omega), if_neg (by omega), if_pos (by omega), ho,
      cellAt_cell _ hr]
  | pcm ch j =>
    simp only [Reg.addr] at ha
    have ho : a.toNat - 0x040 = 8 * ch.val + j.val := by omega
    rw [regAt_of_ten_le (by omega), if_neg (by omega), if_neg (by omega), if_neg (by omega),
      if_pos (by omega), ho, cellAt_cell _ hr]
  | hist ch k t =>
    simp only [Reg.addr] at ha
    have hch : Fin.ofNat 2 ((a.toNat - 0x100) / 80) = ch :=
      Fin.ext (by simp only [Fin.val_ofNat]; omega)
    have hk : Fin.ofNat 8 ((a.toNat - 0x100) % 80 / 10) = k :=
      Fin.ext (by simp only [Fin.val_ofNat]; omega)
    have ht : Fin.ofNat 10 (a.toNat - 0x100) = t := Fin.ext (by simp only [Fin.val_ofNat]; omega)
    rw [regAt_of_ten_le (by omega), if_neg (by omega), if_neg (by omega), if_neg (by omega),
      if_neg (by omega), if_pos (by omega), hch, hk, ht]
    exact if_pos hr
  | _ =>
    rw [regAt, ha]
    rfl

/-- An address that is no register's of the configuration holds none (R69, R70). -/
theorem regAt_eq_none (h : ∀ r : Reg, r.present p = true → a.toNat ≠ r.addr) : regAt p a = none := by
  cases hr : regAt p a with
  | none => rfl
  | some r => exact absurd (regAt_eq_some hr).1 (h r (regAt_eq_some hr).2)

/-- The host reads a register of the configuration at its address (R151). -/
theorem regRead_addr (ha : a.toNat = r.addr) (hr : r.present s.params = true) :
    regRead s a = regValue s r := by
  rw [regRead, regAt_addr ha hr]

/-- An address that holds no register reads 0 (R69, R70). -/
theorem regRead_of_none (h : regAt s.params a = none) : regRead s a = 0 := by
  rw [regRead, h]

/-- The registers a host write reaches: HDR, JOIN and the cells of SF and SB (R152). -/
def Reg.hostWritable : Reg → Bool
  | .hdr | .join | .sf _ _ | .sb _ _ => true
  | .cmd | .status | .config | .hdrInfo | .result | .crc | .br | .frame | .bits _ _ | .pcm _ _
  | .hist _ _ _ => false

/-- A host write at an address that holds no writable register is ignored (R69). -/
theorem regWrite_ignored {v : Word}
    (h : ∀ r, regAt s.params a = some r → r.hostWritable = false) : regWrite s a v = s := by
  cases hr : regAt s.params a with
  | none => rw [regWrite, hr]
  | some r =>
    have hw := h r hr
    cases r with
    | hdr | join | sf ch b | sb ch b => cases hw
    | _ => rw [regWrite, hr]

/-- Everything a host write can do (R152): it is ignored, or it writes HDR, JOIN or a cell of SF or SB. -/
theorem regWrite_cases (s : State) (a : Addr) (v : Word) :
    regWrite s a v = s ∨ regWrite s a v = s.withHdr (legalHdr v) ∨
    regWrite s a v = s.withJoin (legalJoin s.params v) ∨
    (∃ ch b, hasCell s.params ch b = true ∧
      regWrite s a v = s.withSf (s.sf.set ch b (v.extractLsb' 0 4))) ∨
    ∃ ch b, hasCell s.params ch b = true ∧ regWrite s a v = s.withSb (s.sb.set ch b v) := by
  cases hr : regAt s.params a with
  | none => exact .inl (by rw [regWrite, hr])
  | some r =>
    have hp := (regAt_eq_some hr).2
    cases r with
    | hdr => exact .inr (.inl (by rw [regWrite, hr]))
    | join => exact .inr (.inr (.inl (by rw [regWrite, hr])))
    | sf ch b => exact .inr (.inr (.inr (.inl ⟨ch, b, hp, by rw [regWrite, hr]⟩)))
    | sb ch b => exact .inr (.inr (.inr (.inr ⟨ch, b, hp, by rw [regWrite, hr]⟩)))
    | _ => exact .inl (by rw [regWrite, hr])

end Sys2Proof.Machine
end

section
/-! SUPPORT. The fields of a register value (R53 to R63), and what the host reads at the register map. -/

namespace Sys2Proof.Machine

/-! ### Fields of a register value -/

/-- The bits of a field stand from its position on. -/
theorem getLsbD_field (lo v i : Nat) :
    (field lo v).getLsbD i = (decide (i < 32) && !decide (i < lo) && v.testBit (i - lo)) := by
  rw [field, BitVec.getLsbD_shiftLeft, BitVec.getLsbD_ofNat]
  by_cases h : i < 32
  · have : i - lo < 32 := by omega
    simp only [h, this, decide_true, Bool.true_and]
  · simp only [h, decide_false, Bool.false_and]

/-- Read at its own position a field is its value. -/
@[simp] theorem extractLsb'_field_self {lo v n : Nat} (h : lo + n ≤ 32) :
    (field lo v).extractLsb' lo n = BitVec.ofNat n v := by
  apply BitVec.eq_of_getLsbD_eq
  intro i hi
  have : lo + i < 32 := by omega
  simp only [BitVec.getLsbD_extractLsb', getLsbD_field, BitVec.getLsbD_ofNat, hi, this,
    Nat.not_lt.mpr (Nat.le_add_right lo i), decide_true, decide_false, Bool.not_false,
    Bool.true_and, Nat.add_sub_cancel_left]

/-- A field that ends below the bits read does not reach them. -/
@[simp] theorem extractLsb'_field_of_lt {lo v i n : Nat} (h : v < 2 ^ (i - lo)) :
    (field lo v).extractLsb' i n = 0#n := by
  apply BitVec.eq_of_getLsbD_eq
  intro j _
  have hv : v < 2 ^ (i + j - lo) := h.trans_le (Nat.pow_le_pow_right (by decide) (by omega))
  simp only [BitVec.getLsbD_extractLsb', getLsbD_field, Nat.testBit_lt_two_pow hv, Bool.and_false,
    BitVec.getLsbD_zero]

/-- A field that begins above the bits read does not reach them. -/
@[simp] theorem extractLsb'_field_of_le {lo v i n : Nat} (h : i + n ≤ lo) :
    (field lo v).extractLsb' i n = 0#n := by
  apply BitVec.eq_of_getLsbD_eq
  intro j hj
  have : i + j < lo := by omega
  simp only [BitVec.getLsbD_extractLsb', getLsbD_field, this, decide_true, Bool.not_true,
    Bool.and_false, Bool.false_and, BitVec.getLsbD_zero]

/-- A single bit, read as a field of width one. -/
theorem getLsbD_eq_extractLsb' {w : Nat} (x : BitVec w) (i : Nat) :
    x.getLsbD i = (x.extractLsb' i 1).getLsbD 0 := by
  rw [BitVec.getLsbD_extractLsb', Nat.add_zero]
  rfl

theorem codeNumber_lt (c : StatusCode) : codeNumber c < 2 ^ 4 := by
  cases c <;> decide

theorem frameStateNumber_lt (f : FrameState) : frameStateNumber f < 2 ^ 2 := by
  cases f <;> decide

/-- STATUS, field by field (R54). -/
theorem statusWord_fields (st : Status) :
    ((statusWord st).extractLsb' 0 4).toNat = codeNumber st.code ∧
    (statusWord st).extractLsb' 4 4 = 0 ∧ (statusWord st).extractLsb' 8 8 = st.lastop ∧
    (statusWord st).getLsbD 16 = st.hung ∧ (statusWord st).extractLsb' 17 15 = 0 := by
  have hcode := codeNumber_lt st.code
  have hop := st.lastop.isLt
  have hbool := Bool.toNat_lt st.hung
  rw [getLsbD_eq_extractLsb']
  simp (disch := omega) [statusWord, BitVec.extractLsb'_or, Nat.mod_eq_of_lt]
  cases st.hung <;> simp

/-- CONFIG, field by field (R55). -/
theorem configWord_fields (p : Params) :
    ((configWord p).extractLsb' 0 2).toNat = p.ch.toNat ∧ (configWord p).extractLsb' 2 2 = 0 ∧
    ((configWord p).extractLsb' 4 4).toNat = p.sb.toNat ∧ (configWord p).extractLsb' 8 24 = 0 := by
  unfold configWord
  cases p.ch <;> cases p.sb <;> decide

/-- CRC, field by field (R60). -/
theorem crcWord_fields (c : CrcReg) :
    (crcWord c).extractLsb' 0 8 = c.acc ∧ (crcWord c).extractLsb' 8 8 = c.rx ∧
    (crcWord c).extractLsb' 16 16 = 0 := by
  have hacc := c.acc.isLt
  have hrx := c.rx.isLt
  simp (disch := omega) [crcWord, BitVec.extractLsb'_or]

/-- BR, field by field, between commands (R61). -/
theorem brWord_fields (st : Stream) (hrem : st.rem ≤ 7) :
    (brWord st).extractLsb' 0 8 = st.buf ∧ ((brWord st).extractLsb' 8 4).toNat = st.rem ∧
    (brWord st).extractLsb' 12 20 = 0 := by
  have hbuf := st.buf.isLt
  simp (disch := omega) [brWord, BitVec.extractLsb'_or, Nat.mod_eq_of_lt]

/-- FRAME, field by field, with its counters in their range (R62). -/
theorem frameWord_fields (f : Frame) (hleft : f.blocksLeft ≤ 16) (hblocks : f.frameBlocks ≤ 16) :
    ((frameWord f).extractLsb' 0 2).toNat = frameStateNumber f.fstate ∧
    (frameWord f).extractLsb' 2 6 = 0 ∧ ((frameWord f).extractLsb' 8 5).toNat = f.blocksLeft ∧
    (frameWord f).extractLsb' 13 3 = 0 ∧ ((frameWord f).extractLsb' 16 4).toNat = f.cursor.val ∧
    (frameWord f).extractLsb' 20 4 = 0 ∧ ((frameWord f).extractLsb' 24 5).toNat = f.frameBlocks ∧
    (frameWord f).extractLsb' 29 3 = 0 := by
  have hstate := frameStateNumber_lt f.fstate
  have hcursor := f.cursor.isLt
  simp (disch := omega) [frameWord, BitVec.extractLsb'_or, Nat.mod_eq_of_lt]

/-! ### The header's codes -/

theorem chmCode_hdrChm (hdr : Word) : chmCode (hdrChm hdr) = (hdr.extractLsb' 10 2).toNat := by
  unfold hdrChm
  generalize hdr.extractLsb' 10 2 = x
  revert x
  decide

theorem impliedChannels_hdrChm (hdr : Word) :
    (impliedChannels (hdrChm hdr)).toNat = if hdr.extractLsb' 10 2 = 0 then 1 else 2 := by
  unfold hdrChm
  generalize hdr.extractLsb' 10 2 = x
  revert x
  decide

theorem almCode_hdrAlm (hdr : Word) : almCode (hdrAlm hdr) = (hdr.getLsbD 9).toNat := by
  unfold hdrAlm
  cases hdr.getLsbD 9 <;> rfl

theorem hdrSbs_toNat (hdr : Word) :
    (hdrSbs hdr).toNat = 4 * ((hdr.extractLsb' 8 1).toNat + 1) := by
  rw [hdrSbs, getLsbD_eq_extractLsb']
  generalize hdr.extractLsb' 8 1 = x
  revert x
  decide

/-- The effective header in the parameterized mode (R405). -/
theorem hdrInfo_parameterized {hdr : Word} (hv : hdrV hdr = true) (hm : hdrMode hdr = false) :
    hdrInfo hdr = some { freq := hdrFreq hdr, blocks := some (4 * ((hdrBlk hdr).toNat + 1)),
                         chm := hdrChm hdr, alm := hdrAlm hdr, nsub := hdrSbs hdr,
                         bitpool := hdrByte2 hdr } := by
  simp only [hdrInfo, hv, hm, Bool.true_eq_false, if_true, if_false]

/-- The effective header in the fixed mode (R405). -/
theorem hdrInfo_fixed {hdr : Word} (hv : hdrV hdr = true) (hm : hdrMode hdr = true) :
    hdrInfo hdr = some { freq := 0, blocks := none, chm := .mono, alm := .loudness, nsub := .eight,
                         bitpool := Config.msbcBitpool } := by
  simp only [hdrInfo, hv, hm, Bool.true_eq_false, if_false]

/-- HDR_INFO in the parameterized mode, field by field (R58, R405). -/
theorem hdrInfoWord_parameterized_fields (hdr : Word) {w : Word} (hv : hdrV hdr = true)
    (hm : hdrMode hdr = false) (hw : w = hdrInfoWord (hdrInfo hdr)) :
    w.extractLsb' 0 2 = hdr.extractLsb' 14 2 ∧
    (w.extractLsb' 2 5).toNat = 4 * ((hdr.extractLsb' 12 2).toNat + 1) ∧
    w.getLsbD 7 = false ∧ w.extractLsb' 8 2 = hdr.extractLsb' 10 2 ∧
    w.getLsbD 10 = hdr.getLsbD 9 ∧
    (w.extractLsb' 11 4).toNat = 4 * ((hdr.extractLsb' 8 1).toNat + 1) ∧
    w.getLsbD 15 = false ∧ w.extractLsb' 16 8 = hdr.extractLsb' 0 8 ∧
    (w.extractLsb' 24 2).toNat = (if hdr.extractLsb' 10 2 = 0 then 1 else 2) ∧
    w.extractLsb' 26 5 = 0 ∧ w.getLsbD 31 = true := by
  subst hw
  have hfreq := (hdr.extractLsb' 14 2).isLt
  have hblk := (hdr.extractLsb' 12 2).isLt
  have hchm := (hdr.extractLsb' 10 2).isLt
  have halm := Bool.toNat_lt (hdr.getLsbD 9)
  have hsbs := (hdr.extractLsb' 8 1).isLt
  have hpool := (hdr.extractLsb' 0 8).isLt
  have hch : (if hdr.extractLsb' 10 2 = 0 then 1 else 2) ≤ 2 := by split <;> decide
  rw [hdrInfo_parameterized hv hm]
  simp only [getLsbD_eq_extractLsb' _ 7, getLsbD_eq_extractLsb' _ 10, getLsbD_eq_extractLsb' _ 15,
    getLsbD_eq_extractLsb' _ 31, hdrInfoWord, chmCode_hdrChm, almCode_hdrAlm, hdrSbs_toNat,
    impliedChannels_hdrChm, hdrFreq, hdrBlk, hdrByte2, Option.getD_some, Option.isNone_some,
    Bool.toNat_false, BitVec.val_toFin]
  simp (disch := omega) only [BitVec.extractLsb'_or, extractLsb'_field_self,
    extractLsb'_field_of_lt, extractLsb'_field_of_le, BitVec.or_zero, BitVec.zero_or,
    BitVec.toNat_ofNat, Nat.mod_eq_of_lt, BitVec.ofNat_toNat, BitVec.setWidth_eq]
  cases hdr.getLsbD 9 <;> decide

/-! ### What the host reads and writes -/

/-- Settles O17: each register is read at its address and is the word of its fields. -/
theorem namedRegistersReadTheirFields : Obligations.NamedRegistersReadTheirFields := by
  intro s hs
  have hblocks : s.frame.frameBlocks ≤ 16 := by
    have := hs.frameBlocks_range
    omega
  have hleft : s.frame.blocksLeft ≤ 16 := hs.blocksLeft_le.trans hblocks
  have hstatus : regRead s 0x001 = statusWord s.status := regRead_addr (r := .status) rfl rfl
  have hconfig : regRead s 0x002 = configWord s.params := regRead_addr (r := .config) rfl rfl
  have hcrc : regRead s 0x006 = crcWord s.crc := regRead_addr (r := .crc) rfl rfl
  have hbr : regRead s 0x007 = brWord s.stream := regRead_addr (r := .br) rfl rfl
  have hframe : regRead s 0x008 = frameWord s.frame := regRead_addr (r := .frame) rfl rfl
  obtain ⟨t1, t2, t3, t4, t5⟩ := statusWord_fields s.status
  obtain ⟨g1, g2, g3, g4⟩ := configWord_fields s.params
  obtain ⟨c1, c2, c3⟩ := crcWord_fields s.crc
  obtain ⟨b1, b2, b3⟩ := brWord_fields s.stream hs.rem_le
  obtain ⟨f1, f2, f3, f4, f5, f6, f7, f8⟩ := frameWord_fields s.frame hleft hblocks
  rw [hstatus, hconfig, hcrc, hbr, hframe]
  exact ⟨regRead_addr (r := .cmd) rfl rfl, t1, t2, t3, t4, t5, g1, g2, g3, g4,
    regRead_addr (r := .hdr) rfl rfl, regRead_addr (r := .result) rfl rfl, c1, c2, c3, b1, b2, b3,
    f1, f2, f3, f4, f5, f6, f7, f8, regRead_addr (r := .join) rfl rfl⟩

/-- Settles O18: the effective header of each mode, its fields placed in the word. -/
theorem hdrInfoReportsTheHeader : Obligations.HdrInfoReportsTheHeader := by
  intro s
  have hread : regRead s 0x004 = hdrInfoWord (hdrInfo s.hdr) := regRead_addr (r := .hdrInfo) rfl rfl
  refine ⟨fun hv => ?_, fun hv hm => ?_, fun hv hm => ?_⟩
  · rw [hread, (hdrInfo_eq_none_iff s.hdr).mpr hv]
    rfl
  · obtain ⟨h1, h2, h3, h4, h5, h6, h7, h8, h9, h10, h11⟩ :=
      hdrInfoWord_parameterized_fields s.hdr hv hm hread
    exact ⟨h1, h2, h3, h4, h5, h6, h7, h8, h9, h10, h11, _, hdrInfo_parameterized hv hm, rfl⟩
  · rw [hread, hdrInfo_fixed hv hm]
    exact ⟨by decide, _, rfl, rfl⟩

/-- Settles O19: each cell of the configuration is read at its address. -/
theorem cellRegistersReadTheirCells : Obligations.CellRegistersReadTheirCells := by
  intro s ch b hc
  have haddr : ∀ n < 512, (BitVec.ofNat 9 n).toNat = n := fun n hn => Nat.mod_eq_of_lt hn
  refine ⟨?_, ?_, ?_, ?_, fun t => ?_⟩
  · exact regRead_addr (r := .sf ch b) (haddr _ (by omega)) hc
  · exact regRead_addr (r := .bits ch b) (haddr _ (by omega)) hc
  · exact regRead_addr (r := .sb ch b) (haddr _ (by omega)) hc
  · have hread : regRead s (BitVec.ofNat 9 (0x040 + 8 * ch.val + b.val)) = (s.pcm.get ch b).signExtend 32 :=
      regRead_addr (r := .pcm ch b) (haddr _ (by omega)) hc
    rw [hread, BitVec.toInt_signExtend_of_le (by decide)]
  · exact regRead_addr (r := .hist ch b t) (haddr _ (by omega)) hc

/-- Settles O20: by the map read backwards, such an address holds no register, or no writable one. -/
theorem otherAddressesAreInert : Obligations.OtherAddressesAreInert := by
  intro s a v rest
  refine ⟨fun hcell hnamed => ?_, fun h0 h3 h9 hcell hp => ?_⟩
  · have hnone : regAt s.params a = none := by
      refine regAt_eq_none fun r hr => ?_
      cases r with
      | sf ch b => obtain ⟨hsf, -, -, -, -⟩ := hcell ch b hr; exact hsf
      | bits ch b => obtain ⟨-, hbits, -, -, -⟩ := hcell ch b hr; exact hbits
      | sb ch b => obtain ⟨-, -, hsb, -, -⟩ := hcell ch b hr; exact hsb
      | pcm ch j => obtain ⟨-, -, -, hpcm, -⟩ := hcell ch j hr; exact hpcm
      | hist ch k t => obtain ⟨-, -, -, -, hhist⟩ := hcell ch k hr; exact hhist t
      | _ => simp only [Reg.addr]; omega
    have hread := regRead_of_none hnone
    exact ⟨hread, fun hp => by rw [step_read hp, hread]⟩
  · have hcmd : a ≠ 0 := fun h => h0 (by rw [h]; rfl)
    rw [step_write hcmd hp, regWrite_ignored]
    intro r hr
    obtain ⟨ha, hpres⟩ := regAt_eq_some hr
    cases r with
    | hdr => exact absurd ha h3
    | join => exact absurd ha h9
    | sf ch b => exact absurd ha (hcell ch b hpres).1
    | sb ch b => exact absurd ha (hcell ch b hpres).2
    | _ => rfl

/-! ### The value HDR takes at a host write (R57) -/

theorem legalHdr_v (v : Word) : (legalHdr v).getLsbD 31 = v.getLsbD 31 := by
  rw [legalHdr, BitVec.getLsbD_append, if_neg (by decide), BitVec.getLsbD_append,
    if_neg (by decide), BitVec.getLsbD_append, if_neg (by decide), BitVec.getLsbD_extractLsb']
  rfl

theorem legalHdr_mode (v : Word) : hdrMode (legalHdr v) = hdrMode v := by
  rw [hdrMode, legalHdr, BitVec.getLsbD_append, if_neg (by decide), BitVec.getLsbD_append,
    if_pos (by decide), BitVec.getLsbD_extractLsb']
  rfl

theorem legalHdr_reserved (v : Word) : (legalHdr v).extractLsb' 17 14 = 0 := by
  rw [legalHdr, BitVec.extractLsb'_append_eq_of_le (by decide),
    BitVec.extractLsb'_append_eq_of_le (by decide), BitVec.extractLsb'_append_eq_of_add_le (by decide)]
  decide

theorem legalHdr_fields (v : Word) :
    (legalHdr v).extractLsb' 0 16 = if v.getLsbD 16 then 0 else v.extractLsb' 0 16 := by
  rw [legalHdr, BitVec.extractLsb'_append_eq_of_add_le (by decide), BitVec.extractLsb'_eq_self]
  rfl

/-- Settles O21: the write takes effect as `legalHdr`, whose bits are read off its parts. -/
theorem hostWriteLegalizesHdr : Obligations.HostWriteLegalizesHdr := by
  intro s v rest hp
  have hat : regAt s.params 0x003 = some .hdr := regAt_addr rfl rfl
  refine ⟨legalHdr v, ?_, legalHdr_v v, legalHdr_reserved v, legalHdr_mode v, legalHdr_fields v⟩
  rw [step_write (by decide) hp, regWrite, withPending_params, hat]

end Sys2Proof.Machine
end

section
/-! SUPPORT. What one step can do, case by case of the host's access, and what each command leaves
unchanged (R56, R59 to R68, R704). -/

namespace Sys2Proof.Machine

variable {s t : State}

/-! ### One step -/

/-- A step is one access of the host, with its guards (R50, R151 to R153, R200, R203, R704, R800). -/
theorem step_cases (h : step s = .next t) :
    (s.pending = [] ∧ t = s) ∨
    (∃ v rest, s.nextCommand v rest ∧
      ((s.status.hung = true ∧ t = s.withPending rest) ∨
        (s.status.hung = false ∧
          ((∃ i, decode v = .ok i ∧ exec i ((s.withPending rest).withLastop (opOf v)) = .next t) ∨
            ∃ e, decode v = .error e ∧
              t = ((s.withPending rest).withLastop (opOf v)).withCode .badCommand)))) ∨
    (∃ a v rest, s.pending = .write a v :: rest ∧ a ≠ 0 ∧ t = regWrite (s.withPending rest) a v) ∨
    (∃ a rest, s.pending = .read a :: rest ∧
      t = (s.withPending rest).withReadData (regRead s a)) ∨
    (∃ bytes rest, s.pending = .push bytes :: rest ∧
      t = (s.withPending rest).withStream { s.stream with src := s.stream.src ++ bytes }) ∨
    ∃ src rest, s.pending = .reset src :: rest ∧
      t = ((State.resetOf s.params src).withPending rest).withReadData s.readData := by
  rcases hp : s.pending with _ | ⟨_ | _ | bytes | src, rest⟩
  · simp only [step, hp] at h
    exact .inl ⟨rfl, (Host.Outcome.next.inj h).symm⟩
  case cons.write a v =>
    by_cases ha : a = 0
    · subst ha
      refine .inr (.inl ⟨v, rest, hp, ?_⟩)
      rw [step_command hp] at h
      cases hh : s.status.hung with
      | true =>
        rw [hh, if_pos rfl] at h
        exact .inl ⟨rfl, (Host.Outcome.next.inj h).symm⟩
      | false =>
        rw [hh, if_neg Bool.false_ne_true] at h
        refine .inr ⟨rfl, ?_⟩
        cases hd : decode v with
        | ok i =>
          rw [hd] at h
          exact .inl ⟨i, rfl, h⟩
        | error e =>
          rw [hd] at h
          exact .inr ⟨e, rfl, finish_next h⟩
    · rw [step_write ha hp] at h
      exact .inr (.inr (.inl ⟨a, v, rest, rfl, ha, (Host.Outcome.next.inj h).symm⟩))
  case cons.read a =>
    rw [step_read hp] at h
    exact .inr (.inr (.inr (.inl ⟨a, rest, rfl, (Host.Outcome.next.inj h).symm⟩)))
  case cons.push =>
    rw [step_cons hp] at h
    exact .inr (.inr (.inr (.inr (.inl ⟨bytes, rest, rfl, (Host.Outcome.next.inj h).symm⟩))))
  case cons.reset =>
    rw [step_reset hp] at h
    exact .inr (.inr (.inr (.inr (.inr ⟨src, rest, rfl, (Host.Outcome.next.inj h).symm⟩))))

/-- Settles O6: outside the hung state the word is decoded and the command runs. -/
theorem stepRunsDecodedCommand : Obligations.StepRunsDecodedCommand := by
  intro s v rest i hp hh hd
  rw [step_command hp, hh, if_neg Bool.false_ne_true, hd]
  rfl

/-- Settles O7: a step takes the next access of the host, and there is none. -/
theorem idleCoreWaits : Obligations.IdleCoreWaits := by
  intro s hp
  rw [step, hp]

/-! ### What a frame start and an allocation can do -/

/-- The joint bitmap, the scale factors and the CRC byte that a frame start takes are cut off the source's
bits, and it ends between two commands' positions (R601, R61). -/
theorem readFrameFields_emptied {withCrc : Bool} {info : HdrInfo} {f : FrameFields} {st q : Stream}
    (h : readFrameFields withCrc info q.emptied = (some f, st)) :
    f = frameFieldsOf withCrc info (q.src.flatMap byteBits) ∧ st.rem ≤ 7 := by
  rw [readFrameFields_spec _ _ _ (Nat.zero_le 7)] at h
  split at h
  · obtain ⟨hf, rfl⟩ := Prod.mk.inj h
    exact ⟨by rw [← Option.some.inj hf, emptied_pendingBits], advance_rem_le _ _ (Nat.zero_le 7)⟩
  · cases h

/-- A frame start (R601): no header; a header of another shape; a source that runs empty; or, with the frame
state IDLE, the fields taken and CRC written where a CRC byte was read, CHECKSUM_MISMATCH or what the
allocation makes of it. -/
theorem frameStart_outcomes {withCrc : Bool} (h : frameStart withCrc s = .next t) :
    t = s.withCode .badCommand ∨ t = s.idleFrame.withCode .configMismatch ∨
    ∃ info st, hdrInfo s.hdr = some info ∧ fits s.params info = true ∧ st.rem ≤ 7 ∧
      (t = (s.idleFrame.withStream st).withCode .underflow ∨
        ∃ crc, (withCrc = false → crc = s.crc) ∧
          (t = ((s.idleFrame.withStream st).withCrc crc).withCode .checksumMismatch ∨
            startFrame info (frameFieldsOf withCrc info (s.stream.src.flatMap byteBits))
              ((s.idleFrame.withStream st).withCrc crc) = .next t)) := by
  obtain ⟨-, rfl⟩ | ⟨info, hinfo, ⟨-, rfl⟩ | ⟨hfits, ⟨st, hread, rfl⟩ | ⟨f, st, hread, hcheck⟩⟩⟩ :=
    frameStart_cases h
  · exact .inl rfl
  · exact .inr (.inl rfl)
  · refine .inr (.inr ⟨info, st, hinfo, hfits, ?_, .inl rfl⟩)
    rw [readFrameFields_spec _ _ _ (Nat.zero_le 7)] at hread
    split at hread
    · cases hread
    · rw [← (Prod.mk.inj hread).2]
      exact Nat.zero_le 7
  · obtain ⟨rfl, hrem⟩ := readFrameFields_emptied hread
    refine .inr (.inr ⟨info, st, hinfo, hfits, hrem, .inr ?_⟩)
    obtain ⟨-, hstart⟩ | ⟨rx, hrx, ⟨-, rfl⟩ | ⟨-, hstart⟩⟩ := checkFrame_cases hcheck
    · exact ⟨s.crc, fun _ => rfl, .inr hstart⟩
    · exact ⟨_, fun hno => by simp [frameFieldsOf, hno] at hrx, .inl rfl⟩
    · exact ⟨_, fun hno => by simp [frameFieldsOf, hno] at hrx, .inr hstart⟩

/-- An allocation that does not end has a bitpool that cannot be spent (R457). -/
theorem bitpool_of_allocate_none {p : Params} {info : HdrInfo} {sf : Mat (BitVec 4)} {w : Mat (BitVec 5)}
    (h : allocate p info sf w = none) : 16 * scopeSize info < info.bitpool.toNat := by
  obtain ⟨hbig, -⟩ | ⟨-, w', hw, -⟩ := allocate_spec p info sf w
  · exact hbig
  · rw [hw] at h
    cases h

/-- An allocation that ends writes the header's cells alone and keeps the range of BITS (R454, R462). -/
theorem allocate_some_frame {p : Params} {info : HdrInfo} {sf : Mat (BitVec 4)} {w w' : Mat (BitVec 5)}
    (h : allocate p info sf w = some w') :
    (∀ ch b, (ch, b) ∉ cellsOf (impliedChannels info.chm) info.nsub → w'.get ch b = w.get ch b) ∧
    ((∀ ch b, (w.get ch b).toNat ≤ 16) → ∀ ch b, (w'.get ch b).toNat ≤ 16) := by
  obtain ⟨-, hno⟩ | ⟨-, w'', hw, hframe⟩ := allocate_spec p info sf w
  · rw [hno] at h
    cases h
  · rw [hw] at h
    cases h
    exact hframe

/-! ### What each command leaves unchanged -/

/-- The read commands write the stream position, RESULT and STATUS.CODE alone (R303, R304). -/
theorem readToResult_writes {max : Nat} {n : Byte} (h : readToResult max n s = .next t) :
    ∃ st r c, t = ((s.withStream st).withResult r).withCode c := by
  obtain ⟨-, rfl⟩ | ⟨-, st, -, rfl⟩ | ⟨-, v, st, -, rfl⟩ := readToResult_cases h
  · exact ⟨s.stream, s.result, _, rfl⟩
  · exact ⟨st, s.result, _, rfl⟩
  · exact ⟨st, _, _, rfl⟩

/-- The CRC commands write CRC.ACC and STATUS.CODE alone (R357). -/
theorem execCrcBits_writes {x k : Byte} (h : execCrcBits x k s = .next t) :
    ∃ acc c, t = (s.withCrcAcc acc).withCode c := by
  unfold execCrcBits at h
  split at h
  · exact ⟨s.crc.acc, _, finish_next h⟩
  · exact ⟨_, _, finish_next h⟩

/-- HDR_DECODE writes the source, HDR and STATUS.CODE alone (R403). -/
theorem execHdrDecode_writes (h : execHdrDecode s = .next t) :
    ∃ q w c, t = ((s.withStream { s.stream with src := q }).withHdr w).withCode c := by
  obtain ⟨-, rfl⟩ | ⟨_, _, _, q, -, ⟨-, rfl⟩ | ⟨w, -, rfl⟩⟩ := execHdrDecode_cases h
  · exact ⟨[], s.hdr, _, rfl⟩
  · exact ⟨q, s.hdr, _, rfl⟩
  · exact ⟨q, w, _, rfl⟩

/-- HDR_ENCODE writes RESULT and STATUS.CODE alone (R404). -/
theorem execHdrEncode_writes (h : execHdrEncode s = .next t) :
    ∃ r c, t = (s.withResult r).withCode c := by
  obtain ⟨-, rfl⟩ | ⟨-, r, rfl⟩ := execHdrEncode_cases h
  · exact ⟨s.result, _, rfl⟩
  · exact ⟨r, _, rfl⟩

/-- ALLOC writes BITS, STATUS.CODE and STATUS.HUNG alone (R450, R704). -/
theorem execAlloc_writes (h : execAlloc s = .next t) :
    ∃ w c hung, t = { s.withBits w with status := { s.status with code := c, hung := hung } } := by
  obtain ⟨-, rfl⟩ | ⟨info, -, ⟨-, rfl⟩ | ⟨-, -, rfl⟩ | ⟨-, w, -, rfl⟩⟩ := execAlloc_cases h
  · exact ⟨s.bits, _, s.status.hung, rfl⟩
  · exact ⟨s.bits, _, s.status.hung, rfl⟩
  · exact ⟨s.bits, _, true, rfl⟩
  · exact ⟨w, _, s.status.hung, rfl⟩

/-- RECON writes the stream position, SB and STATUS.CODE alone (R502). -/
theorem execRecon_writes (h : execRecon s = .next t) :
    ∃ st m c, t = ((s.withStream st).withSb m).withCode c := by
  obtain ⟨st, -, rfl⟩ | ⟨cs, st, -, rfl⟩ := execRecon_cases h
  · exact ⟨st, s.sb, _, rfl⟩
  · exact ⟨st, _, _, rfl⟩

/-- A frame start writes the stream position, FRAME, CRC where it reads a CRC byte, JOIN, SF, BITS,
STATUS.CODE and STATUS.HUNG alone (R601, R602, R704). -/
theorem frameStart_writes {withCrc : Bool} (h : frameStart withCrc s = .next t) :
    ∃ st f crc j sf w c hung, (withCrc = false → crc = s.crc) ∧
      t = { ((((s.withStream st).withFrame f).withCrc crc).withJoin j) with
            sf := sf, bits := w, status := { s.status with code := c, hung := hung } } := by
  obtain rfl | rfl | ⟨info, st, -, -, -, rfl | ⟨crc, hcrc, rfl | hstart⟩⟩ := frameStart_outcomes h
  · exact ⟨s.stream, s.frame, s.crc, s.join, s.sf, s.bits, _, s.status.hung, fun _ => rfl, rfl⟩
  · exact ⟨s.stream, s.idleFrame.frame, s.crc, s.join, s.sf, s.bits, _, s.status.hung, fun _ => rfl, rfl⟩
  · exact ⟨st, _, s.crc, s.join, s.sf, s.bits, _, s.status.hung, fun _ => rfl, rfl⟩
  · exact ⟨st, _, crc, s.join, s.sf, s.bits, _, s.status.hung, hcrc, rfl⟩
  · obtain ⟨-, rfl⟩ | ⟨w, -, rfl⟩ := startFrame_cases hstart
    · exact ⟨st, _, crc, s.join, s.sf, s.bits, _, true, hcrc, rfl⟩
    · exact ⟨st, _, crc, _, _, w, _, s.status.hung, hcrc, rfl⟩

/-- The end of a block writes FRAME alone (R604). -/
theorem endBlock_eq (s : State) : s.endBlock = s.withFrame { s.frame with
    fstate := if s.frame.blocksLeft = 0 then .exhausted else s.frame.fstate } := by
  unfold State.endBlock
  split <;> rfl

/-- NEXT_BLOCK in three outcomes (R604): no active frame; a block cut short; or reconstruction, synthesis
and the counter taken down by one. -/
theorem execFrameNext_outcomes (h : execFrameNext s = .next t) :
    t = s.withCode .noMoreBlocks ∨
    (∃ st, readFields (codewordWidths s) s.stream = (none, st) ∧
      t = (s.idleFrame.withStream st).withCode .underflow) ∨
    (s.frame.fstate = .active ∧ ∃ cs st, readFields (codewordWidths s) s.stream = (some cs, st) ∧
      t = ((synth ((s.withStream st).withSb (reconMat s cs))).withFrame
        { fstate := if s.frame.blocksLeft - 1 = 0 then .exhausted else .active,
          blocksLeft := s.frame.blocksLeft - 1, cursor := s.frame.cursor + 1,
          frameBlocks := s.frame.frameBlocks }).withCode .ok) := by
  obtain ⟨-, rfl⟩ | ⟨hact, ⟨st, hread, rfl⟩ | ⟨cs, st, hread, rfl⟩⟩ := execFrameNext_cases h
  · exact .inl rfl
  · exact .inr (.inl ⟨st, hread, rfl⟩)
  · refine .inr (.inr ⟨hact, cs, st, hread, ?_⟩)
    rw [endBlock_eq, ← hact]
    rfl

/-- NEXT_BLOCK writes the stream position, FRAME, SB, PCM, HIST and STATUS.CODE alone (R604). -/
theorem execFrameNext_writes (h : execFrameNext s = .next t) :
    ∃ st f sb pcm hist c,
      t = (((((s.withStream st).withFrame f).withSb sb).withPcm pcm).withHist hist).withCode c := by
  obtain rfl | ⟨st, -, rfl⟩ | ⟨-, cs, st, -, rfl⟩ := execFrameNext_outcomes h
  · exact ⟨s.stream, s.frame, s.sb, s.pcm, s.hist, _, rfl⟩
  · exact ⟨st, _, s.sb, s.pcm, s.hist, _, rfl⟩
  · exact ⟨st, _, _, _, _, _, rfl⟩

/-- Settles O58: each command's list of written registers, read for the others. -/
theorem commandsWriteOnlyTheirRegisters : Obligations.CommandsWriteOnlyTheirRegisters := by
  intro i s t h
  cases i with
  | brReset => obtain rfl := finish_next h; simp
  | brRead8 n => obtain ⟨st, r, c, rfl⟩ := readToResult_writes h; simp
  | brRead16 n => obtain ⟨st, r, c, rfl⟩ := readToResult_writes h; simp
  | crcInit v => obtain rfl := finish_next h; simp
  | crcByte x => obtain rfl := finish_next h; simp
  | crcBits x k => obtain ⟨acc, c, rfl⟩ := execCrcBits_writes h; simp
  | hdrDecode => obtain ⟨q, w, c, rfl⟩ := execHdrDecode_writes h; simp
  | hdrEncode => obtain ⟨r, c, rfl⟩ := execHdrEncode_writes h; simp
  | alloc => obtain ⟨w, c, hung, rfl⟩ := execAlloc_writes h; simp
  | recon => obtain ⟨st, m, c, rfl⟩ := execRecon_writes h; simp
  | synth => obtain rfl := finish_next h; simp [synth]
  | filterReset => obtain rfl := finish_next h; simp
  | frameStartCrc => obtain ⟨st, f, crc, j, sf, w, c, hung, -, rfl⟩ := frameStart_writes h; simp
  | frameStartNocrc =>
    obtain ⟨st, f, crc, j, sf, w, c, hung, hcrc, rfl⟩ := frameStart_writes h
    simp [hcrc]
  | frameNext => obtain ⟨st, f, sb, pcm, hist, c, rfl⟩ := execFrameNext_writes h; simp

end Sys2Proof.Machine
end

section
/-! SUPPORT. What changes a history value, and how the hung state is entered and left (R68, R71). -/

namespace Sys2Proof.Machine

variable {s t : State}

/-- A host write does not reach STATUS (R152). -/
theorem regWrite_status (s : State) (a : Addr) (v : Word) : (regWrite s a v).status = s.status := by
  obtain h | h | h | ⟨ch, b, -, h⟩ | ⟨ch, b, -, h⟩ := regWrite_cases s a v <;> rw [h] <;> rfl

/-- A host write does not reach HIST (R152). -/
theorem regWrite_hist (s : State) (a : Addr) (v : Word) : (regWrite s a v).hist = s.hist := by
  obtain h | h | h | ⟨ch, b, -, h⟩ | ⟨ch, b, -, h⟩ := regWrite_cases s a v <;> rw [h] <;> rfl

/-! ### The history -/

/-- One advance of the filter bank changes slot CURSOR of the configuration's cells alone (R551). -/
theorem synth_hist_ne {ch : Fin 2} {k : Fin 8} {u : Fin 10}
    (h : ((synth s).hist.get ch k)[u] ≠ (s.hist.get ch k)[u]) :
    u = s.frame.cursor ∧ hasCell s.params ch k = true := by
  have hget := storeHist_get s.params s.sb s.frame.cursor s.hist ch k u
  by_cases hc : hasCell s.params ch k = true ∧ s.frame.cursor = u
  · exact ⟨hc.2.symm, hc.1⟩
  · rw [if_neg hc] at hget
    exact absurd hget h

/-- A command that changes a history value is FILTER_RESET, or SYNTH or NEXT_BLOCK at slot CURSOR. -/
theorem exec_hist_ne {i : Instr} (h : exec i s = .next t) {ch : Fin 2} {k : Fin 8} {u : Fin 10}
    (hne : (t.hist.get ch k)[u] ≠ (s.hist.get ch k)[u]) :
    i = .filterReset ∨
      (i = .synth ∨ i = .frameNext) ∧ u = s.frame.cursor ∧ hasCell s.params ch k = true := by
  obtain ⟨-, -, -, -, -, -, -, -, -, -, -, -, -, hhist, -⟩ := commandsWriteOnlyTheirRegisters i s t h
  obtain rfl | rfl | rfl := hhist fun e => hne (by rw [e])
  · obtain rfl := finish_next h
    exact .inr ⟨.inl rfl, synth_hist_ne hne⟩
  · exact .inl rfl
  · obtain rfl | ⟨st, -, rfl⟩ | ⟨-, cs, st, -, rfl⟩ := execFrameNext_outcomes h
    · exact absurd rfl hne
    · exact absurd rfl hne
    · exact .inr ⟨.inr rfl, synth_hist_ne (s := (s.withStream st).withSb (reconMat s cs)) hne⟩

/-- Settles O59: of the host's accesses only a reset and a command reach HIST. -/
theorem historyChangesOnlyInTheFilter : Obligations.HistoryChangesOnlyInTheFilter := by
  intro s t ch k u h hne
  obtain ⟨-, rfl⟩ | ⟨v, rest, hp, ⟨-, rfl⟩ | ⟨-, ⟨i, hd, hexec⟩ | ⟨e, -, rfl⟩⟩⟩ |
    ⟨a, v, rest, -, -, rfl⟩ | ⟨a, rest, -, rfl⟩ | ⟨bytes, rest, -, rfl⟩ | ⟨src, rest, hp, -⟩ :=
    step_cases h
  · exact absurd rfl hne
  · exact absurd rfl hne
  · obtain rfl | ⟨hi, hu, hc⟩ := exec_hist_ne hexec hne
    · exact .inr (.inl ⟨v, rest, hp, hd⟩)
    · refine .inr (.inr ⟨v, rest, hp, ?_, hu, hc⟩)
      exact hi.imp (fun e => by rw [hd, e]) (fun e => by rw [hd, e])
  · exact absurd rfl hne
  · rw [regWrite_hist] at hne
    exact absurd rfl hne
  · exact absurd rfl hne
  · exact absurd rfl hne
  · exact .inl ⟨src, rest, hp⟩

/-! ### The hung state -/

/-- A frame start enters the hung state only with a bitpool that cannot be spent (R457, R601, R704). -/
theorem frameStart_enters_hung {withCrc : Bool} (h : frameStart withCrc s = .next t)
    (hs : ¬s.status.hung = true) (ht : t.status.hung = true) :
    ∃ info, hdrInfo s.hdr = some info ∧ 16 * scopeSize info < info.bitpool.toNat := by
  obtain rfl | rfl | ⟨info, st, hinfo, -, -, rfl | ⟨crc, -, rfl | hend⟩⟩ := frameStart_outcomes h
  · exact absurd ht hs
  · exact absurd ht hs
  · exact absurd ht hs
  · exact absurd ht hs
  · obtain ⟨hnone, -⟩ | ⟨w, -, rfl⟩ := startFrame_cases hend
    · exact ⟨info, hinfo, bitpool_of_allocate_none hnone⟩
    · exact absurd ht hs

/-- ALLOC enters the hung state only with a bitpool that cannot be spent (R457, R704). -/
theorem execAlloc_enters_hung (h : execAlloc s = .next t) (hs : ¬s.status.hung = true)
    (ht : t.status.hung = true) :
    ∃ info, hdrInfo s.hdr = some info ∧ 16 * scopeSize info < info.bitpool.toNat := by
  obtain ⟨-, rfl⟩ | ⟨info, hinfo, ⟨-, rfl⟩ | ⟨-, hnone, -⟩ | ⟨-, w, -, rfl⟩⟩ := execAlloc_cases h
  · exact absurd ht hs
  · exact absurd ht hs
  · exact ⟨info, hinfo, bitpool_of_allocate_none hnone⟩
  · exact absurd ht hs

/-- A command that enters the hung state is ALLOC or a frame start, with a bitpool that cannot be spent
(R457, R704). -/
theorem exec_enters_hung {i : Instr} (h : exec i s = .next t) (hs : ¬s.status.hung = true)
    (ht : t.status.hung = true) :
    (i = .alloc ∨ i = .frameStartCrc ∨ i = .frameStartNocrc) ∧
      ∃ info, hdrInfo s.hdr = some info ∧ 16 * scopeSize info < info.bitpool.toNat := by
  obtain ⟨-, -, -, -, -, -, -, -, -, -, -, -, -, -, hhung⟩ := commandsWriteOnlyTheirRegisters i s t h
  have hi := hhung fun e => hs (e ▸ ht)
  refine ⟨hi, ?_⟩
  obtain rfl | rfl | rfl := hi
  · exact execAlloc_enters_hung h hs ht
  · exact frameStart_enters_hung h hs ht
  · exact frameStart_enters_hung h hs ht

/-- A step enters the hung state by such a command alone (R71). -/
theorem step_enters_hung (h : step s = .next t) (hs : s.status.hung = false)
    (ht : t.status.hung = true) :
    ∃ v rest i info, s.nextCommand v rest ∧ decode v = .ok i ∧
      (i = .alloc ∨ i = .frameStartCrc ∨ i = .frameStartNocrc) ∧ hdrInfo s.hdr = some info ∧
      16 * scopeSize info < info.bitpool.toNat := by
  have hne : ¬s.status.hung = true := by rw [hs]; decide
  obtain ⟨-, rfl⟩ | ⟨v, rest, hp, ⟨hh, -⟩ | ⟨-, ⟨i, hd, hexec⟩ | ⟨e, -, rfl⟩⟩⟩ |
    ⟨a, v, rest, -, -, rfl⟩ | ⟨a, rest, -, rfl⟩ | ⟨bytes, rest, -, rfl⟩ | ⟨src, rest, -, rfl⟩ :=
    step_cases h
  · exact absurd ht hne
  · exact absurd hh hne
  · obtain ⟨hi, info, hinfo, hbig⟩ := exec_enters_hung hexec hne ht
    exact ⟨v, rest, i, info, hp, hd, hi, hinfo, hbig⟩
  · exact absurd ht hne
  · rw [regWrite_status] at ht
    exact absurd ht hne
  · exact absurd ht hne
  · exact absurd ht hne
  · cases ht

/-- In the hung state every access but the reset leaves it hung (R704, R152, R153). -/
theorem step_keeps_hung (h : step s = .next t) (hs : s.status.hung = true)
    (hreset : ¬∃ src rest, s.pending = .reset src :: rest) : t.status.hung = true := by
  obtain ⟨-, rfl⟩ | ⟨v, rest, -, ⟨-, rfl⟩ | ⟨hh, -⟩⟩ | ⟨a, v, rest, -, -, rfl⟩ | ⟨a, rest, -, rfl⟩ |
    ⟨bytes, rest, -, rfl⟩ | ⟨src, rest, hp, -⟩ := step_cases h
  · exact hs
  · exact hs
  · rw [hs] at hh
    cases hh
  · rw [regWrite_status]
    exact hs
  · exact hs
  · exact hs
  · exact absurd ⟨src, rest, hp⟩ hreset

/-- Settles O12: a command alone enters the hung state, and a reset alone leaves it. -/
theorem hungStateEntryAndExit : Obligations.HungStateEntryAndExit := by
  intro s t h
  refine ⟨step_enters_hung h, fun hs => ⟨fun ht => ?_, ?_⟩⟩
  · by_contra hreset
    rw [step_keeps_hung h hs hreset] at ht
    cases ht
  · rintro ⟨src, rest, hp⟩
    rw [step_reset hp] at h
    cases h
    rfl

end Sys2Proof.Machine
end

section
/-! SUPPORT. The invariant of the registers: one rule for each register write, one lemma for each command,
and the step. -/

namespace Sys2Proof.Machine

variable {s t : State}

/-! ### One rule for each register write -/

/-- The invariant's clauses on FRAME (R62, R600). -/
def Frame.Ok (f : Frame) : Prop :=
  (f.fstate = .active ↔ 0 < f.blocksLeft) ∧ f.blocksLeft ≤ f.frameBlocks ∧
    (f.frameBlocks = 0 ∨ (4 ≤ f.frameBlocks ∧ f.frameBlocks ≤ 16))

/-- No cell of a matrix outside the configuration was written (R70). -/
def Mat.AbsentZero {n : Nat} (p : Params) (m : Mat (BitVec n)) : Prop :=
  ∀ ch b, hasCell p ch b = false → m.get ch b = 0

theorem State.Inv.frameOk (h : s.Inv) : s.frame.Ok := ⟨h.active_iff, h.blocksLeft_le, h.frameBlocks_range⟩

/-- The status codes but HUNG end a command outside the hung state (R54, R704). -/
theorem State.Inv.withCode {c : StatusCode} (h : s.Inv) (hh : s.status.hung = false) (hc : c ≠ .hung) :
    (s.withCode c).Inv :=
  { h with hung_iff := by simp [hh, hc] }

theorem State.Inv.enterHung (h : s.Inv) : s.enterHung.Inv :=
  { h with hung_iff := by simp }

theorem State.Inv.withLastop {op : Byte} (h : s.Inv) : (s.withLastop op).Inv := { h with }

theorem State.Inv.withPending {acts : List HostAction} (h : s.Inv) : (s.withPending acts).Inv := { h with }

theorem State.Inv.withReadData {v : Word} (h : s.Inv) : (s.withReadData v).Inv := { h with }

theorem State.Inv.withResult {v : Word} (h : s.Inv) : (s.withResult v).Inv := { h with }

theorem State.Inv.withCrc {c : CrcReg} (h : s.Inv) : (s.withCrc c).Inv := { h with }

theorem State.Inv.withCrcAcc {acc : Byte} (h : s.Inv) : (s.withCrcAcc acc).Inv := { h with }

theorem State.Inv.withStream {st : Stream} (h : s.Inv) (hst : st.rem ≤ 7) : (s.withStream st).Inv :=
  { h with rem_le := hst }

/-- The invariant is not about the bytes of the source. -/
theorem State.Inv.withSrc (h : s.Inv) (q : List Byte) :
    (s.withStream { s.stream with src := q }).Inv :=
  { h with }

theorem State.Inv.withFrame {f : Frame} (h : s.Inv) (hf : f.Ok) : (s.withFrame f).Inv :=
  { h with active_iff := hf.1, blocksLeft_le := hf.2.1, frameBlocks_range := hf.2.2 }

theorem State.Inv.withHdr {w : Word} (h : s.Inv) (hres : w.extractLsb' 17 14 = 0)
    (hfix : hdrMode w = true → w.extractLsb' 0 16 = 0) : (s.withHdr w).Inv :=
  { h with hdr_reserved := hres, hdr_fixed := hfix }

theorem State.Inv.withJoin {j : BitVec 8} (h : s.Inv)
    (hj : ∀ b : Fin 8, s.params.sb.toNat ≤ b.val → j.getLsbD b = false) : (s.withJoin j).Inv :=
  { h with join_range := hj }

theorem State.Inv.withSf {m : Mat (BitVec 4)} (h : s.Inv) (hm : m.AbsentZero s.params) :
    (s.withSf m).Inv :=
  { h with absent := fun ch b hc => ⟨hm ch b hc, (h.absent ch b hc).2⟩ }

theorem State.Inv.withBits {m : Mat (BitVec 5)} (h : s.Inv) (hle : ∀ ch b, (m.get ch b).toNat ≤ 16)
    (hm : m.AbsentZero s.params) : (s.withBits m).Inv :=
  { h with
    bits_le := hle
    absent := fun ch b hc =>
      have ⟨hsf, _, hrest⟩ := h.absent ch b hc
      ⟨hsf, hm ch b hc, hrest⟩ }

theorem State.Inv.withSb {m : Mat Word} (h : s.Inv) (hm : m.AbsentZero s.params) :
    (s.withSb m).Inv :=
  { h with
    absent := fun ch b hc =>
      have ⟨hsf, hbits, _, hrest⟩ := h.absent ch b hc
      ⟨hsf, hbits, hm ch b hc, hrest⟩ }

theorem State.Inv.withPcm {m : Mat (BitVec 16)} (h : s.Inv) (hm : m.AbsentZero s.params) :
    (s.withPcm m).Inv :=
  { h with
    absent := fun ch b hc =>
      have ⟨hsf, hbits, hsb, _, hhist⟩ := h.absent ch b hc
      ⟨hsf, hbits, hsb, hm ch b hc, hhist⟩ }

theorem State.Inv.withHist {m : Mat (Vector Word 10)} (h : s.Inv)
    (hm : ∀ ch b, hasCell s.params ch b = false → ∀ u : Fin 10, (m.get ch b)[u] = 0) :
    (s.withHist m).Inv :=
  { h with
    absent := fun ch b hc =>
      have ⟨hsf, hbits, hsb, hpcm, _⟩ := h.absent ch b hc
      ⟨hsf, hbits, hsb, hpcm, hm ch b hc⟩ }

/-- A matrix that changes only in cells of the configuration keeps its absent cells (R70). -/
theorem Mat.AbsentZero.of_eq {n : Nat} {p : Params} {m old : Mat (BitVec n)} (h : old.AbsentZero p)
    (he : ∀ ch b, hasCell p ch b = false → m.get ch b = old.get ch b) : m.AbsentZero p :=
  fun ch b hc => by rw [he ch b hc, h ch b hc]

theorem State.Inv.absent_sf (h : s.Inv) : s.sf.AbsentZero s.params :=
  fun ch b hc =>
    have ⟨hsf, _⟩ := h.absent ch b hc
    hsf

theorem State.Inv.absent_bits (h : s.Inv) : s.bits.AbsentZero s.params :=
  fun ch b hc =>
    have ⟨_, hbits, _⟩ := h.absent ch b hc
    hbits

theorem State.Inv.absent_sb (h : s.Inv) : s.sb.AbsentZero s.params :=
  fun ch b hc =>
    have ⟨_, _, hsb, _⟩ := h.absent ch b hc
    hsb

theorem State.Inv.absent_pcm (h : s.Inv) : s.pcm.AbsentZero s.params :=
  fun ch b hc =>
    have ⟨_, _, _, hpcm, _⟩ := h.absent ch b hc
    hpcm

theorem State.Inv.absent_hist (h : s.Inv) :
    ∀ ch b, hasCell s.params ch b = false → ∀ u : Fin 10, (s.hist.get ch b)[u] = 0 :=
  fun ch b hc =>
    have ⟨_, _, _, _, hhist⟩ := h.absent ch b hc
    hhist

/-- After reset every register is 0, in every configuration (R800). -/
theorem resetOf_inv (p : Params) (src : List Byte) : (State.resetOf p src).Inv where
  rem_le := Nat.zero_le 7
  active_iff := by simp [State.resetOf]
  blocksLeft_le := Nat.le_refl 0
  frameBlocks_range := .inl rfl
  hdr_reserved := by simp [State.resetOf]
  hdr_fixed := by simp [State.resetOf]
  join_range := by simp [State.resetOf]
  bits_le := by simp [State.resetOf, Mat.get]
  absent := by simp [State.resetOf, Mat.get]
  hung_iff := by simp [State.resetOf]


/-! ### The values the commands write -/

theorem bitRead_rem_le {n : Nat} {st st' : Stream} {r : Option Nat} (h : bitRead n st = (r, st'))
    (hr : st.rem ≤ 7) : st'.rem ≤ 7 := by
  rw [bitRead_spec n st hr] at h
  split at h
  · rw [← (Prod.mk.inj h).2]
    exact advance_rem_le st n hr
  · rw [← (Prod.mk.inj h).2]
    exact Nat.zero_le 7

theorem readFields_rem_le {ws : List Nat} {st st' : Stream} {r : Option (List Nat)}
    (h : readFields ws st = (r, st')) (hr : st.rem ≤ 7) : st'.rem ≤ 7 := by
  rw [readFields_spec ws st hr] at h
  split at h
  · rw [← (Prod.mk.inj h).2]
    exact advance_rem_le st _ hr
  · rw [← (Prod.mk.inj h).2]
    exact Nat.zero_le 7

/-- Both headers HDR_DECODE writes have their reserved bits 0, the fixed one its field bits too (R403). -/
theorem decodeHeader_legal {p : Params} {b0 b1 b2 : Byte} {w : Word}
    (h : decodeHeader p b0 b1 b2 = some w) :
    w.extractLsb' 17 14 = 0 ∧ (hdrMode w = true → w.extractLsb' 0 16 = 0) := by
  unfold decodeHeader at h
  split at h
  · obtain rfl := Option.some.inj h
    have hmode : hdrMode (1#1 ++ 0#15 ++ b1 ++ b2 : BitVec 32) = false := by
      rw [hdrMode, BitVec.getLsbD_append, if_neg (by decide), BitVec.getLsbD_append, if_neg (by decide)]
      decide
    refine ⟨?_, fun hm => by rw [hmode] at hm; cases hm⟩
    rw [BitVec.extractLsb'_append_eq_of_le (by decide), BitVec.extractLsb'_append_eq_of_le (by decide)]
    decide
  · split at h
    · obtain rfl := Option.some.inj h
      exact ⟨by decide, fun _ => by decide⟩
    · cases h

/-- A header's block count is 4 to 16 (R405). -/
theorem frameBlockCount_range {hdr : Word} {info : HdrInfo} (h : hdrInfo hdr = some info) :
    4 ≤ frameBlockCount info ∧ frameBlockCount info ≤ 16 := by
  unfold hdrInfo at h
  split at h
  · cases h
  · split at h
    · obtain rfl := Option.some.inj h
      have := (hdrBlk hdr).isLt
      simp only [frameBlockCount, Option.getD_some]
      omega
    · obtain rfl := Option.some.inj h
      exact ⟨by decide, by decide⟩

/-- One-bit fields are 0 or 1. -/
theorem fieldsOf_ones_lt (ws : List Nat) (bits : List Bool) (hw : ∀ w ∈ ws, w = 1) :
    ∀ x ∈ fieldsOf ws bits, x < 2 := by
  induction ws generalizing bits with
  | nil => simp [fieldsOf]
  | cons w ws ih =>
    obtain ⟨rfl, hws⟩ := List.forall_mem_cons.mp hw
    refine List.forall_mem_cons.mpr ⟨?_, ih _ hws⟩
    exact (valueOf_lt _).trans_le (Nat.pow_le_pow_right (by decide) (List.length_take_le 1 bits))

/-- The joint bitmap as a number has no more bits than fields. -/
theorem joinOf_lt (l : List Nat) (h : ∀ x ∈ l, x < 2) : joinOf l < 2 ^ l.length := by
  induction l with
  | nil => decide
  | cons x l ih =>
    obtain ⟨hx, hl⟩ := List.forall_mem_cons.mp h
    have := ih hl
    rw [joinOf, List.length_cons, pow_succ]
    omega

theorem jointWidths_eq_one (info : HdrInfo) : ∀ w ∈ jointWidths info, w = 1 := by
  unfold jointWidths
  split <;> simp

theorem jointWidths_length_le (info : HdrInfo) : (jointWidths info).length ≤ info.nsub.toNat := by
  unfold jointWidths
  cases info.chm <;> cases info.nsub <;> decide

/-- The joint bitmap of a frame start has no bit at or above NSUB (R63, R601). -/
theorem joint_getLsbD (withCrc : Bool) (info : HdrInfo) (bits : List Bool) (b : Fin 8)
    (hb : info.nsub.toNat ≤ b.val) :
    (BitVec.ofNat 8 (joinOf (frameFieldsOf withCrc info bits).joint)).getLsbD b = false := by
  have hlt := joinOf_lt (frameFieldsOf withCrc info bits).joint
    (fieldsOf_ones_lt _ _ (jointWidths_eq_one info))
  have hlen : (frameFieldsOf withCrc info bits).joint.length ≤ b.val :=
    (fieldsOf_length _ _).trans_le ((jointWidths_length_le info).trans hb)
  rw [BitVec.getLsbD_ofNat,
    Nat.testBit_lt_two_pow (hlt.trans_le (Nat.pow_le_pow_right (by decide) hlen)), Bool.and_false]

/-- The host's JOIN has no bit at or above CFG_SB (R63, R152). -/
theorem legalJoin_getLsbD (p : Params) (v : Word) (b : Fin 8) (hb : p.sb.toNat ≤ b.val) :
    (legalJoin p v).getLsbD b = false := by
  unfold legalJoin
  cases hsb : p.sb with
  | four =>
    have : ¬b.val < 4 := by simpa [hsb, Subbands.toNat] using hb
    simp only [BitVec.getLsbD_setWidth, BitVec.getLsbD_extractLsb', this, decide_false,
      Bool.false_and, Bool.and_false]
  | eight =>
    rw [hsb] at hb
    exact absurd b.isLt (Nat.not_lt.mpr hb)

/-- Outside the header's cells a frame start leaves SF (R601). -/
theorem sfMat_get_of_notMem {info : HdrInfo} {f : FrameFields} {old : Mat (BitVec 4)} {ch : Fin 2}
    {b : Fin 8} (h : (ch, b) ∉ cellsOf (impliedChannels info.chm) info.nsub) :
    (sfMat info f old).get ch b = old.get ch b :=
  writeCells_get_of_notMem _ _ _ _ _ h

/-- Where the header fits, an absent cell is no cell of the header's shape (R406, R70). -/
theorem notMem_cellsOf_of_fits {p : Params} {info : HdrInfo} (hfits : fits p info = true) {ch : Fin 2}
    {b : Fin 8} (hc : hasCell p ch b = false) :
    (ch, b) ∉ cellsOf (impliedChannels info.chm) info.nsub := by
  obtain ⟨hch, hsb⟩ := (fits_iff p info).mp hfits
  rw [hch, hsb]
  intro hmem
  have := (mem_cells p ch b).mp hmem
  rw [hc] at this
  cases this

/-! ### FRAME -/

theorem Frame.Ok.idle {f : Frame} (h : f.Ok) : Frame.Ok { f with fstate := .idle, blocksLeft := 0 } :=
  ⟨by simp, Nat.zero_le _, h.2.2⟩

theorem Frame.Ok.withCursor {f : Frame} (h : f.Ok) (c : Fin 10) : Frame.Ok { f with cursor := c } := h

/-- A started frame (R601). -/
theorem Frame.Ok.started {n : Nat} (hn : 4 ≤ n ∧ n ≤ 16) (c : Fin 10) :
    Frame.Ok { fstate := .active, blocksLeft := n, cursor := c, frameBlocks := n } :=
  ⟨by simp only [true_iff]; omega, Nat.le_refl n, .inr hn⟩

/-- A frame with one block fewer left (R604). -/
theorem Frame.Ok.nextBlock {f : Frame} (h : f.Ok) (c : Fin 10) :
    Frame.Ok { fstate := if f.blocksLeft - 1 = 0 then .exhausted else .active,
               blocksLeft := f.blocksLeft - 1, cursor := c, frameBlocks := f.frameBlocks } := by
  obtain ⟨-, hle, hrange⟩ := h
  refine ⟨?_, ?_, hrange⟩
  · dsimp only
    split
    · simp only [reduceCtorEq, false_iff]
      omega
    · simp only [true_iff]
      omega
  · dsimp only
    omega

/-! ### One lemma for each command -/

theorem finish_keepsInv {c : StatusCode} (h : finish c s = .next t) (hs : s.Inv)
    (hh : s.status.hung = false) (hc : c ≠ .hung) : t.Inv := by
  obtain rfl := finish_next h
  exact hs.withCode hh hc

theorem State.Inv.idleFrame (h : s.Inv) : s.idleFrame.Inv := h.withFrame h.frameOk.idle

theorem readToResult_keepsInv {max : Nat} {n : Byte} (h : readToResult max n s = .next t) (hs : s.Inv)
    (hh : s.status.hung = false) : t.Inv := by
  obtain ⟨-, rfl⟩ | ⟨-, st, hread, rfl⟩ | ⟨-, v, st, hread, rfl⟩ := readToResult_cases h
  · exact hs.withCode hh (by decide)
  · exact (hs.withStream (bitRead_rem_le hread hs.rem_le)).withCode hh (by decide)
  · exact (hs.withStream (bitRead_rem_le hread hs.rem_le)).withResult.withCode hh (by decide)

theorem execCrcBits_keepsInv {x k : Byte} (h : execCrcBits x k s = .next t) (hs : s.Inv)
    (hh : s.status.hung = false) : t.Inv := by
  unfold execCrcBits at h
  split at h
  · exact finish_keepsInv h hs hh (by decide)
  · exact finish_keepsInv h hs.withCrcAcc hh (by decide)

theorem execHdrDecode_keepsInv (h : execHdrDecode s = .next t) (hs : s.Inv)
    (hh : s.status.hung = false) : t.Inv := by
  obtain ⟨-, rfl⟩ | ⟨_, _, _, q, -, ⟨-, rfl⟩ | ⟨w, hw, rfl⟩⟩ := execHdrDecode_cases h
  · exact (hs.withSrc []).withCode hh (by decide)
  · exact (hs.withSrc q).withCode hh (by decide)
  · obtain ⟨hres, hfix⟩ := decodeHeader_legal hw
    exact ((hs.withSrc q).withHdr hres hfix).withCode hh (by decide)

theorem execHdrEncode_keepsInv (h : execHdrEncode s = .next t) (hs : s.Inv)
    (hh : s.status.hung = false) : t.Inv := by
  obtain ⟨-, rfl⟩ | ⟨-, r, rfl⟩ := execHdrEncode_cases h
  · exact hs.withCode hh (by decide)
  · exact hs.withResult.withCode hh (by decide)

theorem execAlloc_keepsInv (h : execAlloc s = .next t) (hs : s.Inv) (hh : s.status.hung = false) :
    t.Inv := by
  obtain ⟨-, rfl⟩ | ⟨info, -, ⟨-, rfl⟩ | ⟨-, -, rfl⟩ | ⟨hfits, w, hw, rfl⟩⟩ := execAlloc_cases h
  · exact hs.withCode hh (by decide)
  · exact hs.withCode hh (by decide)
  · exact hs.enterHung
  · obtain ⟨hout, hle⟩ := allocate_some_frame hw
    have habsent := hs.absent_bits.of_eq fun ch b hc => hout ch b (notMem_cellsOf_of_fits hfits hc)
    exact (hs.withBits (hle hs.bits_le) habsent).withCode hh (by decide)

/-- Reconstruction writes SB in the configuration's cells alone (R502, R70). -/
theorem State.Inv.reconMat (h : s.Inv) (cs : List Nat) :
    (reconMat s cs).AbsentZero s.params :=
  h.absent_sb.of_eq fun ch b hc => by simp [reconMat_get, hc]

theorem execRecon_keepsInv (h : execRecon s = .next t) (hs : s.Inv) (hh : s.status.hung = false) :
    t.Inv := by
  obtain ⟨st, hread, rfl⟩ | ⟨cs, st, hread, rfl⟩ := execRecon_cases h
  · exact (hs.withStream (readFields_rem_le hread hs.rem_le)).withCode hh (by decide)
  · exact ((hs.withStream (readFields_rem_le hread hs.rem_le)).withSb (hs.reconMat cs)).withCode hh
      (by decide)

/-- One advance of the filter bank writes HIST and PCM in the configuration's cells alone (R551, R552, R70). -/
theorem State.Inv.synth (h : s.Inv) : (synth s).Inv := by
  have hhist : ∀ ch b, hasCell s.params ch b = false → ∀ u : Fin 10,
      ((storeHist s.params s.sb s.frame.cursor s.hist).get ch b)[u] = 0 := fun ch b hc u => by
    rw [storeHist_get, if_neg (by simp [hc]), h.absent_hist ch b hc u]
  have hpcm : (pcmMat s.params s.frame.cursor (storeHist s.params s.sb s.frame.cursor s.hist)
      s.pcm).AbsentZero s.params :=
    h.absent_pcm.of_eq fun ch b hc => by simp [pcmMat_get, hc]
  exact ((h.withHist hhist).withPcm hpcm).withFrame (h.frameOk.withCursor _)

theorem execFilterReset_keepsInv (h : execFilterReset s = .next t) (hs : s.Inv)
    (hh : s.status.hung = false) : t.Inv := by
  have hhist : ∀ ch b, hasCell s.params ch b = false → ∀ u : Fin 10,
      ((clearHist s.params s.hist).get ch b)[u] = 0 := fun ch b hc u => by
    rw [clearHist_get, if_neg (by simp [hc]), hs.absent_hist ch b hc u]
  exact finish_keepsInv h ((hs.withHist hhist).withFrame (hs.frameOk.withCursor 0)) hh (by decide)

theorem startFrame_keepsInv {withCrc : Bool} {info : HdrInfo} {bits : List Bool}
    (h : startFrame info (frameFieldsOf withCrc info bits) s = .next t)
    (hinfo : hdrInfo s.hdr = some info) (hfits : fits s.params info = true) (hs : s.Inv)
    (hh : s.status.hung = false) : t.Inv := by
  obtain ⟨-, rfl⟩ | ⟨w, hw, rfl⟩ := startFrame_cases h
  · exact hs.enterHung
  · obtain ⟨hout, hle⟩ := allocate_some_frame hw
    have hjoin : ∀ b : Fin 8, s.params.sb.toNat ≤ b.val →
        (BitVec.ofNat 8 (joinOf (frameFieldsOf withCrc info bits).joint)).getLsbD b = false :=
      fun b hb => joint_getLsbD withCrc info bits b (by rwa [((fits_iff _ _).mp hfits).2])
    have hsf : (sfMat info (frameFieldsOf withCrc info bits) s.sf).AbsentZero s.params :=
      hs.absent_sf.of_eq fun ch b hc => sfMat_get_of_notMem (notMem_cellsOf_of_fits hfits hc)
    have hbits : w.AbsentZero s.params :=
      hs.absent_bits.of_eq fun ch b hc => hout ch b (notMem_cellsOf_of_fits hfits hc)
    have hframe := Frame.Ok.started (frameBlockCount_range hinfo) s.frame.cursor
    exact ((((hs.withJoin hjoin).withSf hsf).withBits (hle hs.bits_le) hbits).withFrame
      hframe).withCode hh (by decide)

theorem frameStart_keepsInv {withCrc : Bool} (h : frameStart withCrc s = .next t) (hs : s.Inv)
    (hh : s.status.hung = false) : t.Inv := by
  obtain rfl | rfl | ⟨info, st, hinfo, hfits, hst, rfl | ⟨crc, -, rfl | hend⟩⟩ := frameStart_outcomes h
  · exact hs.withCode hh (by decide)
  · exact hs.idleFrame.withCode hh (by decide)
  · exact (hs.idleFrame.withStream hst).withCode hh (by decide)
  · exact (hs.idleFrame.withStream hst).withCrc.withCode hh (by decide)
  · exact startFrame_keepsInv hend hinfo hfits (hs.idleFrame.withStream hst).withCrc hh

theorem execFrameNext_keepsInv (h : execFrameNext s = .next t) (hs : s.Inv)
    (hh : s.status.hung = false) : t.Inv := by
  obtain rfl | ⟨st, hread, rfl⟩ | ⟨-, cs, st, hread, rfl⟩ := execFrameNext_outcomes h
  · exact hs.withCode hh (by decide)
  · exact (hs.idleFrame.withStream (readFields_rem_le hread hs.rem_le)).withCode hh (by decide)
  · have hrecon := (hs.withStream (readFields_rem_le hread hs.rem_le)).withSb (hs.reconMat cs)
    exact (hrecon.synth.withFrame (hs.frameOk.nextBlock _)).withCode hh (by decide)

/-- Every command keeps the invariant outside the hung state. -/
theorem exec_keepsInv {i : Instr} (h : exec i s = .next t) (hs : s.Inv) (hh : s.status.hung = false) :
    t.Inv := by
  cases i with
  | brReset => exact finish_keepsInv h (hs.withStream (Nat.zero_le 7)) hh (by decide)
  | brRead8 n => exact readToResult_keepsInv h hs hh
  | brRead16 n => exact readToResult_keepsInv h hs hh
  | crcInit v => exact finish_keepsInv h hs.withCrcAcc hh (by decide)
  | crcByte x => exact finish_keepsInv h hs.withCrcAcc hh (by decide)
  | crcBits x k => exact execCrcBits_keepsInv h hs hh
  | hdrDecode => exact execHdrDecode_keepsInv h hs hh
  | hdrEncode => exact execHdrEncode_keepsInv h hs hh
  | alloc => exact execAlloc_keepsInv h hs hh
  | recon => exact execRecon_keepsInv h hs hh
  | synth => exact finish_keepsInv h hs.synth hh (by decide)
  | filterReset => exact execFilterReset_keepsInv h hs hh
  | frameStartCrc => exact frameStart_keepsInv h hs hh
  | frameStartNocrc => exact frameStart_keepsInv h hs hh
  | frameNext => exact execFrameNext_keepsInv h hs hh

/-! ### The host's accesses -/

/-- A matrix with a cell of the configuration written keeps its absent cells (R70). -/
theorem Mat.AbsentZero.set {n : Nat} {p : Params} {m : Mat (BitVec n)} (h : m.AbsentZero p) {ch : Fin 2}
    {b : Fin 8} (hc : hasCell p ch b = true) (x : BitVec n) : (m.set ch b x).AbsentZero p := by
  refine h.of_eq fun c b' hno => ?_
  rw [Mat.get_set, if_neg]
  rintro ⟨rfl, rfl⟩
  rw [hc] at hno
  cases hno

theorem regWrite_keepsInv (a : Addr) (v : Word) (hs : s.Inv) : (regWrite s a v).Inv := by
  obtain h | h | h | ⟨ch, b, hc, h⟩ | ⟨ch, b, hc, h⟩ := regWrite_cases s a v <;> rw [h]
  · exact hs
  · refine hs.withHdr (legalHdr_reserved v) fun hm => ?_
    have hv : v.getLsbD 16 = true := (legalHdr_mode v).symm.trans hm
    rw [legalHdr_fields, if_pos hv]
  · exact hs.withJoin (legalJoin_getLsbD s.params v)
  · exact hs.withSf (hs.absent_sf.set hc _)
  · exact hs.withSb (hs.absent_sb.set hc v)

/-- Settles O15: each access of the host keeps the invariant, a command by `exec_keepsInv`. -/
theorem stepKeepsInv : Obligations.StepKeepsInv := by
  intro s t hs h
  obtain ⟨-, rfl⟩ | ⟨v, rest, -, ⟨-, rfl⟩ | ⟨hh, ⟨i, -, hexec⟩ | ⟨e, -, rfl⟩⟩⟩ |
    ⟨a, v, rest, -, -, rfl⟩ | ⟨a, rest, -, rfl⟩ | ⟨bytes, rest, -, rfl⟩ | ⟨src, rest, -, rfl⟩ :=
    step_cases h
  · exact hs
  · exact hs.withPending
  · exact exec_keepsInv hexec hs.withPending.withLastop hh
  · exact hs.withPending.withLastop.withCode hh (by decide)
  · exact regWrite_keepsInv a v hs.withPending
  · exact hs.withPending.withReadData
  · exact hs.withPending.withSrc _
  · exact (resetOf_inv s.params src).withPending.withReadData

end Sys2Proof.Machine
end

section
/-! SUPPORT. What the host's accesses write: a register read, the writes of JOIN, SF and SB, and the bytes
for the source (R151 to R153). -/

namespace Sys2Proof.Machine

variable {s : State} {a : Addr} {v : Word} {ch : Fin 2} {b : Fin 8}

/-- Only CMD stands at address 0, so a write of any other register runs no command (R53). -/
theorem ne_zero_of_toNat {n : Nat} (ha : a.toNat = n) (hn : 0 < n) : a ≠ 0 := by
  rintro rfl
  exact hn.ne ha

/-- A host write of JOIN (R63, R152). -/
theorem regWrite_join (ha : a.toNat = Reg.join.addr) :
    regWrite s a v = s.withJoin (legalJoin s.params v) := by
  rw [regWrite, regAt_addr ha rfl]

/-- A host write of a cell of SF (R64, R152). -/
theorem regWrite_sf (ha : a.toNat = (Reg.sf ch b).addr) (hc : hasCell s.params ch b = true) :
    regWrite s a v = s.withSf (s.sf.set ch b (v.extractLsb' 0 4)) := by
  rw [regWrite, regAt_addr ha hc]

/-- A host write of a cell of SB (R66, R152). -/
theorem regWrite_sb (ha : a.toNat = (Reg.sb ch b).addr) (hc : hasCell s.params ch b = true) :
    regWrite s a v = s.withSb (s.sb.set ch b v) := by
  rw [regWrite, regAt_addr ha hc]

/-- The host's bytes go to the tail of SRC (R153). -/
theorem step_push {bytes : List Byte} {rest : List HostAction} (h : s.pending = .push bytes :: rest) :
    step s = .next ((s.withPending rest).withStream
      { s.stream with src := s.stream.src ++ bytes }) :=
  step_cons h

/-- JOIN takes the bits of the value below CFG_SB (R63, R152). -/
theorem getLsbD_legalJoin (p : Params) (v : Word) (b : Fin 8) :
    (legalJoin p v).getLsbD b = (decide (b.val < p.sb.toNat) && v.getLsbD b) := by
  by_cases hb : b.val < p.sb.toNat
  · unfold legalJoin
    cases hsb : p.sb with
    | four =>
      have hb4 : b.val < 4 := by rwa [hsb] at hb
      simp [hb4, Subbands.toNat]
    | eight => simp [Subbands.toNat]
  · rw [legalJoin_getLsbD p v b (Nat.not_lt.mp hb), decide_eq_false hb, Bool.false_and]

/-- The matrix after a write of one cell, the written cell named on the right. -/
theorem Mat.get_set_eq_ite {α : Type} (m : Mat α) (ch : Fin 2) (b : Fin 8) (x : α) (c : Fin 2)
    (d : Fin 8) : (m.set ch b x).get c d = if c = ch ∧ d = b then x else m.get c d := by
  rw [Mat.get_set]
  exact if_congr (and_congr eq_comm eq_comm) rfl rfl

/-- Settles O22: each of the three registers stands at its address, whatever the status, and the write
reaches that register or cell alone. -/
theorem hostWritesJoinSfSb : Obligations.HostWritesJoinSfSb := by
  intro s v rest
  have haddr : ∀ n < 512, (BitVec.ofNat 9 n).toNat = n := fun n hn => Nat.mod_eq_of_lt hn
  refine ⟨fun hp => ?_, fun ch b hc hp => ?_, fun ch b hc hp => ?_⟩
  · refine ⟨legalJoin s.params v, ?_, getLsbD_legalJoin s.params v⟩
    rw [step_write (by decide) hp, regWrite_join rfl, withPending_params]
  · have ha := haddr (0x010 + 8 * ch.val + b.val) (by omega)
    refine ⟨s.sf.set ch b (v.extractLsb' 0 4), ?_, s.sf.get_set_eq_ite ch b _⟩
    have h0 := ne_zero_of_toNat ha (by omega)
    rw [step_write h0 hp, regWrite_sf (s := s.withPending rest) ha hc, withPending_sf]
  · have ha := haddr (0x030 + 8 * ch.val + b.val) (by omega)
    refine ⟨s.sb.set ch b v, ?_, s.sb.get_set_eq_ite ch b v⟩
    have h0 := ne_zero_of_toNat ha (by omega)
    rw [step_write h0 hp, regWrite_sb (s := s.withPending rest) ha hc, withPending_sb]

/-- Settles O16: the read leaves the register's value in `readData` and takes the access off the list. -/
theorem registerReadHasNoEffect : Obligations.RegisterReadHasNoEffect := by
  intro s a rest hp
  exact ⟨_, step_read hp, withReadData_readData _ _, rfl⟩

/-- Settles O23: BUF and REM are kept, SRC is longer by the bytes. -/
theorem hostPushAppends : Obligations.HostPushAppends := by
  intro s bytes rest hp
  exact step_push hp

end Sys2Proof.Machine
end

section
/-! SUPPORT. The command word and its fields: which words decode, and to what (R200 to R204, R208). -/

namespace Sys2Proof.Machine

variable {i j : Instr} {op a b z : Byte} {v : Word}

/-! ### The fields of a word -/

/-- A word with Z = 0 is put together from its three other fields (R200). -/
theorem commandWord_fields (hz : zOf v = 0) : commandWord (opOf v) (aOf v) (bOf v) = v := by
  have hz' : v.toNat >>> 24 % 2 ^ 8 = 0 := by
    rw [← BitVec.extractLsb'_toNat]
    exact congrArg BitVec.toNat hz
  apply BitVec.eq_of_toNat_eq
  simp only [toNat_commandWord, opOf, aOf, bOf, BitVec.extractLsb'_toNat]
  simp only [Nat.shiftRight_eq_div_pow] at hz' ⊢
  omega

/-- Words with the same fields only are the same. -/
theorem commandWord_inj {op' a' b' : Byte} :
    commandWord op a b = commandWord op' a' b' ↔ op = op' ∧ a = a' ∧ b = b' := by
  refine ⟨fun h => ⟨?_, ?_, ?_⟩, by rintro ⟨rfl, rfl, rfl⟩; rfl⟩
  · simpa using congrArg opOf h
  · simpa using congrArg aOf h
  · simpa using congrArg bOf h

/-- The word of R208: the opcode, A shifted by 8 and B by 16. -/
theorem commandWord_eq_or (op a b : Byte) :
    commandWord op a b = op.setWidth 32 ||| a.setWidth 32 <<< 8 ||| b.setWidth 32 <<< 16 := by
  ext n hn
  grind [commandWord]

/-- R203 by the fields of the word. -/
theorem legalWord_iff : LegalWord v ↔ zOf v = 0 ∧
    ∃ r ∈ opcodeMap, (opOf v).toNat = r.1 ∧ (aOf v).toNat ≤ r.2.1 ∧ (bOf v).toNat ≤ r.2.2 := by
  have hz : zOf v = 0 ↔ v.toNat / 2 ^ 24 = 0 := by
    rw [← BitVec.toNat_inj, zOf, BitVec.extractLsb'_toNat, Nat.shiftRight_eq_div_pow]
    change v.toNat / 2 ^ 24 % 2 ^ 8 = 0 ↔ v.toNat / 2 ^ 24 = 0
    omega
  rw [hz]
  simp only [LegalWord, opOf, aOf, bOf, BitVec.extractLsb'_toNat, Nat.shiftRight_eq_div_pow,
    Nat.pow_zero, Nat.div_one]

/-! ### What the operand checks accept -/

theorem operandsNone_eq_ok : operandsNone i a b z = .ok j ↔ z = 0 ∧ a = 0 ∧ b = 0 ∧ i = j := by
  unfold operandsNone
  split_ifs with hz hab
  · exact ⟨nofun, fun h => absurd h.1 hz⟩
  · exact ⟨nofun, fun ⟨_, ha, hb, _⟩ => hab.elim (absurd ha) (absurd hb)⟩
  · simp_all

theorem operandsA_eq_ok {f : Byte → Instr} {max : Nat} :
    operandsA f max a b z = .ok j ↔ z = 0 ∧ b = 0 ∧ a.toNat ≤ max ∧ f a = j := by
  unfold operandsA
  split_ifs <;> simp_all

theorem operandsAB_eq_ok {f : Byte → Byte → Instr} {maxA maxB : Nat} :
    operandsAB f maxA maxB a b z = .ok j ↔ z = 0 ∧ (a.toNat ≤ maxA ∧ b.toNat ≤ maxB) ∧ f a b = j := by
  unfold operandsAB
  split_ifs with hz hab
  · exact ⟨nofun, fun h => absurd h.1 hz⟩
  · exact ⟨nofun, fun ⟨_, ⟨ha, hb⟩, _⟩ => hab.elim ha.not_gt hb.not_gt⟩
  · simp_all

/-- The decoder on the fields of a word: Z is 0 and the command is the well-formed one with these fields
(R202, R203). -/
theorem decodeFields_eq_ok :
    decodeFields op.toNat a b z = .ok i ↔ z = 0 ∧ i.wf = true ∧ encode i = commandWord op a b := by
  constructor
  · intro h
    have hop : BitVec.ofNat 8 op.toNat = op := by simp
    unfold decodeFields at h
    split at h <;> rename_i hn
    case h_16 => cases h
    all_goals
      rw [hn] at hop
      subst hop
      simp only [operandsNone_eq_ok, operandsA_eq_ok, operandsAB_eq_ok] at h
    case h_6 => -- crc.bits x, k
      obtain ⟨rfl, ⟨-, hb⟩, rfl⟩ := h
      exact ⟨rfl, decide_eq_true hb, rfl⟩
    case h_2 | h_3 => -- the read commands, n in a range
      obtain ⟨rfl, rfl, ha, rfl⟩ := h
      exact ⟨rfl, decide_eq_true ha, rfl⟩
    case h_4 | h_5 => -- crc.init and crc.byte, the operand any byte
      obtain ⟨rfl, rfl, -, rfl⟩ := h
      exact ⟨rfl, rfl, rfl⟩
    all_goals
      obtain ⟨rfl, rfl, rfl, rfl⟩ := h
      exact ⟨rfl, rfl, rfl⟩
  · rintro ⟨rfl, hwf, henc⟩
    have hbyte : ∀ x : Byte, x.toNat ≤ 255 := fun x => Nat.le_of_lt_succ x.isLt
    cases i <;> obtain ⟨rfl, rfl, rfl⟩ := commandWord_inj.mp henc
    case brRead8 | brRead16 => exact operandsA_eq_ok.mpr ⟨rfl, rfl, of_decide_eq_true hwf, rfl⟩
    case crcInit v | crcByte v => exact operandsA_eq_ok.mpr ⟨rfl, rfl, hbyte v, rfl⟩
    case crcBits x k => exact operandsAB_eq_ok.mpr ⟨rfl, ⟨hbyte x, of_decide_eq_true hwf⟩, rfl⟩
    all_goals exact operandsNone_eq_ok.mpr ⟨rfl, rfl, rfl, rfl⟩

/-- Decoding and encoding are inverse to each other (R200 to R204). -/
theorem decode_eq_ok_iff : decode v = .ok i ↔ i.wf = true ∧ encode i = v := by
  rw [decode, decodeFields_eq_ok]
  constructor
  · rintro ⟨hz, hwf, henc⟩
    exact ⟨hwf, henc.trans (commandWord_fields hz)⟩
  · rintro ⟨hwf, rfl⟩
    have hz : zOf (encode i) = 0 := by cases i <;> exact zOf_commandWord _ _ _
    exact ⟨hz, hwf, (commandWord_fields hz).symm⟩

/-- Settles O4: one direction of `decode_eq_ok_iff`, at the encoded word. -/
theorem decodeEncodeRoundTrip : Obligations.DecodeEncodeRoundTrip := by
  intro i hwf
  exact decode_eq_ok_iff.mpr ⟨hwf, rfl⟩

/-- Settles O5: the other direction of `decode_eq_ok_iff`. -/
theorem encodeDecodeRoundTrip : Obligations.EncodeDecodeRoundTrip := by
  intro v i h
  exact decode_eq_ok_iff.mp h

/-! ### The legal words -/

theorem operandsNone_accepts_iff :
    (∃ j, operandsNone i a b z = .ok j) ↔ z = 0 ∧ a.toNat ≤ 0 ∧ b.toNat ≤ 0 := by
  simp [operandsNone_eq_ok, ← BitVec.toNat_inj]

theorem operandsA_accepts_iff {f : Byte → Instr} {max : Nat} :
    (∃ j, operandsA f max a b z = .ok j) ↔ z = 0 ∧ a.toNat ≤ max ∧ b.toNat ≤ 0 := by
  simp [operandsA_eq_ok, ← BitVec.toNat_inj, and_comm]

theorem operandsAB_accepts_iff {f : Byte → Byte → Instr} {maxA maxB : Nat} :
    (∃ j, operandsAB f maxA maxB a b z = .ok j) ↔ z = 0 ∧ a.toNat ≤ maxA ∧ b.toNat ≤ maxB := by
  simp [operandsAB_eq_ok]

/-- The rows of the map of R202 are the decoder's: each has its range of A and of B. -/
theorem decodeFields_accepts_iff {n : Nat} : (∃ i, decodeFields n a b z = .ok i) ↔
    z = 0 ∧ ∃ r ∈ opcodeMap, n = r.1 ∧ a.toNat ≤ r.2.1 ∧ b.toNat ≤ r.2.2 := by
  unfold decodeFields
  split
  case h_16 =>
    refine ⟨fun ⟨_, h⟩ => (nomatch h), fun ⟨_, r, hr, hn, _⟩ => ?_⟩
    subst hn
    fin_cases hr <;> contradiction
  all_goals
    simp only [opcodeMap, List.exists_mem_cons_iff, List.not_mem_nil, Nat.reduceEqDiff, exists_false,
      true_and, false_and, or_false, false_or, operandsNone_accepts_iff, operandsA_accepts_iff,
      operandsAB_accepts_iff]

/-- Settles O3: R203 by fields is what the decoder's rows accept. -/
theorem decodeAcceptsExactlyLegalWords : Obligations.DecodeAcceptsExactlyLegalWords := by
  intro v
  rw [legalWord_iff]
  exact decodeFields_accepts_iff

/-! ### The words of R208 -/

/-- Settles O1: each word is the encoding of its command. -/
theorem sampleWordsDecode : Obligations.SampleWordsDecode := by
  refine ⟨?_, ?_, ?_, ?_, ?_, ?_, ?_, ?_, ?_, ?_, ?_, ?_, ?_, ?_, ?_⟩ <;>
    exact decode_eq_ok_iff.mpr ⟨rfl, rfl⟩

/-- The word of a command with the operand A alone, as R208 writes it. -/
theorem commandWord_eq_or_A (op a : Byte) :
    commandWord op a 0 = op.setWidth 32 ||| a.setWidth 32 <<< 8 := by
  simp [commandWord_eq_or]

/-- Settles O2: each word is the encoding of its command, well-formed in the operands' ranges. -/
theorem operandWordsDecode : Obligations.OperandWordsDecode := by
  refine ⟨fun n hn => ?_, fun n hn => ?_, fun v => ?_, fun x => ?_, fun x k hk => ?_⟩
  · exact decode_eq_ok_iff.mpr ⟨decide_eq_true hn, commandWord_eq_or_A 0x11 n⟩
  · exact decode_eq_ok_iff.mpr ⟨decide_eq_true hn, commandWord_eq_or_A 0x12 n⟩
  · exact decode_eq_ok_iff.mpr ⟨rfl, commandWord_eq_or_A 0x20 v⟩
  · exact decode_eq_ok_iff.mpr ⟨rfl, commandWord_eq_or_A 0x21 x⟩
  · exact decode_eq_ok_iff.mpr ⟨decide_eq_true hk, commandWord_eq_or 0x22 x k⟩

end Sys2Proof.Machine
end

section
/-! SUPPORT. How much a whole frame takes from the source: the stream position and FRAME after a frame start
and after each block that ends with OK (R207, R605). -/

namespace Sys2Proof.Machine

variable {s t : State} {info : HdrInfo}

/-! ### The positions after successful reads -/

theorem readFields_some {ws vs : List Nat} {st st' : Stream} (hr : st.rem ≤ 7)
    (h : readFields ws st = (some vs, st')) : st' = st.advance ws.sum := by
  rw [readFields_spec ws st hr] at h
  split at h
  · exact (Prod.mk.inj h).2.symm
  · cases h

theorem readFrameFields_some {withCrc : Bool} {f : FrameFields} {st st' : Stream} (hr : st.rem ≤ 7)
    (h : readFrameFields withCrc info st = (some f, st')) :
    st' = st.advance (frameStartBits withCrc info) := by
  rw [readFrameFields_spec _ _ _ hr] at h
  split at h
  · exact (Prod.mk.inj h).2.symm
  · cases h

/-- The joint bitmap has one bit for each sub-band, in joint-stereo mode only (R205). -/
theorem jointWidths_sum (info : HdrInfo) :
    (jointWidths info).sum = if info.chm = .joint then info.nsub.toNat else 0 := by
  unfold jointWidths
  cases info.chm <;> cases info.nsub <;> rfl

theorem cellsOf_length (ch : Channels) (sb : Subbands) : (cellsOf ch sb).length = sb.toNat * ch.toNat := by
  cases ch <;> cases sb <;> rfl

/-- The scale factors have four bits for each cell (R205). -/
theorem sfWidths_sum (info : HdrInfo) :
    (sfWidths info).sum = 4 * info.nsub.toNat * (impliedChannels info.chm).toNat := by
  rw [sfWidths, List.map_const', List.sum_replicate, cellsOf_length, smul_eq_mul, Nat.mul_comm,
    Nat.mul_assoc]

/-- The fields a frame start reads are the CRC byte and the side information (R205, R601). -/
theorem frameStartBits_eq (withCrc : Bool) (info : HdrInfo) :
    frameStartBits withCrc info = (if withCrc then 8 else 0) + sideBits info := by
  rw [frameStartBits, jointWidths_sum, sfWidths_sum, sideBits, Nat.add_assoc]

/-- From an empty bit reader a read takes every byte of which it needs a bit (R301). -/
theorem emptied_advance_src (st : Stream) (n : Nat) :
    (st.emptied.advance n).src = st.src.drop ((n + 7) / 8) := rfl

/-! ### A frame in progress -/

/-- `t` stands `n` blocks after the frame start that ended in `s`, in a frame of `N` blocks: `n` times S bits
on (R207), with the widths of the frame and the other blocks left (R600). -/
structure BlocksDecoded (N : Nat) (s : State) (n : Nat) (t : State) : Prop where
  stream : t.stream = s.stream.advance (n * blockBits s)
  blockBits : blockBits t = blockBits s
  blocksLeft : t.frame.blocksLeft = N - n
  fstate : t.frame.fstate = if N - n = 0 then .exhausted else .active

/-- A frame start that ends with OK took its fields from a byte boundary and has all blocks left (R601). -/
theorem frameStart_ok {withCrc : Bool} (h : frameStart withCrc s = .next t)
    (hinfo : hdrInfo s.hdr = some info) (hok : t.status.code = .ok) :
    t.stream = s.stream.emptied.advance (frameStartBits withCrc info) ∧
      t.frame.fstate = .active ∧ t.frame.blocksLeft = frameBlockCount info := by
  have hstarted : ∀ {u : State} {f : FrameFields}, startFrame info f u = .next t →
      t.stream = u.stream ∧ t.frame.fstate = .active ∧ t.frame.blocksLeft = frameBlockCount info := by
    intro u f hstart
    obtain ⟨-, rfl⟩ | ⟨w, -, rfl⟩ := startFrame_cases hstart
    · cases hok
    · exact ⟨rfl, rfl, rfl⟩
  obtain ⟨-, rfl⟩ | ⟨info', hinfo', ⟨-, rfl⟩ | ⟨-, ⟨st, -, rfl⟩ | ⟨f, st, hread, hcheck⟩⟩⟩ :=
    frameStart_cases h
  · cases hok
  · cases hok
  · cases hok
  · obtain rfl := Option.some.inj (hinfo.symm.trans hinfo')
    obtain rfl := readFrameFields_some (Nat.zero_le 7) hread
    obtain ⟨-, hstart⟩ | ⟨rx, -, ⟨-, rfl⟩ | ⟨-, hstart⟩⟩ := checkFrame_cases hcheck
    · exact hstarted hstart
    · cases hok
    · exact hstarted hstart

/-- NEXT_BLOCK does not write BITS, so S stays what it is (R207, R604). -/
theorem execFrameNext_blockBits (h : execFrameNext s = .next t) : blockBits t = blockBits s := by
  obtain ⟨st, f, sb, pcm, hist, c, rfl⟩ := execFrameNext_writes h
  rfl

/-- A block that ends with OK takes its codewords and is one block less to go (R604). -/
theorem execFrameNext_ok (h : execFrameNext s = .next t) (hrem : s.stream.rem ≤ 7)
    (hok : t.status.code = .ok) :
    t.stream = s.stream.advance (blockBits s) ∧ blockBits t = blockBits s ∧
      t.frame.blocksLeft = s.frame.blocksLeft - 1 ∧
      t.frame.fstate = if s.frame.blocksLeft - 1 = 0 then .exhausted else .active := by
  obtain rfl | ⟨st, -, rfl⟩ | ⟨-, cs, st, hread, rfl⟩ := execFrameNext_outcomes h
  · cases hok
  · cases hok
  · have hst : st = s.stream.advance (blockBits s) := readFields_some hrem hread
    exact ⟨hst, execFrameNext_blockBits h, rfl, rfl⟩

/-- Blocks that all end with OK keep the count (R605). -/
theorem blocksDecoded_of_run {r : Nat → State} {N n : Nat} (hstart : BlocksDecoded N (r 1) 0 (r 1))
    (hrem : (r 1).stream.rem ≤ 7)
    (hnext : ∀ m < N, exec .frameNext (r (m + 1)) = .next (r (m + 2)) ∧ (r (m + 2)).status.code = .ok)
    (hn : n ≤ N) : BlocksDecoded N (r 1) n (r (n + 1)) := by
  induction n with
  | zero => exact hstart
  | succ n ih =>
    obtain ⟨hstream, hbits, hleft, -⟩ := ih (by omega)
    obtain ⟨hexec, hok⟩ := hnext n hn
    have hrem' : (r (n + 1)).stream.rem ≤ 7 := by
      rw [hstream]
      exact advance_rem_le _ _ hrem
    obtain ⟨hstream', hbits', hleft', hfstate'⟩ := execFrameNext_ok hexec hrem' hok
    have hsub : (r (n + 1)).frame.blocksLeft - 1 = N - (n + 1) := by omega
    refine ⟨?_, hbits'.trans hbits, hleft'.trans hsub, hsub ▸ hfstate'⟩
    rw [hstream', hstream, hbits, advance_advance, Nat.succ_mul]

/-- Settles O56: the start leaves a bit reader begun at a byte boundary, and each block takes S bits. -/
theorem frameTakesExactlyItsBytes : Obligations.FrameTakesExactlyItsBytes := by
  intro r i k info hi hinfo hstart hok hnext
  obtain ⟨withCrc, hexec, hk⟩ : ∃ withCrc, frameStart withCrc (r 0) = .next (r 1) ∧
      frameStartBits withCrc info = k + sideBits info := by
    obtain ⟨rfl, rfl⟩ | ⟨rfl, rfl⟩ := hi
    · exact ⟨true, hstart, frameStartBits_eq true info⟩
    · exact ⟨false, hstart, frameStartBits_eq false info⟩
  obtain ⟨hstream, hactive, hleft⟩ := frameStart_ok hexec hinfo hok
  have hblocks := frameBlockCount_range hinfo
  have hrem : (r 1).stream.rem ≤ 7 := by
    rw [hstream]
    exact advance_rem_le _ _ (Nat.zero_le 7)
  have hbegun : BlocksDecoded (frameBlockCount info) (r 1) 0 (r 1) := by
    refine ⟨by rw [Nat.zero_mul, advance_zero], rfl, hleft, ?_⟩
    rw [if_neg (by omega), hactive]
  have hend := blocksDecoded_of_run hbegun hrem hnext (Nat.le_refl _)
  refine ⟨?_, by rw [hend.fstate, Nat.sub_self, if_pos rfl]⟩
  rw [hend.stream, hstream, advance_advance, hk, emptied_advance_src]

end Sys2Proof.Machine
end

section
/-! SUPPORT. The bit reader's commands: what each outcome of a read is, and how a read splits into two
reads in order (R302 to R305). -/

namespace Sys2Proof.Machine

variable {s t : State} {max : Nat} {n : Byte}

/-! ### The value of a read -/

/-- The first k + m bits as a number: the first k bits above the m after them (R17, R305). -/
theorem valueOf_take_add {bits : List Bool} {k m : Nat} (h : k + m ≤ bits.length) :
    valueOf (bits.take (k + m)) = valueOf (bits.take k) * 2 ^ m + valueOf ((bits.drop k).take m) := by
  have hm : ((bits.drop k).take m).length = m :=
    List.length_take_of_le (by rw [List.length_drop]; omega)
  rw [List.take_add, valueOf_append, hm]

/-- RESULT holds the whole value of a read of at most 32 bits (R303, R304). -/
theorem toNat_ofNat_valueOf_take {k : Nat} (h : k ≤ 32) (bits : List Bool) :
    (BitVec.ofNat 32 (valueOf (bits.take k))).toNat = valueOf (bits.take k) := by
  rw [BitVec.toNat_ofNat, Nat.mod_eq_of_lt]
  calc valueOf (bits.take k) < 2 ^ (bits.take k).length := valueOf_lt _
    _ ≤ 2 ^ 32 := Nat.pow_le_pow_right (by decide) ((List.length_take_le _ _).trans h)

/-- Bits that BUF still holds are read without a byte from the source (R305). -/
theorem advance_src_of_le_rem {st : Stream} {k : Nat} (h : k ≤ st.rem) : (st.advance k).src = st.src := by
  have hf : st.fetches k = 0 := by
    rw [Stream.fetches]
    omega
  rw [show (st.advance k).src = st.src.drop (st.fetches k) from rfl, hf, List.drop_zero]

/-! ### The outcomes of a read command -/

theorem readToResult_of_lt (h : max < n.toNat) : readToResult max n s = .next (s.withCode .badCommand) :=
  if_pos h

theorem readToResult_of_le_avail (hr : s.stream.rem ≤ 7) (hn : n.toNat ≤ max)
    (ha : n.toNat ≤ s.stream.avail) :
    readToResult max n s = .next (((s.withStream (s.stream.advance n.toNat)).withResult
      (BitVec.ofNat 32 (valueOf (s.stream.pendingBits.take n.toNat)))).withCode .ok) := by
  rw [readToResult_spec max n s hr, if_neg (Nat.not_lt.mpr hn), if_pos ha]
  rfl

theorem readToResult_of_avail_lt (hr : s.stream.rem ≤ 7) (hn : n.toNat ≤ max)
    (ha : s.stream.avail < n.toNat) :
    readToResult max n s = .next ((s.withStream s.stream.drained).withCode .underflow) := by
  rw [readToResult_spec max n s hr, if_neg (Nat.not_lt.mpr hn), if_neg (Nat.not_le.mpr ha)]
  rfl

/-- Settles O25: both commands are `readToResult` with their own width. -/
theorem readCommandsReturnTheNextBits : Obligations.ReadCommandsReturnTheNextBits := by
  intro s n i max hr hi
  obtain ⟨hread8, hread16, -⟩ := operandWordsDecode
  have hword : n.toNat ≤ max →
      decode ((if max = 8 then 0x11 else 0x12) ||| n.setWidth 32 <<< 8) = .ok i := by
    obtain ⟨rfl, rfl⟩ | ⟨rfl, rfl⟩ := hi
    · exact hread8 n
    · exact hread16 n
  have hexec : exec i s = readToResult max n s := by
    obtain ⟨rfl, rfl⟩ | ⟨rfl, rfl⟩ := hi <;> rfl
  rw [hexec]
  exact ⟨hword, readToResult_of_lt, readToResult_of_le_avail hr, readToResult_of_avail_lt hr⟩

/-! ### A read in two parts -/

/-- BR_READ16 of bits that are there: RESULT and the position, with status OK (R304). -/
theorem execBrRead16_ok (h : exec (.brRead16 n) s = .next t) (hr : s.stream.rem ≤ 7) (hn : n.toNat ≤ 16)
    (ha : n.toNat ≤ s.stream.avail) :
    t.result.toNat = valueOf (s.stream.pendingBits.take n.toNat) ∧
      t.stream = s.stream.advance n.toNat ∧ t.status.code = .ok := by
  cases h.symm.trans (readToResult_of_le_avail hr hn ha)
  exact ⟨toNat_ofNat_valueOf_take (by omega) _, rfl, rfl⟩

/-- Settles O26: the second read starts where the first ended, on the bits after those it took. -/
theorem readsSplitAtAnyBoundary : Obligations.ReadsSplitAtAnyBoundary := by
  intro s t1 t2 t n1 n2 hr hn ha h1 h2 h
  have hsum : (n1 + n2).toNat = n1.toNat + n2.toNat := BitVec.toNat_add_of_lt (by omega)
  obtain ⟨hv1, hp1, -⟩ := execBrRead16_ok h1 hr (by omega) (by omega)
  have hr1 : t1.stream.rem ≤ 7 := hp1 ▸ advance_rem_le _ _ hr
  have ha1 : n2.toNat ≤ t1.stream.avail := by
    rw [hp1, advance_avail _ _ (by omega)]
    omega
  obtain ⟨hv2, hp2, -⟩ := execBrRead16_ok h2 hr1 (by omega) ha1
  obtain ⟨hv, hp, hok⟩ := execBrRead16_ok h hr (by omega) (by omega)
  refine ⟨?_, ?_, hok, fun hrem => ?_⟩
  · rw [hv, hv1, hv2, hp1, advance_pendingBits _ _ (by omega), hsum,
      valueOf_take_add (by rwa [pendingBits_length])]
  · rw [hp, hp2, hp1, advance_advance, hsum]
  · rw [hp1, advance_src_of_le_rem hrem]

/-! ### BR_RESET -/

/-- Settles O24: the word is that of R208, and the command ends with `Stream.emptied` as the position. -/
theorem brResetEmptiesTheReader : Obligations.BrResetEmptiesTheReader := by
  obtain ⟨hword, -⟩ := sampleWordsDecode
  exact ⟨hword, fun _ => rfl⟩

end Sys2Proof.Machine
end

section
/-! SUPPORT. CRC-8 as a fold over bits: what one bit does to the accumulator, how the byte fold and the tail
follow from it, and why a single flipped bit always shows (R350 to R358). -/

namespace Sys2Proof.Machine

/-! ### One bit -/

/-- Settles O27: the bit shifted out, xor the data bit, decides whether the polynomial is added. -/
theorem crcBitStep : Obligations.CrcBitStep := by
  intro c b
  have hshift : (c <<< 1).toNat = 2 * c.toNat % 256 := by
    rw [BitVec.toNat_shiftLeft, Nat.shiftLeft_eq, pow_one, Nat.mul_comm]
  unfold crcBit
  by_cases h : c.getLsbD 7 = b
  · simp only [h, Bool.xor_self, Bool.false_eq_true, if_false, if_true, hshift]
  · simp only [h, bne_iff_ne.mpr h, if_true, if_false, BitVec.toNat_xor, hshift]
    rfl

/-- The lowest bit shows whether the polynomial was added (R350). -/
theorem crcBit_getLsbD_zero (c : Byte) (b : Bool) : (crcBit c b).getLsbD 0 = (c.getLsbD 7 ^^ b) := by
  unfold crcBit
  split <;> simp_all [Config.crcPoly]

/-- The two data bits lead to different accumulators. -/
theorem crcBit_not_ne (c : Byte) (b : Bool) : crcBit c b ≠ crcBit c (!b) := by
  intro h
  have h0 : (c.getLsbD 7 ^^ b) = (c.getLsbD 7 ^^ !b) := by
    rw [← crcBit_getLsbD_zero, h, crcBit_getLsbD_zero]
  simp at h0

/-- A one-bit fold loses nothing of the accumulator: the lowest bit shows the bit shifted out. -/
theorem crcBit_injective (b : Bool) : Function.Injective (crcBit · b) := by
  intro c d (h : crcBit c b = crcBit d b)
  have hadd : (c.getLsbD 7 ^^ b) = (d.getLsbD 7 ^^ b) := by
    rw [← crcBit_getLsbD_zero, h, crcBit_getLsbD_zero]
  have htop : c.getLsbD 7 = d.getLsbD 7 := by simpa using hadd
  have hshift : c <<< 1 = d <<< 1 := by
    unfold crcBit at h
    rw [htop] at h
    split at h
    · exact (BitVec.xor_left_inj _).mp h
    · exact h
  apply BitVec.eq_of_getLsbD_eq
  intro i hi
  by_cases h7 : i = 7
  · rw [h7, htop]
  · have hbit := congrArg (·.getLsbD (i + 1)) hshift
    have hlt : i + 1 < 8 := by omega
    simpa [hlt, BitVec.getLsbD_eq_getElem hi] using hbit

/-- A difference in the accumulator moves up by one bit, its top bit acting as a data bit (R350). -/
theorem crcBit_xor_false (c y : Byte) :
    crcBit (c ^^^ y) false = crcBit c (y.getLsbD 7) ^^^ y <<< 1 := by
  unfold crcBit
  rw [BitVec.getLsbD_xor, Bool.xor_false, BitVec.shiftLeft_xor_distrib]
  split
  · rw [BitVec.xor_assoc, BitVec.xor_comm (y <<< 1), BitVec.xor_assoc]
  · rfl

/-! ### A sequence of bits -/

/-- The CRC over two pieces in order (R354). -/
theorem crcSeq_append (c : Byte) (a b : List Bool) : crcSeq c (a ++ b) = crcSeq (crcSeq c a) b :=
  List.foldl_append

/-- Folding the same bits keeps different accumulators apart. -/
theorem crcSeq_injective (bits : List Bool) : Function.Injective (crcSeq · bits) := by
  induction bits with
  | nil => exact fun _ _ h => h
  | cons b bs ih => exact fun _ _ h => crcBit_injective b (ih h)

/-- Settles O32: at the bit the accumulators part, and the bits after it keep them apart. -/
theorem crcSeesEverySingleBitError : Obligations.CrcSeesEverySingleBitError := by
  intro init a b x h
  rw [crcSeq_append, crcSeq_append] at h
  exact crcBit_not_ne _ x (crcSeq_injective b h)

/-- A sequence with the bit at one of its positions flipped has another CRC (R358). -/
theorem crcSeq_modify_not_ne (c : Byte) {bits : List Bool} {n : Nat} (h : n < bits.length) :
    crcSeq c (bits.modify n not) ≠ crcSeq c bits := by
  have hbits : bits = bits.take n ++ bits[n] :: bits.drop (n + 1) := by
    rw [← List.drop_eq_getElem_cons h, List.take_append_drop]
  rw [List.modify_eq_take_cons_drop h]
  conv_rhs => rw [hbits]
  exact (crcSeesEverySingleBitError c _ _ _).symm

/-! ### Bytes -/

/-- The bits of a byte, x[7] first (R155). -/
theorem byteBits_eq (x : Byte) : byteBits x = (List.range 8).map fun i => x.getLsbD (7 - i) := rfl

/-- The tail folds the high bits of a byte (R353). -/
theorem crcTail_eq (c x : Byte) {k : Nat} (h : k ≤ 8) : crcTail c x k = crcSeq c ((byteBits x).take k) := by
  rw [byteBits_eq, ← List.map_take, List.take_range, Nat.min_eq_left h, crcTail]

/-- After k zero bits, what was added to the accumulator has acted as k data bits and the rest of it stands
shifted up by k (R351, R352). -/
theorem crcSeq_xor_zeros (c x : Byte) {k : Nat} (h : k ≤ 8) :
    crcSeq (c ^^^ x) (List.replicate k false) = crcTail c x k ^^^ x <<< k := by
  induction k with
  | zero => simp [crcSeq, crcTail]
  | succ k ih =>
    have hbit : (x <<< k).getLsbD 7 = x.getLsbD (7 - k) := by
      have hk : ¬7 < k := by omega
      rw [BitVec.getLsbD_shiftLeft, decide_eq_false hk]
      rfl
    have htail : crcTail c x (k + 1) = crcBit (crcTail c x k) (x.getLsbD (7 - k)) := by
      rw [crcTail, List.range_succ, List.map_append, crcSeq_append]
      rfl
    rw [List.replicate_succ', crcSeq_append, ih (by omega), htail, BitVec.shiftLeft_add, ← hbit]
    exact crcBit_xor_false _ _

/-- The byte fold is the fold of the byte's bits (R352). -/
theorem crcByteFold_eq (c x : Byte) : crcByteFold c x = crcSeq c (byteBits x) := by
  have hout : x <<< 8 = 0#8 := BitVec.shiftLeft_eq_zero (Nat.le_refl 8)
  rw [crcByteFold, crcTable, crcSeq_xor_zeros c x (Nat.le_refl 8), hout, BitVec.xor_zero,
    crcTail_eq c x (Nat.le_refl 8), List.take_of_length_le (byteBits_length x).le]

/-- The byte folds of a byte sequence are the fold of its bits (R354). -/
theorem foldl_crcByteFold_eq (init : Byte) (x : List Byte) :
    x.foldl crcByteFold init = crcSeq init (x.flatMap byteBits) := by
  induction x generalizing init with
  | nil => rfl
  | cons b x ih => rw [List.foldl_cons, ih, crcByteFold_eq, List.flatMap_cons, crcSeq_append]

/-- The first bits of a byte sequence: whole bytes and then the high bits of the next byte (R354). -/
theorem take_flatMap_byteBits {x : List Byte} {q r : Nat} (hq : q ≤ x.length) :
    (x.flatMap byteBits).take (8 * q + r) =
      (x.take q).flatMap byteBits ++ ((x.drop q).flatMap byteBits).take r := by
  have hlen : ((x.take q).flatMap byteBits).length = 8 * q := by
    rw [flatMap_byteBits_length, List.length_take_of_le hq]
  conv_lhs => rw [← List.take_append_drop q x, List.flatMap_append, ← hlen, List.take_length_add_append]

/-- Settles O31: whole bytes by the byte fold, the rest by the tail. -/
theorem crcOfBytesIsCrcOfBits : Obligations.CrcOfBytesIsCrcOfBits := by
  refine ⟨fun init x nbits h => ?_, crcSeq_append⟩
  have hsplit : nbits = 8 * (nbits / 8) + nbits % 8 := (Nat.div_add_mod nbits 8).symm
  conv_rhs => rw [hsplit, take_flatMap_byteBits (by omega), crcSeq_append, ← foldl_crcByteFold_eq]
  unfold crc8
  by_cases h0 : nbits % 8 = 0
  · rw [if_pos h0, h0, List.take_zero]
    rfl
  · have hlt : nbits / 8 < x.length := by omega
    have hget : x.getD (nbits / 8) 0 = x[nbits / 8] := by simp [hlt]
    rw [if_neg h0, crcTail_eq _ _ (by omega), hget, List.drop_eq_getElem_cons hlt, List.flatMap_cons,
      List.take_append_of_le_length (by rw [byteBits_length]; omega)]

/-! ### The commands -/

/-- Settles O28: the word is that of R208. -/
theorem crcInitSetsAcc : Obligations.CrcInitSetsAcc := by
  obtain ⟨-, -, hword, -⟩ := operandWordsDecode
  exact fun s v => ⟨hword v, rfl⟩

/-- Settles O29: the table entry is the fold of the byte's bits, written out. -/
theorem crcByteFoldsEightBits : Obligations.CrcByteFoldsEightBits := by
  obtain ⟨-, -, -, hword, -⟩ := operandWordsDecode
  exact fun s x => ⟨hword x, rfl, crcByteFold_eq s.crc.acc x⟩

/-- Settles O30: up to seven bits are a tail, more are refused. -/
theorem crcBitsFoldsHighBits : Obligations.CrcBitsFoldsHighBits := by
  obtain ⟨-, -, -, -, hword⟩ := operandWordsDecode
  refine fun s x k => ⟨hword x k, fun hk => ?_, fun hk => if_pos hk⟩
  have hacc : crcTail s.crc.acc x k.toNat = ((byteBits x).take k.toNat).foldl crcBit s.crc.acc :=
    crcTail_eq _ _ (by omega)
  rw [← hacc]
  exact if_neg (Nat.not_lt.mpr hk)

end Sys2Proof.Machine
end

section
/-! SUPPORT. What FRAME_START_CRC compares, on the bits of the wire and of HDR, and why one flipped bit of
either is rejected (R358, R601, R603). -/

namespace Sys2Proof.Machine

variable {s : State} {info info' : HdrInfo} {n : Nat}

/-! ### Bit sequences and numbers -/

/-- Bit sequences of the same length that stand for the same number are the same (R17). -/
theorem valueOf_inj {a b : List Bool} (hlen : a.length = b.length) (h : valueOf a = valueOf b) : a = b := by
  induction a generalizing b with
  | nil => exact (List.length_eq_zero_iff.mp hlen.symm).symm
  | cons x a ih =>
    obtain _ | ⟨y, b⟩ := b
    · cases hlen
    · have hl : a.length = b.length := Nat.succ.inj hlen
      have ha := valueOf_lt a
      have hb := valueOf_lt b
      rw [valueOf_cons, valueOf_cons, hl] at h
      rw [hl] at ha
      have hxy : x = y := by cases x <;> cases y <;> simp at h ⊢ <;> omega
      subst hxy
      rw [ih hl (Nat.add_left_cancel h)]

/-- Bytes with the same bits are the same. -/
theorem ofNat_valueOf_inj {a b : List Bool} (ha : a.length = 8) (hb : b.length = 8)
    (h : BitVec.ofNat 8 (valueOf a) = BitVec.ofNat 8 (valueOf b)) : a = b := by
  have hval : ∀ {l : List Bool}, l.length = 8 → (BitVec.ofNat 8 (valueOf l)).toNat = valueOf l := fun hl =>
    Nat.mod_eq_of_lt (hl ▸ valueOf_lt _)
  exact valueOf_inj (ha.trans hb.symm) (by rw [← hval ha, h, hval hb])

/-- A bit sequence is the bits of the number it stands for (R17). -/
theorem bitsMsb_valueOf {bits : List Bool} (h : bits.length = n) : bitsMsb n (valueOf bits) = bits := by
  refine valueOf_inj ((bitsMsb_length _ _).trans h.symm) ?_
  rw [valueOf_bitsMsb, Nat.mod_eq_of_lt (h ▸ valueOf_lt bits)]

/-- The low bits of a number are those of its remainder. -/
theorem bitsMsb_mod (m v : Nat) : bitsMsb m (v % 2 ^ m) = bitsMsb m v := by
  rw [← valueOf_bitsMsb, bitsMsb_valueOf (bitsMsb_length m v)]

/-- The bits of a number, the lowest last. -/
theorem getElem_bitsMsb {m v j : Nat} (h : j < (bitsMsb m v).length) :
    (bitsMsb m v)[j] = v.testBit (m - 1 - j) := by
  induction m generalizing j with
  | zero => cases h
  | succ m ih =>
    cases j with
    | zero => rfl
    | succ j =>
      rw [bitsMsb_length] at h
      simp only [bitsMsb, List.getElem_cons_succ]
      rw [ih (by rw [bitsMsb_length]; omega)]
      congr 1
      omega

/-- Flipping a bit of a number flips that bit of its bit sequence. -/
theorem bitsMsb_xor_twoPow {m i : Nat} (v : Nat) (h : i < m) :
    bitsMsb m (v ^^^ 2 ^ i) = (bitsMsb m v).modify (m - 1 - i) not := by
  apply List.ext_getElem (by simp)
  intro j hj _
  rw [bitsMsb_length] at hj
  rw [getElem_bitsMsb, List.getElem_modify, getElem_bitsMsb, Nat.testBit_xor, Nat.testBit_two_pow]
  by_cases hij : m - 1 - i = j
  · have hi : i = m - 1 - j := by omega
    rw [if_pos hij, decide_eq_true hi, Bool.xor_true]
  · have hi : ¬i = m - 1 - j := by omega
    rw [if_neg hij, decide_eq_false hi, Bool.xor_false]

/-- A sequence with a bit flipped is another sequence. -/
theorem modify_not_ne {bits : List Bool} (h : n < bits.length) : bits.modify n not ≠ bits := by
  intro heq
  have hget : (bits.modify n not)[n]? = bits[n]? := by rw [heq]
  simp [h] at hget

/-- Fields of one width, cut off a bit sequence and written out again. -/
theorem fieldsOf_flatMap_bitsMsb {w : Nat} {ws : List Nat} (hw : ∀ v ∈ ws, v = w) {bits : List Bool}
    (h : ws.sum ≤ bits.length) : (fieldsOf ws bits).flatMap (bitsMsb w) = bits.take ws.sum := by
  induction ws generalizing bits with
  | nil => rfl
  | cons v ws ih =>
    obtain ⟨rfl, hws⟩ := List.forall_mem_cons.mp hw
    rw [List.sum_cons] at h ⊢
    rw [fieldsOf, List.flatMap_cons, bitsMsb_valueOf (List.length_take_of_le (by omega)),
      ih hws (by rw [List.length_drop]; omega), List.take_add]

/-! ### The bits under the frame CRC -/

/-- The bits under the CRC are the encoded header and the side information as the wire carries it after the
CRC byte (R603). -/
theorem crcSeq_frameCrcBits (h : 8 + sideBits info ≤ s.wireBits.length) :
    crcSeq s.params.crcInit (frameCrcBits s.params s.hdr (frameFieldsOf true info s.wireBits)) =
      s.wireCrc info := by
  have hside : sideBits info = (jointWidths info).sum + (sfWidths info).sum := by
    rw [jointWidths_sum, sfWidths_sum, sideBits]
  have hsf : ∀ v ∈ sfWidths info, v = 4 := by simp [sfWidths]
  have hhdr : bitsMsb 8 (encodeHeader s.params s.hdr).2.1.toNat ++
      bitsMsb 8 (encodeHeader s.params s.hdr).2.2.toNat =
      if hdrMode s.hdr then List.replicate 16 false
      else byteBits (hdrByte1 s.hdr) ++ byteBits (hdrByte2 s.hdr) := by
    unfold encodeHeader
    split
    · simp [bitsMsb]
    · rfl
  rw [State.wireCrc, frameCrcBits, hhdr, List.append_assoc, hside, List.take_add, List.drop_drop]
  simp only [frameFieldsOf, if_true]
  rw [fieldsOf_flatMap_bitsMsb (jointWidths_eq_one info) (by rw [List.length_drop]; omega),
    fieldsOf_flatMap_bitsMsb hsf (by rw [List.length_drop]; omega)]

/-- In the parameterized mode the encoded header is HDR[15:0] (R401, R404). -/
theorem wireCrc_parameterized (info : HdrInfo) (hm : hdrMode s.hdr = false) : s.wireCrc info =
    crcSeq (crcSeq s.params.crcInit (bitsMsb 16 s.hdr.toNat)) ((s.wireBits.drop 8).take (sideBits info)) := by
  have hbytes : byteBits (hdrByte1 s.hdr) ++ byteBits (hdrByte2 s.hdr) = bitsMsb 16 s.hdr.toNat := by
    rw [bitsMsb_add 8 8, byteBits, byteBits, hdrByte1, hdrByte2, BitVec.extractLsb'_toNat,
      BitVec.extractLsb'_toNat, bitsMsb_mod, bitsMsb_mod, Nat.shiftRight_eq_div_pow, Nat.shiftRight_zero]
  rw [State.wireCrc, hm, ← crcSeq_append, ← hbytes]
  rfl

/-! ### The comparison -/

/-- The CRC byte of the wire is the CRC over the header and the side information (R603). -/
def State.CrcMatches (s : State) (info : HdrInfo) : Prop :=
  s.wireCrc info = BitVec.ofNat 8 (valueOf (s.wireBits.take 8))

theorem wireBits_length (s : State) : s.wireBits.length = 8 * s.stream.src.length :=
  flatMap_byteBits_length _

/-- A frame start with a header that fits and all its fields on the wire goes on to the comparison (R601). -/
theorem frameStart_of_fields_on_wire {withCrc : Bool} (hinfo : hdrInfo s.hdr = some info)
    (hfits : fits s.params info = true)
    (hlen : (if withCrc then 8 else 0) + sideBits info ≤ s.wireBits.length) :
    frameStart withCrc s = checkFrame info (frameFieldsOf withCrc info s.wireBits)
      (s.idleFrame.withStream (s.stream.emptied.advance ((if withCrc then 8 else 0) + sideBits info))) := by
  have hread : readFrameFields withCrc info s.stream.emptied =
      (some (frameFieldsOf withCrc info s.wireBits),
        s.stream.emptied.advance ((if withCrc then 8 else 0) + sideBits info)) := by
    rw [wireBits_length] at hlen
    rw [readFrameFields_spec _ _ _ (Nat.zero_le 7), frameStartBits_eq, emptied_avail, if_pos hlen,
      emptied_pendingBits, State.wireBits]
  simp only [frameStart, hinfo, hfits, hread, Bool.true_eq_false, if_false]

/-- A frame whose CRC byte is not the CRC is rejected, CRC showing both values (R601, R603). -/
theorem frameStart_of_not_crcMatches (hinfo : hdrInfo s.hdr = some info) (hfits : fits s.params info = true)
    (hlen : 8 + sideBits info ≤ s.wireBits.length) (hcrc : ¬s.CrcMatches info) :
    frameStart true s = .next (((s.idleFrame.withStream (s.stream.emptied.advance (8 + sideBits info))).withCrc
      { acc := s.wireCrc info, rx := BitVec.ofNat 8 (valueOf (s.wireBits.take 8)) }).withCode
      .checksumMismatch) := by
  rw [frameStart_of_fields_on_wire (withCrc := true) hinfo hfits hlen, checkFrame]
  have hacc := crcSeq_frameCrcBits hlen
  exact hacc ▸ if_pos (hacc ▸ hcrc)

/-- A frame that is not rejected has the right CRC byte (R601). -/
theorem crcMatches_of_frameStart {t : State} (hinfo : hdrInfo s.hdr = some info)
    (hfits : fits s.params info = true) (hlen : 8 + sideBits info ≤ s.wireBits.length)
    (h : frameStart true s = .next t) (hcode : t.status.code ≠ .checksumMismatch) : s.CrcMatches info := by
  by_contra hcrc
  cases h.symm.trans (frameStart_of_not_crcMatches hinfo hfits hlen hcrc)
  exact hcode rfl

/-! ### One flipped bit -/

/-- A flipped bit of the CRC byte, the joint bitmap or the scale factors (R358). -/
theorem not_crcMatches_of_wire_flip {st : Stream}
    (hbits : (s.withStream st).wireBits = s.wireBits.modify n not) (hn : n < 8 + sideBits info)
    (hlen : 8 + sideBits info ≤ s.wireBits.length) (h : s.CrcMatches info) :
    ¬(s.withStream st).CrcMatches info := by
  intro h'
  have htake : (s.wireBits.take 8).length = 8 := List.length_take_of_le (by omega)
  unfold State.CrcMatches State.wireCrc at h h'
  rw [withStream_params, withStream_hdr, hbits, List.take_modify] at h'
  by_cases h8 : n < 8
  · rw [List.drop_modify_of_lt _ _ _ _ h8, h] at h'
    have hbyte := ofNat_valueOf_inj htake (by simpa using htake) h'
    exact modify_not_ne (by omega) hbyte.symm
  · have hside : ((s.wireBits.drop 8).take (sideBits info)).length = sideBits info :=
      List.length_take_of_le (by rw [List.length_drop]; omega)
    rw [List.drop_modify_of_ge _ _ _ _ (Nat.not_lt.mp h8), List.take_modify,
      List.modify_eq_self (l := s.wireBits.take 8) (by omega), ← h, crcSeq_append, crcSeq_append] at h'
    exact crcSeq_modify_not_ne _ (by omega) h'

/-- A flipped bit of HDR[15:0] that keeps the length of the side information (R358, R401). -/
theorem not_crcMatches_of_hdr_flip (hn : n < 16) (hm : hdrMode s.hdr = false)
    (hside : sideBits info' = sideBits info) (h : s.CrcMatches info) :
    ¬(s.withHdr (s.hdr ^^^ BitVec.twoPow 32 n)).CrcMatches info' := by
  intro h'
  have hm' : hdrMode (s.withHdr (s.hdr ^^^ BitVec.twoPow 32 n)).hdr = false := by
    have h16 : n ≠ 16 := by omega
    simpa [hdrMode, BitVec.getLsbD_twoPow, h16.symm] using hm
  have hflip : (s.hdr ^^^ BitVec.twoPow 32 n).toNat = s.hdr.toNat ^^^ 2 ^ n := by
    rw [BitVec.toNat_xor, BitVec.toNat_twoPow_of_lt (by omega)]
  unfold State.CrcMatches at h h'
  rw [wireCrc_parameterized _ hm'] at h'
  rw [wireCrc_parameterized _ hm, ← hside] at h
  have hacc := crcSeq_injective _ (h'.trans h.symm)
  rw [withHdr_hdr, withHdr_params, hflip, bitsMsb_xor_twoPow _ hn] at hacc
  exact crcSeq_modify_not_ne _ (by rw [bitsMsb_length]; omega) hacc

/-- Settles O53: the frame that is not rejected has the right CRC byte, and after the flip it is wrong. -/
theorem singleBitErrorIsRejected : Obligations.SingleBitErrorIsRejected := by
  intro s s' t info n hinfo hch hsb hlen hexec hcode hflip
  rw [← wireBits_length] at hlen
  have hfits := (fits_iff s.params info).mpr ⟨hch, hsb⟩
  have hmatch := crcMatches_of_frameStart hinfo hfits hlen hexec hcode
  obtain ⟨hn, hs', hbits⟩ | ⟨hn, hm, rfl, info', hinfo', hch', hsb', hjoint⟩ := hflip
  · obtain ⟨st, rfl⟩ : ∃ st, s' = s.withStream st := ⟨_, hs'⟩
    have hmod : (s.withStream st).wireBits = s.wireBits.modify n not :=
      hbits.trans (List.modify_eq_set ..).symm
    have hlen' : 8 + sideBits info ≤ (s.withStream st).wireBits.length := by
      rwa [hmod, List.length_modify]
    have hbad := not_crcMatches_of_wire_flip hmod hn hlen hmatch
    exact ⟨_, frameStart_of_not_crcMatches hinfo hfits hlen' hbad, rfl, rfl, rfl, rfl, rfl⟩
  · have hside : sideBits info' = sideBits info := by
      simp only [sideBits, hch', hsb', hjoint]
    have hfits' := (fits_iff s.params info').mpr ⟨hch'.trans hch, hsb'.trans hsb⟩
    have hbad := not_crcMatches_of_hdr_flip hn hm hside hmatch
    exact ⟨_, frameStart_of_not_crcMatches hinfo' hfits' (hside ▸ hlen) hbad, rfl, rfl, rfl, rfl, rfl⟩

end Sys2Proof.Machine
end

section
/-! SUPPORT. The header codec: a held header is put together from its mode and its two bytes, encoding and
decoding are inverse on it, and what each outcome of the two commands leaves (R400 to R407). -/

namespace Sys2Proof.Machine

variable {s t : State} {p : Params} {hdr w : Word} {b0 b1 b2 : Byte} {q : List Byte}

/-! ### The bytes of a word -/

/-- Sixteen bits and two bytes side by side, each shifted to its place. -/
theorem append_bytes_eq_or (x : BitVec 16) (a b : Byte) :
    (x ++ a ++ b : BitVec 32) = x.setWidth 32 <<< 16 ||| a.setWidth 32 <<< 8 ||| b.setWidth 32 :=
  (BitVec.setWidth_eq _).symm.trans BitVec.setWidth_append_append_eq_shiftLeft_setWidth_or

/-! ### The fields of HDR -/

/-- The field bits of HDR are its two bytes (R401). -/
theorem hdrByte1_append_hdrByte2 (hdr : Word) :
    (hdrByte1 hdr ++ hdrByte2 hdr : BitVec 16) = hdr.extractLsb' 0 16 :=
  BitVec.extractLsb'_append_extractLsb'_eq_extractLsb' rfl

/-- The field bits of HDR, each byte shifted to its place (R401). -/
theorem and_fieldMask (hdr : Word) :
    hdr &&& (0x0000FFFF : Word) = (hdrByte1 hdr).setWidth 32 <<< 8 ||| (hdrByte2 hdr).setWidth 32 := by
  rw [← BitVec.setWidth_append_eq_shiftLeft_setWidth_or, hdrByte1_append_hdrByte2]
  apply BitVec.eq_of_toNat_eq
  have hmask : (hdr &&& (0x0000FFFF : Word)).toNat = hdr.toNat % 2 ^ 16 :=
    Nat.and_two_pow_sub_one_eq_mod _ 16
  rw [hmask, BitVec.toNat_setWidth, BitVec.extractLsb'_toNat, Nat.shiftRight_zero]
  omega

/-- A single bit, as a field of width one. -/
theorem extractLsb'_one_eq_ofBool (hdr : Word) (i : Nat) :
    hdr.extractLsb' i 1 = BitVec.ofBool (hdr.getLsbD i) := by
  ext j hj
  obtain rfl : j = 0 := by omega
  simp

/-- Above the field bits a held header has V, the reserved bits and MODE (R56). -/
theorem hdr_high (hv : hdrV hdr = true) (hres : hdr.extractLsb' 17 14 = 0#14) :
    hdr.extractLsb' 16 16 = (1#1 ++ 0#14 ++ BitVec.ofBool (hdrMode hdr) : BitVec 16) := by
  have hv' : hdr.extractLsb' 31 1 = 1#1 := by
    rw [extractLsb'_one_eq_ofBool, ← hdrV, hv]
    rfl
  rw [hdrMode, ← extractLsb'_one_eq_ofBool, ← hv', ← hres,
    BitVec.extractLsb'_append_extractLsb'_eq_extractLsb' (start₁ := 17) (len₁ := 14) rfl,
    BitVec.extractLsb'_append_extractLsb'_eq_extractLsb' (start₁ := 16) (len₁ := 1) rfl]

/-- A word is its high half and its two low bytes. -/
theorem hdr_eq_append (hdr : Word) :
    (hdr.extractLsb' 16 16 ++ hdrByte1 hdr ++ hdrByte2 hdr : BitVec 32) = hdr := by
  rw [hdrByte1, hdrByte2, BitVec.extractLsb'_append_extractLsb'_eq_extractLsb' (start₁ := 8) (len₁ := 8) rfl,
    BitVec.extractLsb'_append_extractLsb'_eq_extractLsb' (start₁ := 0) (len₁ := 8) rfl,
    BitVec.extractLsb'_eq_self]

/-! ### Decoding and encoding -/

/-- SYNC_SBC gives a header in the parameterized mode (R403). -/
theorem decodeHeader_sbc : decodeHeader p 0x9C b1 b2 =
    some (0x80000000 ||| b1.setWidth 32 <<< 8 ||| b2.setWidth 32) :=
  congrArg some (append_bytes_eq_or 0x8000 b1 b2)

/-- SYNC_MSBC gives the header of the fixed mode (R403). -/
theorem decodeHeader_msbc (h : b0 ≠ 0x9C) (hm : b0 = p.syncMsbc) :
    decodeHeader p b0 b1 b2 = some 0x80010000 :=
  (if_neg h).trans (if_pos hm)

/-- Any other byte is no sync word (R403). -/
theorem decodeHeader_other (h : b0 ≠ 0x9C) (hm : b0 ≠ p.syncMsbc) : decodeHeader p b0 b1 b2 = none :=
  (if_neg h).trans (if_neg hm)

/-- In the parameterized mode a header is sent as SYNC_SBC and its two bytes (R401, R404). -/
theorem encodeHeader_parameterized (hm : hdrMode hdr = false) :
    encodeHeader p hdr = (0x9C, hdrByte1 hdr, hdrByte2 hdr) :=
  if_neg (by rw [hm]; decide)

/-- In the fixed mode a header is sent as SYNC_MSBC and two zeros (R404). -/
theorem encodeHeader_fixed (hm : hdrMode hdr = true) : encodeHeader p hdr = (p.syncMsbc, 0, 0) :=
  if_pos hm

/-- The bytes of a held header decode to it, in both modes (R407). -/
theorem decodeHeader_encodeHeader (hp : p.syncMsbc ≠ 0x9C) (hv : hdrV hdr = true)
    (hres : hdr.extractLsb' 17 14 = 0#14) (hfix : hdrMode hdr = true → hdr.extractLsb' 0 16 = 0) :
    decodeHeader p (encodeHeader p hdr).1 (encodeHeader p hdr).2.1 (encodeHeader p hdr).2.2 = some hdr := by
  cases hm : hdrMode hdr with
  | false =>
    rw [encodeHeader_parameterized hm]
    conv_rhs => rw [← hdr_eq_append hdr, hdr_high hv hres, hm]
    rfl
  | true =>
    rw [encodeHeader_fixed hm]
    refine (decodeHeader_msbc hp rfl).trans (congrArg some ?_)
    conv_rhs => rw [← BitVec.extractLsb'_append_extractLsb' (w := 16) (len := 16) (x := hdr),
      hdr_high hv hres, hm, hfix hm]
    decide

/-! ### HDR_DECODE -/

/-- Three bytes that are a header are taken, and HDR is that header (R403). -/
theorem execHdrDecode_of_header (hsrc : s.stream.src = b0 :: b1 :: b2 :: q)
    (hdec : decodeHeader s.params b0 b1 b2 = some w) :
    execHdrDecode s = .next (((s.withStream { s.stream with src := q }).withHdr w).withCode .ok) := by
  simp only [execHdrDecode, hsrc, srcRead3, srcRead1, hdec, finish]

/-- Three bytes without a sync word are taken, and HDR stays (R403). -/
theorem execHdrDecode_of_no_sync (hsrc : s.stream.src = b0 :: b1 :: b2 :: q)
    (hdec : decodeHeader s.params b0 b1 b2 = none) :
    execHdrDecode s = .next ((s.withStream { s.stream with src := q }).withCode .unrecognizedSync) := by
  simp only [execHdrDecode, hsrc, srcRead3, srcRead1, hdec, finish]

/-- Fewer than three bytes are all taken, and HDR stays (R154, R403). -/
theorem execHdrDecode_of_short (hlen : s.stream.src.length < 3) :
    execHdrDecode s = .next ((s.withStream { s.stream with src := [] }).withCode .underflow) := by
  obtain ⟨_, _, _, q, hsrc, -⟩ | ⟨-, hread⟩ := srcRead3_spec s.stream.src
  · rw [hsrc, List.length_cons, List.length_cons, List.length_cons] at hlen
    omega
  · simp only [execHdrDecode, hread, finish]

/-- Settles O33: the first byte decides, where three are there. -/
theorem hdrDecodeOutcomes : Obligations.HdrDecodeOutcomes := by
  refine ⟨decode_eq_ok_iff.mpr ⟨rfl, rfl⟩, fun s b0 b1 b2 q =>
    ⟨fun hsrc => ?_, fun hlen => execHdrDecode_of_short hlen⟩⟩
  by_cases hsbc : b0 = 0x9C
  · rw [if_pos hsbc]
    subst hsbc
    exact execHdrDecode_of_header hsrc decodeHeader_sbc
  · rw [if_neg hsbc]
    by_cases hmsbc : b0 = s.params.syncMsbc
    · rw [if_pos hmsbc]
      exact execHdrDecode_of_header hsrc (decodeHeader_msbc hsbc hmsbc)
    · rw [if_neg hmsbc]
      exact execHdrDecode_of_no_sync hsrc (decodeHeader_other hsbc hmsbc)

/-! ### HDR_ENCODE -/

/-- The three bytes of a held header, placed as the opcode and operands of a command word are (R200, R404). -/
theorem execHdrEncode_of_held (hv : hdrV s.hdr = true) :
    execHdrEncode s = .next ((s.withResult (commandWord (encodeHeader s.params s.hdr).2.2
      (encodeHeader s.params s.hdr).2.1 (encodeHeader s.params s.hdr).1)).withCode .ok) :=
  if_neg (by rw [hv]; decide)

/-- Settles O34: without a header nothing is encoded, and with one each mode has its three bytes. -/
theorem hdrEncodeOutcomes : Obligations.HdrEncodeOutcomes := by
  refine ⟨decode_eq_ok_iff.mpr ⟨rfl, rfl⟩, fun s => ⟨fun hv => if_pos hv, fun hv hm => ?_, fun hv hm => ?_⟩⟩
  · have hword : commandWord (hdrByte2 s.hdr) (hdrByte1 s.hdr) 0x9C = 0x009C0000 ||| s.hdr &&& 0x0000FFFF := by
      rw [and_fieldMask, ← BitVec.or_assoc]
      exact append_bytes_eq_or 0x009C _ _
    rw [← hword, exec, execHdrEncode_of_held hv, encodeHeader_parameterized hm]
  · have hword : commandWord 0 0 s.params.syncMsbc = s.params.syncMsbc.setWidth 32 <<< 16 := by
      simp [commandWord_eq_or]
    rw [← hword, exec, execHdrEncode_of_held hv, encodeHeader_fixed hm]

/-! ### The round trip -/

/-- RESULT after HDR_ENCODE holds three bytes that decode to the header (R404, R407). -/
theorem decodeHeader_result (hs : s.Inv) (hsync : s.params.syncMsbc ≠ 0x9C) (hv : hdrV s.hdr = true)
    (h : execHdrEncode s = .next t) :
    decodeHeader t.params (t.result.extractLsb' 16 8) (t.result.extractLsb' 8 8)
      (t.result.extractLsb' 0 8) = some s.hdr := by
  cases h.symm.trans (execHdrEncode_of_held hv)
  change decodeHeader s.params (bOf (commandWord _ _ _)) (aOf (commandWord _ _ _)) (opOf (commandWord _ _ _)) =
    some s.hdr
  rw [bOf_commandWord, aOf_commandWord, opOf_commandWord]
  exact decodeHeader_encodeHeader hsync hv hs.hdr_reserved hs.hdr_fixed

/-- Settles O35: the three bytes are all that the source holds, and they decode to the header. -/
theorem headerRoundTrip : Obligations.HeaderRoundTrip := fun _ t hs hsync hv hexec =>
  have hdec := decodeHeader_result hs hsync hv hexec
  ⟨_, execHdrDecode_of_header (s := t.withStream { t.stream with src := [_, _, _] }) rfl hdec, rfl, rfl, rfl⟩

end Sys2Proof.Machine
end

section
/-! SUPPORT. The bitneed of a cell and the bitslice search: what a threshold's running total is, and where
the search ends (R451 to R457, R459, R463). -/

namespace Sys2Proof.Machine

variable {p : Params} {info : HdrInfo} {sf : BitVec 4} {sb : Fin 8} {budget : Nat} {bns : List Int} {T b : Int}

/-! ### Bitneed -/

/-- The SNR bitneed is the scale factor (R451). -/
theorem bitneed_snr (h : info.alm = .snr) : bitneed p info sf sb = sf.toNat := by
  simp only [bitneed, h]

/-- The loudness bitneed of a zero scale factor, where the parameter singles it out (R452). -/
theorem bitneed_loudness_zero (h : info.alm = .loudness) (hsf : p.loudnessSf0Minus5 = true ∧ sf = 0) :
    bitneed p info sf sb = -5 := by
  simp only [bitneed, h, if_pos hsf]

/-- A positive loudness value is halved (R452). -/
theorem bitneed_loudness_of_pos (h : info.alm = .loudness) (hsf : ¬(p.loudnessSf0Minus5 = true ∧ sf = 0))
    (hpos : 0 < (sf.toNat : Int) - offset p info.nsub info.freq sb) :
    bitneed p info sf sb = ((sf.toNat : Int) - offset p info.nsub info.freq sb) / 2 := by
  simp only [bitneed, h, if_neg hsf, if_pos hpos]
  exact Int.tdiv_eq_ediv_of_nonneg hpos.le

/-- A loudness value that is not positive is the bitneed (R452). -/
theorem bitneed_loudness_of_nonpos (h : info.alm = .loudness) (hsf : ¬(p.loudnessSf0Minus5 = true ∧ sf = 0))
    (hneg : (sf.toNat : Int) - offset p info.nsub info.freq sb ≤ 0) :
    bitneed p info sf sb = (sf.toNat : Int) - offset p info.nsub info.freq sb := by
  simp only [bitneed, h, if_neg hsf, if_neg hneg.not_gt]

/-- The default offsets lie in -4..2 (R453). -/
theorem offset_defaultParams_range (c : Channels) (m nsub : Subbands) (freq : Fin 4) (sb : Fin 8) :
    -4 ≤ offset (Config.defaultParams c m) nsub freq sb ∧ offset (Config.defaultParams c m) nsub freq sb ≤ 2 := by
  change -4 ≤ offset (Config.defaultParams .one .four) nsub freq sb ∧
    offset (Config.defaultParams .one .four) nsub freq sb ≤ 2
  revert freq sb
  cases nsub <;> decide

/-- The loudness bitneed lies in -2..9 with the default parameters (R452, R453). -/
theorem bitneed_defaultParams_range (h : info.alm = .loudness) (c : Channels) (m : Subbands) :
    -2 ≤ bitneed (Config.defaultParams c m) info sf sb ∧ bitneed (Config.defaultParams c m) info sf sb ≤ 9 := by
  have hsf : ¬((Config.defaultParams c m).loudnessSf0Minus5 = true ∧ sf = 0) := fun hc => Bool.noConfusion hc.1
  have hoff := offset_defaultParams_range c m info.nsub info.freq sb
  have hlt := sf.isLt
  rcases lt_or_ge 0 ((sf.toNat : Int) - offset (Config.defaultParams c m) info.nsub info.freq sb) with hpos | hneg
  · rw [bitneed_loudness_of_pos h hsf hpos]
    omega
  · rw [bitneed_loudness_of_nonpos h hsf hneg]
    omega

/-- Settles O36: method by method, with the sign of the loudness value deciding the halving. -/
theorem bitneedFollowsTheMethod : Obligations.BitneedFollowsTheMethod := by
  refine fun p info sf sb => ⟨bitneed_snr, fun h hp hsf => bitneed_loudness_zero h ⟨hp, hsf⟩,
    fun h hsf => ⟨fun hpos => ?_, bitneed_loudness_of_nonpos h hsf⟩, bitneed_defaultParams_range⟩
  rw [bitneed_loudness_of_pos h hsf hpos]
  omega

/-! ### The largest and the smallest bitneed of a scope -/

theorem le_maxOf (h : b ∈ bns) : b ≤ maxOf bns := by
  fun_induction maxOf bns with
  | case1 => cases h
  | case2 x => exact (List.mem_singleton.mp h).le
  | case3 x xs hne ih =>
    obtain rfl | h := List.mem_cons.mp h
    · exact le_max_left _ _
    · exact (ih h).trans (le_max_right _ _)

theorem maxOf_mem (h : bns ≠ []) : maxOf bns ∈ bns := by
  fun_induction maxOf bns with
  | case1 => exact absurd rfl h
  | case2 x => exact List.mem_singleton_self x
  | case3 x xs hne ih =>
    obtain hmax | hmax := max_choice x (maxOf xs)
    · rw [hmax]
      exact List.mem_cons_self
    · rw [hmax]
      exact List.mem_cons_of_mem x (ih hne)

theorem minOf_le (h : b ∈ bns) : minOf bns ≤ b := by
  fun_induction minOf bns with
  | case1 => cases h
  | case2 x => exact (List.mem_singleton.mp h).ge
  | case3 x xs hne ih =>
    obtain rfl | h := List.mem_cons.mp h
    · exact min_le_left _ _
    · exact (min_le_right _ _).trans (ih h)

theorem minOf_le_maxOf (bns : List Int) : minOf bns ≤ maxOf bns := by
  cases bns with
  | nil => exact le_rfl
  | cons b bs => exact (minOf_le List.mem_cons_self).trans (le_maxOf List.mem_cons_self)

/-! ### The running total -/

/-- The sum of the initial widths over a scope at threshold T (R459): the running total there (R463). -/
def initialTotal (bns : List Int) (T : Int) : Nat := (bns.map (initialWidth T)).sum

/-- One threshold down, a cell gains what it adds to the slice count (R455, R459). -/
theorem initialWidth_pred (T b : Int) : initialWidth (T - 1) b = initialWidth T b + sliceTerm T b := by
  unfold initialWidth sliceTerm
  split_ifs <;> omega

/-- One threshold down, the running total gains the slice count (R455, R463). -/
theorem initialTotal_pred (bns : List Int) (T : Int) :
    initialTotal bns (T - 1) = initialTotal bns T + sliceCount bns T := by
  rw [initialTotal, initialTotal, sliceCount, ← List.sum_map_add]
  exact congrArg List.sum (List.map_congr_left fun b _ => initialWidth_pred T b)

/-- At the largest bitneed no cell has bits yet (R459). -/
theorem initialTotal_maxOf (bns : List Int) : initialTotal bns (maxOf bns) = 0 := by
  refine List.sum_eq_zero fun w hw => ?_
  obtain ⟨b, hb, rfl⟩ := List.mem_map.mp hw
  have := le_maxOf hb
  exact if_pos (by omega)

/-- Sixteen below the smallest bitneed every cell has 16 bits (R457, R459). -/
theorem initialTotal_minOf (bns : List Int) : initialTotal bns (minOf bns - 16) = 16 * bns.length := by
  have h16 : ∀ b ∈ bns, initialWidth (minOf bns - 16) b = 16 := fun b hb => by
    have := minOf_le hb
    unfold initialWidth
    rw [if_neg (by omega)]
    omega
  rw [initialTotal, List.map_congr_left h16, List.map_const', List.sum_replicate, smul_eq_mul, Nat.mul_comm]

/-! ### The search -/

/-- The search from threshold top down ends at T with running total c: T is the largest threshold at which
the running total of the next one reaches the budget (R456, R463). -/
structure SearchEnds (budget : Nat) (bns : List Int) (top T : Int) (c : Nat) : Prop where
  le_top : T ≤ top
  total : c = initialTotal bns T
  reaches : budget ≤ initialTotal bns (T - 1)
  largest : ∀ s, T < s → s ≤ top → initialTotal bns (s - 1) < budget

/-- The loop of R456, from a state whose next running total is that of R463, with turns enough to come to a
threshold that reaches the budget. -/
theorem searchLoop_ends {fuel c n : Nat} {bitslice : Int} (htotal : c + n = initialTotal bns (bitslice - 1))
    (hfuel : bitslice - fuel ≤ T) (hlt : T < bitslice) (hreach : budget ≤ initialTotal bns (T - 1)) :
    SearchEnds budget bns (bitslice - 1) (searchLoop budget bns fuel bitslice c n).1
      (searchLoop budget bns fuel bitslice c n).2 := by
  induction fuel generalizing bitslice c n with
  | zero => omega
  | succ fuel ih =>
    have hnext : c + n + sliceCount bns (bitslice - 1) = initialTotal bns (bitslice - 1 - 1) := by
      rw [initialTotal_pred, htotal]
    rw [searchLoop, hnext]
    by_cases hstop : budget ≤ initialTotal bns (bitslice - 1 - 1)
    · rw [if_pos hstop]
      exact ⟨le_rfl, htotal, hstop, fun s hs hle => absurd hs hle.not_gt⟩
    · rw [if_neg hstop]
      have hne : T ≠ bitslice - 1 := fun h => hstop (h ▸ hreach)
      have hend := ih hnext (by omega) (by omega)
      refine ⟨by have := hend.le_top; omega, hend.total, hend.reaches, fun s hs hle => ?_⟩
      obtain rfl | hlt := hle.eq_or_lt
      · exact not_le.mp hstop
      · exact hend.largest s hs (by omega)

/-- The search ends where the budget is at most 16 for each cell (R456, R457). -/
theorem search_ends (h : budget ≤ 16 * bns.length) :
    SearchEnds budget bns (maxOf bns) (search budget bns).1 (search budget bns).2 := by
  have hminmax := minOf_le_maxOf bns
  have hstart : 0 + 0 = initialTotal bns (maxOf bns + 1 - 1) := by
    rw [add_sub_cancel_right, initialTotal_maxOf]
  have hreach : budget ≤ initialTotal bns (minOf bns - 15 - 1) := by
    rwa [show minOf bns - 15 - 1 = minOf bns - 16 by omega, initialTotal_minOf]
  have hend := searchLoop_ends (fuel := (maxOf bns - minOf bns + 17).toNat) hstart (by omega) (by omega) hreach
  rwa [add_sub_cancel_right] at hend

/-- The running total at the end is below the budget, or the search ended at its first threshold (R462). -/
theorem SearchEnds.total_lt_or_eq_zero {c : Nat} (h : SearchEnds budget bns (maxOf bns) T c) :
    c < budget ∨ c = 0 := by
  obtain rfl | hlt := h.le_top.eq_or_lt
  · exact .inr (h.total.trans (initialTotal_maxOf bns))
  · have hnext := h.largest (T + 1) (by omega) (by omega)
    rw [add_sub_cancel_right, ← h.total] at hnext
    exact .inl hnext

/-- Settles O39: the running total plus the slice count at a threshold is the running total one below it. -/
theorem searchFindsTheLargestThreshold : Obligations.SearchFindsTheLargestThreshold := by
  intro budget bns _ hle
  have hend := search_ends hle
  refine ⟨hend.le_top, hend.total, ?_, fun s hs hmax => ?_, ?_⟩
  · rw [hend.total, ← initialTotal_pred]
    exact hend.reaches
  · exact initialTotal_pred bns s ▸ hend.largest s hs hmax
  · have hlt := hend.total_lt_or_eq_zero
    omega

end Sys2Proof.Machine
end

section
/-! SUPPORT. The two top-up passes of the bit allocation and the widths of a scope: how a pass walks the
cells, what it spends, and that the two passes spend the whole bitpool (R459 to R462). -/

namespace Sys2Proof.Machine

variable {α : Type} {f : Nat → α → Nat × Nat} {P N c : Nat} {T : Int} {bns : List Int}

/-! ### A pass over the cells in walk order -/

/-- A pass over a scope in walk order: from the running total and a cell, f gives the cell's width and the
running total after it. The widths and the last running total. -/
def pass (f : Nat → α → Nat × Nat) : Nat → List α → List Nat × Nat
  | c, [] => ([], c)
  | c, x :: xs => ((f c x).1 :: (pass f (f c x).2 xs).1, (pass f (f c x).2 xs).2)

/-- The running total of a pass before position k of the cells g. -/
def runningTotal (f : Nat → α → Nat × Nat) (c : Nat) (g : Nat → α) : Nat → Nat
  | 0 => c
  | k + 1 => (f (runningTotal f c g k) (g k)).2

/-- The width a pass gives at position k of the cells g. -/
def passWidth (f : Nat → α → Nat × Nat) (c : Nat) (g : Nat → α) (k : Nat) : Nat :=
  (f (runningTotal f c g k) (g k)).1

theorem pass_concat (f : Nat → α → Nat × Nat) (c : Nat) (xs : List α) (x : α) :
    pass f c (xs ++ [x]) = ((pass f c xs).1 ++ [(f (pass f c xs).2 x).1], (f (pass f c xs).2 x).2) := by
  induction xs generalizing c with
  | nil => rfl
  | cons y ys ih => simp only [List.cons_append, pass, ih]

/-- A pass by position. -/
theorem pass_map_range (f : Nat → α → Nat × Nat) (c : Nat) (g : Nat → α) (N : Nat) :
    pass f c ((List.range N).map g) = ((List.range N).map (passWidth f c g), runningTotal f c g N) := by
  induction N with
  | zero => rfl
  | succ N ih =>
    simp only [List.range_succ, List.map_append, List.map_singleton, pass_concat, ih, runningTotal, passWidth]

/-- Where the budget is spent, a pass leaves the widths (R460, R461). -/
theorem pass_of_unchanged {old : α → Nat} (hf : ∀ x, f c x = (old x, c)) (xs : List α) :
    pass f c xs = (xs.map old, c) := by
  induction xs with
  | nil => rfl
  | cons x xs ih => simp only [pass, hf, ih, List.map_cons]

/-- A pass in which each cell counts the bits it grants counts the bits it grants in all (R461). -/
theorem pass_conserves {old : α → Nat} (hf : ∀ c x, (f c x).1 + c = (f c x).2 + old x) (c : Nat) (xs : List α) :
    (pass f c xs).1.sum + c = (pass f c xs).2 + (xs.map old).sum := by
  induction xs generalizing c with
  | nil => exact Nat.add_comm _ _
  | cons x xs ih =>
    have hx := hf c x
    have hxs := ih (f c x).2
    simp only [pass, List.sum_cons, List.map_cons]
    omega

/-- A running total that no cell decreases is not decreased. -/
theorem le_pass (hf : ∀ c x, c ≤ (f c x).2) (c : Nat) (xs : List α) : c ≤ (pass f c xs).2 := by
  induction xs generalizing c with
  | nil => exact le_rfl
  | cons x xs ih => exact (hf c x).trans (ih _)

/-- A budget that no cell exceeds is not exceeded (R461). -/
theorem pass_le (hf : ∀ c x, c ≤ P → (f c x).2 ≤ P) (hc : c ≤ P) (xs : List α) : (pass f c xs).2 ≤ P := by
  induction xs generalizing c with
  | nil => exact hc
  | cons x xs ih => exact ih (hf c x hc)

/-! ### The rule of each pass for one cell -/

/-- The first pass at a cell of bitneed b, from running total c (R460). -/
def firstCell (P : Nat) (T : Int) (c : Nat) (b : Int) : Nat × Nat :=
  if P ≤ c then (initialWidth T b, c)
  else if 2 ≤ initialWidth T b ∧ initialWidth T b < 16 then (initialWidth T b + 1, c + 1)
  else if b = T + 1 ∧ c + 1 < P then (2, c + 2)
  else (initialWidth T b, c)

/-- The second pass at a cell of width w, from running total c (R461). -/
def secondCell (P c w : Nat) : Nat × Nat :=
  if P ≤ c then (w, c) else if w < 16 then (w + 1, c + 1) else (w, c)

/-- The model's first pass over the initial widths is the pass of its rule (R460). -/
theorem topUp1_eq_pass (P : Nat) (T : Int) (c : Nat) (bns : List Int) :
    topUp1 P T c (bns.map fun b => (b, initialWidth T b)) = pass (firstCell P T) c bns := by
  induction bns generalizing c with
  | nil => rfl
  | cons b bs ih =>
    by_cases hfull : P ≤ c
    · rw [pass_of_unchanged fun _ => if_pos hfull, List.map_cons, topUp1, if_pos hfull, List.map_map]
      rfl
    · simp only [List.map_cons, topUp1, pass, firstCell, if_neg hfull, ih]
      split_ifs <;> rfl

/-- The model's second pass is the pass of its rule (R461). -/
theorem topUp2_eq_pass (P c : Nat) (ws : List Nat) : topUp2 P c ws = (pass (secondCell P) c ws).1 := by
  induction ws generalizing c with
  | nil => rfl
  | cons w ws ih =>
    by_cases hfull : P ≤ c
    · rw [pass_of_unchanged (old := id) fun _ => if_pos hfull, topUp2, if_pos hfull, List.map_id]
    · simp only [topUp2, pass, secondCell, if_neg hfull, ih]
      split_ifs <;> rfl

theorem topUps_eq_pass (P : Nat) (bns : List Int) (T : Int) (c : Nat) :
    topUps P bns T c =
      (pass (secondCell P) (pass (firstCell P T) c bns).2 (pass (firstCell P T) c bns).1).1 := by
  rw [topUps, topUp1_eq_pass]
  exact topUp2_eq_pass _ _ _

/-- A cell that waits for its first two bits has none (R459, R460). -/
theorem initialWidth_succ (T : Int) : initialWidth T (T + 1) = 0 :=
  if_pos (by omega)

theorem firstCell_conserves (P : Nat) (T : Int) (c : Nat) (b : Int) :
    (firstCell P T c b).1 + c = (firstCell P T c b).2 + initialWidth T b := by
  unfold firstCell
  split_ifs with _ _ hb
  · exact Nat.add_comm _ _
  · simp only
    omega
  · obtain ⟨rfl, -⟩ := hb
    simp only [initialWidth_succ]
    omega
  · exact Nat.add_comm _ _

theorem le_firstCell (P : Nat) (T : Int) (c : Nat) (b : Int) : c ≤ (firstCell P T c b).2 := by
  unfold firstCell
  split_ifs <;> simp only <;> omega

theorem firstCell_le (P : Nat) (T : Int) (c : Nat) (b : Int) (hc : c ≤ P) : (firstCell P T c b).2 ≤ P := by
  unfold firstCell
  split_ifs <;> simp only <;> omega

/-- What a cell adds to the slice count, by its initial width (R455, R459). -/
theorem sliceTerm_eq (T b : Int) : sliceTerm T b =
    if 2 ≤ initialWidth T b ∧ initialWidth T b < 16 then 1 else if b = T + 1 then 2 else 0 := by
  unfold sliceTerm initialWidth
  split_ifs <;> omega

/-- The first pass grants a cell its part of the slice count, unless the budget is spent, or has one bit left
at a cell that would take two (R455, R460). -/
theorem firstCell_grants (P : Nat) (T : Int) (c : Nat) (b : Int) :
    P ≤ c ∨ (firstCell P T c b).2 = c + sliceTerm T b ∨ P ≤ c + 1 ∧ (firstCell P T c b).1 = 0 := by
  rw [sliceTerm_eq, firstCell]
  by_cases hfull : P ≤ c
  · exact .inl hfull
  by_cases hbits : 2 ≤ initialWidth T b ∧ initialWidth T b < 16
  · simp only [if_neg hfull, if_pos hbits, true_or, or_true]
  by_cases hwait : b = T + 1
  · by_cases hroom : c + 1 < P
    · simp only [if_neg hfull, if_neg hbits, if_pos hwait, if_pos (And.intro hwait hroom), true_or, or_true]
    · rw [if_neg hfull, if_neg hbits, if_neg fun h => hroom h.2, hwait, initialWidth_succ]
      exact .inr (.inr ⟨not_lt.mp hroom, rfl⟩)
  · rw [if_neg hfull, if_neg hbits, if_neg hbits, if_neg fun h => hwait h.1, if_neg hwait]
    exact .inr (.inl rfl)

theorem secondCell_conserves (P c w : Nat) : (secondCell P c w).1 + c = (secondCell P c w).2 + w := by
  unfold secondCell
  split_ifs <;> simp only <;> omega

theorem secondCell_le (P c w : Nat) (hc : c ≤ P) : (secondCell P c w).2 ≤ P := by
  unfold secondCell
  split_ifs <;> simp only <;> omega

/-! ### The two passes spend the budget -/

/-- The cells of a scope that take one more bit (R461). -/
def room (ws : List Nat) : Nat := ws.countP (· < 16)

theorem room_cons (w : Nat) (ws : List Nat) : room (w :: ws) = room ws + if w < 16 then 1 else 0 := by
  simp only [room, List.countP_cons, decide_eq_true_eq]

/-- Where the slice count covers the budget, the first pass leaves at most a bit for each cell below 16
(R460). -/
theorem le_firstPass_add_room (h : P ≤ c + sliceCount bns T) :
    P ≤ (pass (firstCell P T) c bns).2 + room (pass (firstCell P T) c bns).1 := by
  induction bns generalizing c with
  | nil => exact h
  | cons b bs ih =>
    have hcell := le_firstCell P T c b
    have hrest := le_pass (le_firstCell P T) (firstCell P T c b).2 bs
    rw [sliceCount, List.map_cons, List.sum_cons, ← sliceCount] at h
    simp only [pass, room_cons]
    obtain hfull | hgrant | ⟨hone, hzero⟩ := firstCell_grants P T c b
    · omega
    · have := ih (c := (firstCell P T c b).2) (by omega)
      omega
    · rw [hzero, if_pos (by decide)]
      omega

/-- The second pass spends what is left, where at most a bit is left for each cell below 16 (R461). -/
theorem le_secondPass {ws : List Nat} (h : P ≤ c + room ws) : P ≤ (pass (secondCell P) c ws).2 := by
  induction ws generalizing c with
  | nil => exact h
  | cons w ws ih =>
    refine ih ?_
    rw [room_cons] at h
    unfold secondCell
    split_ifs at h ⊢ <;> simp only <;> omega

/-- The running total at the end of the search is within the budget (R462). -/
theorem SearchEnds.total_le (h : SearchEnds P bns (maxOf bns) T c) : c ≤ P := by
  have hlt := h.total_lt_or_eq_zero
  omega

/-- After the search, the two passes spend the whole budget (R462). -/
theorem topUps_sum (h : SearchEnds P bns (maxOf bns) T c) : (topUps P bns T c).sum = P := by
  have hslice : P ≤ c + sliceCount bns T := by
    rw [h.total, ← initialTotal_pred]
    exact h.reaches
  have hroom := le_firstPass_add_room hslice
  have hle := pass_le (firstCell_le P T) h.total_le bns
  have hfirst := pass_conserves (firstCell_conserves P T) c bns
  rw [← initialTotal, ← h.total] at hfirst
  rw [topUps_eq_pass]
  generalize pass (firstCell P T) c bns = r at hroom hle hfirst
  have hsecond := pass_conserves (old := id) (secondCell_conserves P) r.2 r.1
  rw [List.map_id] at hsecond
  have hspent : (pass (secondCell P) r.2 r.1).2 = P :=
    (pass_le (secondCell_le P) hle r.1).antisymm (le_secondPass hroom)
  omega

/-! ### The widths of a scope -/

theorem allocScope_eq_some {ws : List Nat} (h : allocScope P bns = some ws) :
    SearchEnds P bns (maxOf bns) (search P bns).1 (search P bns).2 ∧
    topUps P bns (search P bns).1 (search P bns).2 = ws := by
  obtain ⟨-, hnone⟩ | ⟨hle, -⟩ := allocScope_spec P bns
  · cases hnone.symm.trans h
  · rw [allocScope, if_neg hle.not_gt] at h
    exact ⟨search_ends hle, Option.some.inj h⟩

/-- The widths of a scope add up to the budget (R462). -/
theorem allocScope_sum {ws : List Nat} (h : allocScope P bns = some ws) : ws.sum = P := by
  obtain ⟨hend, rfl⟩ := allocScope_eq_some h
  exact topUps_sum hend

/-- The running total below a threshold is what R456 compares with the budget. -/
theorem initialTotal_pred_eq_reached (N : Nat) (bn : Nat → Int) (T : Int) :
    initialTotal ((List.range N).map bn) (T - 1) = reached N bn T := by
  rw [initialTotal, reached, List.map_map]
  exact congrArg List.sum (List.map_congr_left fun k _ => initialWidth_pred T (bn k))

/-- The largest bitneed of a scope is at least T exactly when that of a cell is. -/
theorem le_maxOf_map_range_iff (hN : N ≠ 0) (bn : Nat → Int) (T : Int) :
    T ≤ maxOf ((List.range N).map bn) ↔ ∃ k < N, T ≤ bn k := by
  constructor
  · intro h
    have hmem : maxOf ((List.range N).map bn) ∈ (List.range N).map bn := maxOf_mem (by simpa using hN)
    obtain ⟨k, hk, hmax⟩ := List.mem_map.mp hmem
    exact ⟨k, List.mem_range.mp hk, hmax ▸ h⟩
  · rintro ⟨k, hk, h⟩
    exact h.trans (le_maxOf (List.mem_map_of_mem (List.mem_range.mpr hk)))

/-- The widths of a scope, by position of the walk order (R454 to R461). -/
theorem scopeWidths_of_allocScope (hN : N ≠ 0) {bn : Nat → Int} {w : Nat → Nat}
    (h : allocScope P ((List.range N).map bn) = some ((List.range N).map w)) : ScopeWidths P N bn w := by
  obtain ⟨hend, hw⟩ := allocScope_eq_some h
  generalize (search P ((List.range N).map bn)).1 = T at hend hw
  generalize (search P ((List.range N).map bn)).2 = c₀ at hend hw
  rw [topUps_eq_pass, pass_map_range, pass_map_range, List.map_inj_left] at hw
  refine ⟨T, fun k => startWidth T (bn k), passWidth (firstCell P T) c₀ bn, runningTotal (firstCell P T) c₀ bn,
    runningTotal (secondCell P) (runningTotal (firstCell P T) c₀ bn N) (passWidth (firstCell P T) c₀ bn),
    ⟨(le_maxOf_map_range_iff hN bn T).mp hend.le_top, ?_, fun T' hT hT' => ?_⟩,
    fun _ _ => rfl, ?_, fun _ _ => rfl, rfl, fun k hk => ?_⟩
  · exact initialTotal_pred_eq_reached N bn T ▸ hend.reaches
  · exact initialTotal_pred_eq_reached N bn T' ▸
      hend.largest T' hT ((le_maxOf_map_range_iff hN bn T').mpr hT')
  · exact hend.total.trans (congrArg List.sum List.map_map)
  · rw [← hw k (List.mem_range.mpr hk)]
    rfl

end Sys2Proof.Machine
end

section
/-! SUPPORT. ALLOC: the widths it leaves in the cells of each scope, and its outcomes (R450, R454, R457,
R462). -/

namespace Sys2Proof.Machine

variable {s : State} {p : Params} {info : HdrInfo} {sf : Mat (BitVec 4)} {w w' : Mat (BitVec 5)}
  {l : List Cell} {ls : List (List Cell)} {ch : Fin 2} {sb : Fin 8}

/-! ### The scopes -/

theorem nodup_scopes_shape (chm : ChannelMode) (nsub : Subbands) :
    (scopes { freq := 0, blocks := none, chm := chm, alm := .snr, nsub := nsub, bitpool := 0 }).flatten.Nodup := by
  cases chm <;> cases nsub <;> decide

/-- No cell stands twice in the scopes of a header (R454). -/
theorem nodup_scopes (info : HdrInfo) : (scopes info).flatten.Nodup :=
  nodup_scopes_shape info.chm info.nsub

/-- The cell at position k of the scope of one channel (R454). -/
def channelCell (ch : Fin 2) (k : Nat) : Cell := (ch, Fin.ofNat 8 k)

/-- The cell at position k of the scope of both channels (R454). -/
def jointCell (k : Nat) : Cell := (Fin.ofNat 2 k, Fin.ofNat 8 (k / 2))

theorem map_list_eq_map_range (nsub : Subbands) (ch : Fin 2) :
    ((Subbands.list nsub).map fun b => (ch, b)) = (List.range nsub.toNat).map (channelCell ch) := by
  cases nsub <;> rfl

theorem mem_list_of_lt {c : Channels} (h : ch.val < c.toNat) : ch ∈ Channels.list c := by
  revert ch
  cases c <;> decide

/-- In mono and dual-channel mode each channel is a scope (R454). -/
theorem channelScope_mem (h : info.chm = .mono ∨ info.chm = .dual)
    (hch : ch.val < (impliedChannels info.chm).toNat) :
    (List.range info.nsub.toNat).map (channelCell ch) ∈ scopes info := by
  rw [← map_list_eq_map_range]
  have hmem := List.mem_map_of_mem (f := fun c => (Subbands.list info.nsub).map fun b => (c, b))
    (mem_list_of_lt hch)
  obtain h | h := h <;> rw [scopes, h] <;> rwa [h] at hmem

/-- In stereo and joint-stereo mode there is one scope (R454). -/
theorem jointScope_mem (h : info.chm = .stereo ∨ info.chm = .joint) :
    (List.range (2 * info.nsub.toNat)).map jointCell ∈ scopes info := by
  obtain h | h := h <;> rw [scopes, h] <;> cases info.nsub <;> decide

/-- The scope of both channels holds the cells of two channels (R454). -/
theorem jointScope_perm (nsub : Subbands) :
    ((List.range (2 * nsub.toNat)).map jointCell).Perm (cellsOf .two nsub) := by
  cases nsub <;> decide

/-! ### The widths written -/

/-- The widths of a scope, read back from the cells they were written to (R461). -/
theorem map_writeCells_get (hnd : l.Nodup) {ws : List Nat} (hlen : ws.length = l.length)
    (hle : ∀ x ∈ ws, x ≤ 16) (w : Mat (BitVec 5)) :
    l.map (fun c => ((writeCells l (ws.map (BitVec.ofNat 5)) w).get c.1 c.2).toNat) = ws := by
  refine List.ext_getElem (by rw [List.length_map, hlen]) fun i hi hj => ?_
  have hget := writeCells_get_of_getElem l (ws.map (BitVec.ofNat 5)) w hnd i (by omega) (by rwa [List.length_map])
  have hwidth := hle ws[i] (List.getElem_mem hj)
  rw [List.getElem_map, hget, List.getElem_map, BitVec.toNat_ofNat, Nat.mod_eq_of_lt (by omega)]

/-- The bitneeds of a scope (R451, R452). -/
def bitneeds (p : Params) (info : HdrInfo) (sf : Mat (BitVec 4)) (l : List Cell) : List Int :=
  l.map fun c => bitneed p info (sf.get c.1 c.2) c.2

/-- Allocating scope after scope is allocating the first and then the others (R450). -/
theorem allocScopes_cons (h : allocScopes p info sf (l :: ls) w = some w') :
    ∃ ws, allocScope info.bitpool.toNat (bitneeds p info sf l) = some ws ∧
      allocScopes p info sf ls (writeCells l (ws.map (BitVec.ofNat 5)) w) = some w' := by
  rw [allocScopes] at h
  split at h
  · cases h
  · exact ⟨_, ‹_›, h⟩

/-- Cells outside the scopes keep their widths (R450). -/
theorem allocScopes_get_of_notMem (h : allocScopes p info sf ls w = some w') (hc : (ch, sb) ∉ ls.flatten) :
    w'.get ch sb = w.get ch sb := by
  induction ls generalizing w with
  | nil =>
    cases h
    rfl
  | cons l ls ih =>
    rw [List.flatten_cons, List.mem_append, not_or] at hc
    obtain ⟨ws, -, hrest⟩ := allocScopes_cons h
    rw [ih hrest hc.2, writeCells_get_of_notMem _ _ _ _ _ hc.1]

/-- Each scope has the widths of its own allocation (R450, R454). -/
theorem allocScopes_widths (hnd : ls.flatten.Nodup) (h : allocScopes p info sf ls w = some w') (hl : l ∈ ls) :
    allocScope info.bitpool.toNat (bitneeds p info sf l) = some (l.map fun c => (w'.get c.1 c.2).toNat) := by
  induction ls generalizing w with
  | nil => cases hl
  | cons l' ls ih =>
    rw [List.flatten_cons, List.nodup_append'] at hnd
    obtain ⟨hnd', hnds, hdisj⟩ := hnd
    obtain ⟨ws, hws, hrest⟩ := allocScopes_cons h
    obtain rfl | hl := List.mem_cons.mp hl
    · obtain ⟨-, hnone⟩ | ⟨-, ws', hws', hlen, hle⟩ := allocScope_spec info.bitpool.toNat (bitneeds p info sf l)
      · cases hnone.symm.trans hws
      · cases hws'.symm.trans hws
        rw [bitneeds, List.length_map] at hlen
        rw [hws, ← map_writeCells_get hnd' hlen hle w]
        refine congrArg some (List.map_congr_left fun c hc => ?_)
        rw [allocScopes_get_of_notMem hrest (hdisj hc)]
    · exact ih hnds hrest hl

/-! ### The outcomes of ALLOC -/

theorem execAlloc_of_no_header (h : hdrInfo s.hdr = none) : execAlloc s = .next (s.withCode .badCommand) := by
  simp only [execAlloc, h, finish]

theorem execAlloc_of_not_fits (h : hdrInfo s.hdr = some info) (hfits : fits s.params info = false) :
    execAlloc s = .next (s.withCode .configMismatch) := by
  simp only [execAlloc, h, hfits, if_true, finish]

theorem execAlloc_of_allocate_none (h : hdrInfo s.hdr = some info) (hfits : fits s.params info = true)
    (hnone : allocate s.params info s.sf s.bits = none) : execAlloc s = .next s.enterHung := by
  simp only [execAlloc, h, hfits, Bool.true_eq_false, if_false, hnone, finishHung]

theorem execAlloc_of_allocate_some (h : hdrInfo s.hdr = some info) (hfits : fits s.params info = true)
    (hsome : allocate s.params info s.sf s.bits = some w) :
    execAlloc s = .next ((s.withBits w).withCode .ok) := by
  simp only [execAlloc, h, hfits, Bool.true_eq_false, if_false, hsome, finish]

/-- Settles O37: no header, another shape, a bitpool above 16 for each cell of a scope. -/
theorem allocRefusals : Obligations.AllocRefusals := by
  refine fun s => ⟨fun hv => execAlloc_of_no_header ((hdrInfo_eq_none_iff s.hdr).mpr hv),
    fun info h hshape => execAlloc_of_not_fits h ?_, fun info h hch hsb hlt => ?_⟩
  · rwa [← fits_iff, Bool.not_eq_true] at hshape
  · obtain ⟨-, hnone⟩ | ⟨hle, -⟩ := allocate_spec s.params info s.sf s.bits
    · exact execAlloc_of_allocate_none h ((fits_iff _ _).mpr ⟨hch, hsb⟩) hnone
    · omega

/-- With a bitpool of at most 16 for each cell of a scope, ALLOC gives each scope the widths of its
allocation and changes no other cell (R450, R454, R457). -/
theorem execAlloc_of_spendable (h : hdrInfo s.hdr = some info) (hch : impliedChannels info.chm = s.params.ch)
    (hsb : info.nsub = s.params.sb) (hle : info.bitpool.toNat ≤ 16 * scopeSize info) :
    ∃ w, exec .alloc s = .next ((s.withBits w).withCode .ok) ∧
      (∀ ch sb, hasCell s.params ch sb = false → w.get ch sb = s.bits.get ch sb) ∧
      ∀ l ∈ scopes info, allocScope info.bitpool.toNat (bitneeds s.params info s.sf l) =
        some (l.map fun c => (w.get c.1 c.2).toNat) := by
  have hfits := (fits_iff s.params info).mpr ⟨hch, hsb⟩
  obtain ⟨hlt, -⟩ | ⟨-, w, hw, hframe, -⟩ := allocate_spec s.params info s.sf s.bits
  · omega
  · exact ⟨w, execAlloc_of_allocate_some h hfits hw,
      fun ch sb hc => hframe ch sb (notMem_cellsOf_of_fits hfits hc),
      fun l hl => allocScopes_widths (nodup_scopes info) hw hl⟩

/-- Settles O38: each scope's widths are at most 16 and add up to the bitpool. -/
theorem allocSpendsTheWholeBitpool : Obligations.AllocSpendsTheWholeBitpool := by
  intro s info h hch hsb hle
  obtain ⟨w, hexec, hframe, hwidths⟩ := execAlloc_of_spendable h hch hsb hle
  refine ⟨w, hexec, fun ch sb hc => ?_, hframe, fun hm ch hlt => ?_, fun hm => ?_⟩
  · rw [← mem_cells, cells, ← hch, ← hsb, ← mem_scopes] at hc
    obtain ⟨l, hl, hmem⟩ := hc
    obtain ⟨-, hnone⟩ | ⟨-, ws, hws, -, h16⟩ :=
        allocScope_spec info.bitpool.toNat (bitneeds s.params info s.sf l)
    · cases hnone.symm.trans (hwidths l hl)
    · cases hws.symm.trans (hwidths l hl)
      exact h16 _ (List.mem_map_of_mem hmem)
  · have hsum := allocScope_sum (hwidths _ (channelScope_mem hm (hch ▸ hlt)))
    rwa [← map_list_eq_map_range, List.map_map, hsb] at hsum
  · have hsum := allocScope_sum (hwidths _ (jointScope_mem hm))
    have htwo : Channels.two = s.params.ch := by
      rw [← hch]
      obtain hm | hm := hm <;> rw [hm] <;> rfl
    rw [← hsum, cells, ← htwo, ← hsb]
    exact ((jointScope_perm info.nsub).map _).sum_eq.symm

/-- Settles O60: each scope, by position of its walk order. -/
theorem allocGivesEachCellItsWidth : Obligations.AllocGivesEachCellItsWidth := by
  intro s info h hch hsb hle
  obtain ⟨w, hexec, -, hwidths⟩ := execAlloc_of_spendable h hch hsb hle
  have hN : s.params.sb.toNat ≠ 0 := by cases s.params.sb <;> decide
  refine ⟨w, hexec, fun hm ch hlt => scopeWidths_of_allocScope hN ?_,
    fun hm => scopeWidths_of_allocScope (by omega) ?_⟩
  · have hscope := hwidths _ (channelScope_mem hm (hch ▸ hlt))
    rwa [bitneeds, List.map_map, List.map_map, hsb] at hscope
  · have hscope := hwidths _ (jointScope_mem hm)
    rwa [bitneeds, List.map_map, List.map_map, hsb] at hscope

end Sys2Proof.Machine
end

section
/-! SUPPORT. The dequantizer: silence at width 0, order in the codeword, range (R500, R504, R505). -/

namespace Sys2Proof.Machine

variable {sf w c d : Nat}

@[simp] theorem dequant_zero_width (sf c : Nat) : dequant sf 0 c = 0 := if_pos rfl

theorem dequant_of_width_ne_zero (sf c : Nat) (hw : w ≠ 0) :
    dequant sf w c = (2 * c + 1) * 2 ^ (sf + 3) / (2 ^ w - 1) - 2 ^ (sf + 3) :=
  if_neg hw

/-- The divisor of the dequantizer is at least 1 (R501). -/
theorem two_pow_sub_one_pos (hw : w ≠ 0) : (0 : Int) < 2 ^ w - 1 :=
  Int.sub_pos_of_lt (one_lt_pow₀ one_lt_two hw)

theorem dequant_mono (sf w : Nat) (h : c ≤ d) : dequant sf w c ≤ dequant sf w d := by
  obtain rfl | hw := eq_or_ne w 0
  · simp
  rw [dequant_of_width_ne_zero _ _ hw, dequant_of_width_ne_zero _ _ hw]
  exact Int.sub_le_sub_right (Int.ediv_le_ediv (two_pow_sub_one_pos hw) (by gcongr)) _

theorem neg_two_pow_le_dequant (sf w c : Nat) : -(2 : Int) ^ (sf + 3) ≤ dequant sf w c := by
  obtain rfl | hw := eq_or_ne w 0
  · simp
  rw [dequant_of_width_ne_zero _ _ hw]
  have hquot : 0 ≤ (2 * c + 1) * (2 : Int) ^ (sf + 3) / (2 ^ w - 1) :=
    Int.ediv_nonneg (by positivity) (two_pow_sub_one_pos hw).le
  omega

/-- With N = 2^w - 1 the dividend is at most (2N + 1)·2^(sf+3), so the quotient is at most 3·2^(sf+3). -/
theorem dequant_le_two_pow (sf : Nat) (h : c < 2 ^ w) : dequant sf w c ≤ 2 ^ (sf + 4) := by
  obtain rfl | hw := eq_or_ne w 0
  · simp
  rw [dequant_of_width_ne_zero _ _ hw]
  have hpos := two_pow_sub_one_pos hw
  have hc : (c : Int) ≤ 2 ^ w - 1 := Int.le_sub_one_of_lt (mod_cast h)
  have hquot : (2 * c + 1) * (2 : Int) ^ (sf + 3) / (2 ^ w - 1) ≤ 3 * 2 ^ (sf + 3) := by
    refine Int.ediv_le_of_le_mul hpos ?_
    calc (2 * c + 1) * (2 : Int) ^ (sf + 3)
        ≤ (3 * (2 ^ w - 1)) * 2 ^ (sf + 3) := by gcongr; omega
      _ = 3 * 2 ^ (sf + 3) * (2 ^ w - 1) := by ring
  have hdouble : (2 : Int) ^ (sf + 4) = 2 ^ (sf + 3) * 2 := pow_succ 2 (sf + 3)
  omega

/-- Scale factor 15 alone reaches below -2^17; there the quotient is at least 2^18 div (2^16 - 1) = 4. -/
theorem neg_262140_le_dequant (c : Nat) (hsf : sf ≤ 15) (hw : w ≤ 16) : -262140 ≤ dequant sf w c := by
  obtain rfl | hw0 := eq_or_ne w 0
  · simp
  obtain hsf | rfl := Nat.lt_or_eq_of_le hsf
  · have hpow : (2 : Int) ^ (sf + 3) ≤ 2 ^ 17 := pow_le_pow_right₀ one_le_two (by omega)
    have := neg_two_pow_le_dequant sf w c
    omega
  · rw [dequant_of_width_ne_zero _ _ hw0]
    have hN : (2 : Int) ^ w ≤ 2 ^ 16 := pow_le_pow_right₀ one_le_two hw
    have hquot : 4 ≤ (2 * c + 1) * (2 : Int) ^ (15 + 3) / (2 ^ w - 1) :=
      (Int.le_ediv_iff_mul_le (two_pow_sub_one_pos hw0)).mpr (by omega)
    omega

theorem dequant_le_524288 (hsf : sf ≤ 15) (h : c < 2 ^ w) : dequant sf w c ≤ 524288 :=
  (dequant_le_two_pow sf h).trans
    (pow_le_pow_right₀ one_le_two (Nat.add_le_add_right hsf 4) : (2 : Int) ^ (sf + 4) ≤ 2 ^ 19)

/-- Settles O40: each bound from the lemma that states it. -/
theorem dequantRange : Obligations.DequantRange :=
  ⟨dequant_zero_width, fun sf w c _ hsf _ hw hcd hd =>
    ⟨neg_two_pow_le_dequant sf w c, dequant_mono sf w hcd, dequant_le_two_pow sf hd,
      neg_262140_le_dequant c hsf hw, dequant_le_524288 hsf hd⟩⟩

end Sys2Proof.Machine
end

section
/-! SUPPORT. RECON: its outcomes, the range of what it writes, and what it does not look at (R502, R503,
R505). -/

namespace Sys2Proof.Machine

variable {s t : State} {p : Params} {join : BitVec 8} {m : Mat Int} {ch : Fin 2} {sb : Fin 8}

/-! ### The mid/side undo -/

theorem demux_plain (h : ¬(p.ch = .two ∧ join.getLsbD sb = true)) : demux p join m ch sb = m.get ch sb :=
  if_neg h

theorem demux_sum (hch : p.ch = .two) (hjoin : join.getLsbD sb = true) :
    demux p join m 0 sb = m.get 0 sb + m.get 1 sb := by
  simp [demux, hch, hjoin]

theorem demux_difference (hch : p.ch = .two) (hjoin : join.getLsbD sb = true) :
    demux p join m 1 sb = m.get 0 sb - m.get 1 sb := by
  simp [demux, hch, hjoin]

/-- With two channels configured every sub-band has both its cells (R70). -/
theorem hasCell_of_two (hch : p.ch = .two) (c : Fin 2) (h : hasCell p ch sb = true) :
    hasCell p c sb = true := by
  simp only [hasCell, Bool.and_eq_true, decide_eq_true_eq] at h ⊢
  exact ⟨hch ▸ c.isLt, h.2⟩

/-- Channel 1 is there with two channels configured only (R70). -/
theorem two_of_hasCell_one (h : hasCell p 1 sb = true) : p.ch = .two := by
  cases hch : p.ch
  · simp [hasCell, hch, Channels.toNat] at h
  · rfl

/-! ### The codewords of a block -/

theorem fieldsOf_getD_lt (ws : List Nat) (bits : List Bool) (k : Nat) :
    (fieldsOf ws bits).getD k 0 < 2 ^ ws.getD k 0 := by
  induction ws generalizing bits k with
  | nil => simp [fieldsOf]
  | cons w ws ih =>
    cases k with
    | zero =>
      calc valueOf (bits.take w)
          < 2 ^ (bits.take w).length := valueOf_lt _
        _ ≤ 2 ^ w := Nat.pow_le_pow_right two_pos (List.length_take_le w bits)
    | succ k => exact ih _ k

/-- The codeword at position M·ch + sb has the width of the cell (R502). -/
theorem codeword_lt (h : hasCell s.params ch sb = true) (bits : List Bool) :
    (fieldsOf (codewordWidths s) bits).getD (s.params.sb.toNat * ch.val + sb.val) 0 <
      2 ^ (s.bits.get ch sb).toNat := by
  have hb : ch.val < s.params.ch.toNat ∧ sb.val < s.params.sb.toNat := by simpa [hasCell] using h
  have hwidth : (codewordWidths s).getD (s.params.sb.toNat * ch.val + sb.val) 0 =
      (s.bits.get ch sb).toNat := by
    rw [codewordWidths, cells, List.getD_eq_getElem?_getD, List.getElem?_map,
      cellsOf_getElem? _ _ ch sb hb.1 hb.2, Option.map_some, Option.getD_some]
  exact hwidth ▸ fieldsOf_getD_lt _ bits _

theorem codewordWidths_length (s : State) : (codewordWidths s).length = (cells s.params).length :=
  List.length_map _

/-- The dequantized value of a cell lies in the range of R505 for every codeword of the cell's width. -/
theorem dequant_cell_range (hs : s.Inv) (ch : Fin 2) (sb : Fin 8) {x : Nat}
    (hx : x < 2 ^ (s.bits.get ch sb).toNat) :
    -262140 ≤ dequant (s.sf.get ch sb).toNat (s.bits.get ch sb).toNat x ∧
      dequant (s.sf.get ch sb).toNat (s.bits.get ch sb).toNat x ≤ 524288 :=
  have hsf : (s.sf.get ch sb).toNat ≤ 15 := Nat.le_of_lt_succ (s.sf.get ch sb).isLt
  ⟨neg_262140_le_dequant x hsf (hs.bits_le ch sb), dequant_le_524288 hsf hx⟩

/-! ### The outcomes of RECON -/

theorem execRecon_of_available (hr : s.stream.rem ≤ 7) (h : blockBits s ≤ s.stream.avail) :
    execRecon s = .next (((s.withStream (s.stream.advance (blockBits s))).withSb
      (reconMat s (fieldsOf (codewordWidths s) s.stream.pendingBits))).withCode .ok) := by
  simp only [execRecon, recon_spec s hr, if_pos h, finish]

theorem execRecon_of_short (hr : s.stream.rem ≤ 7) (h : s.stream.avail < blockBits s) :
    execRecon s = .next ((s.withStream s.stream.drained).withCode .underflow) := by
  simp only [execRecon, recon_spec s hr, if_neg (Nat.not_le.mpr h), finish]

/-- Settles O41: the closed form of RECON, cell by cell. -/
theorem reconOutcomes : Obligations.ReconOutcomes := by
  refine ⟨by decide, fun s hr => ⟨fun h => ⟨_, execRecon_of_available hr h, fun ch sb hc => ?_,
    fun ch sb => (dequantBlock s (fieldsOf (codewordWidths s) s.stream.pendingBits)).get ch sb,
    fun ch sb hc => ?_, fun ch sb hc hplain => ?_, fun sb hc hjoin => ?_⟩, execRecon_of_short hr⟩⟩
  · rw [reconMat_get, hc, if_neg Bool.false_ne_true]
  · exact dequantBlock_get s _ ((fieldsOf_length _ _).trans (codewordWidths_length s)) ch sb hc
  · rw [reconMat_get, if_pos hc, demux_plain hplain]
  · have hch := two_of_hasCell_one hc
    rw [reconMat_get, reconMat_get, if_pos hc, if_pos (hasCell_of_two hch 0 hc),
      demux_sum hch hjoin, demux_difference hch hjoin]
    exact ⟨rfl, rfl⟩

/-- RECON ends with OK only where the whole block could be read (R502). -/
theorem blockBits_le_of_recon_ok (hr : s.stream.rem ≤ 7) (h : exec .recon s = .next t)
    (hok : t.status.code = .ok) : blockBits s ≤ s.stream.avail := by
  by_contra hshort
  cases h.symm.trans (execRecon_of_short hr (Nat.lt_of_not_le hshort))
  cases hok

/-- A number of the decode range stands in a 32-bit register as itself (R66, R505). -/
theorem toInt_ofInt_of_decode_range {v : Int} (hlo : -786428 ≤ v) (hhi : v ≤ 1048576) :
    (BitVec.ofInt 32 v).toInt = v :=
  BitVec.toInt_ofInt_eq_self (by decide) (by omega) (by omega)

/-- Settles O42: the dequantized values of `reconOutcomes` lie in -262140..524288, so they, their sums and
their differences lie in the decode range, which 32 bits hold. -/
theorem reconStaysInRange : Obligations.ReconStaysInRange := by
  intro s t hs hexec hok
  obtain ⟨m, hm, -, v, hv, hplain, hjoint⟩ :=
    (reconOutcomes.2 s hs.rem_le).1 (blockBits_le_of_recon_ok hs.rem_le hexec hok)
  cases hexec.symm.trans hm
  have hrange : ∀ ch sb, hasCell s.params ch sb = true → -262140 ≤ v ch sb ∧ v ch sb ≤ 524288 :=
    fun ch sb hc => hv ch sb hc ▸ dequant_cell_range hs ch sb (codeword_lt hc _)
  have hplain_exact : ∀ ch sb, hasCell s.params ch sb = true →
      ¬(s.params.ch = .two ∧ s.join.getLsbD sb = true) → (m.get ch sb).toInt = v ch sb := by
    intro ch sb hc hp
    obtain ⟨hlo, hhi⟩ := hrange ch sb hc
    rw [hplain ch sb hc hp, toInt_ofInt_of_decode_range (by omega) (by omega)]
  have hpair_range : ∀ sb, hasCell s.params 1 sb = true →
      (-786428 ≤ v 0 sb + v 1 sb ∧ v 0 sb + v 1 sb ≤ 1048576) ∧
      (-786428 ≤ v 0 sb - v 1 sb ∧ v 0 sb - v 1 sb ≤ 1048576) := by
    intro sb hc
    have hrange0 := hrange 0 sb (hasCell_of_two (two_of_hasCell_one hc) 0 hc)
    have hrange1 := hrange 1 sb hc
    omega
  have hjoint_exact : ∀ sb, hasCell s.params 1 sb = true → s.join.getLsbD sb = true →
      (m.get 0 sb).toInt = v 0 sb + v 1 sb ∧ (m.get 1 sb).toInt = v 0 sb - v 1 sb := by
    intro sb hc hj
    obtain ⟨hsum, hdiff⟩ := hpair_range sb hc
    obtain ⟨h0, h1⟩ := hjoint sb hc hj
    exact ⟨h0 ▸ toInt_ofInt_of_decode_range hsum.1 hsum.2,
      h1 ▸ toInt_ofInt_of_decode_range hdiff.1 hdiff.2⟩
  refine ⟨v, hv, hplain_exact, hjoint_exact, fun ch sb hc => ?_⟩
  rw [withCode_sb, withSb_sb]
  by_cases hp : s.params.ch = .two ∧ s.join.getLsbD sb = true
  · have hc1 := hasCell_of_two hp.1 1 hc
    obtain ⟨h0, h1⟩ := hjoint_exact sb hc1 hp.2
    obtain ⟨hsum, hdiff⟩ := hpair_range sb hc1
    match ch with
    | 0 => exact h0 ▸ hsum
    | 1 => exact h1 ▸ hdiff
  · have hcell := hrange ch sb hc
    rw [hplain_exact ch sb hc hp]
    omega

/-! ### What RECON looks at -/

/-- The widths of a block depend on the configuration and BITS alone (R502). -/
theorem codewordWidths_congr {s' : State} (hparams : s.params = s'.params) (hbits : s.bits = s'.bits) :
    codewordWidths s = codewordWidths s' := by
  simp only [codewordWidths, hparams, hbits]

/-- What a block leaves in SB depends on its codewords, the configuration, BITS, SF, JOIN and the SB before
it alone (R502, R503). -/
theorem reconMat_congr {s' : State} (hparams : s.params = s'.params) (hbits : s.bits = s'.bits)
    (hsf : s.sf = s'.sf) (hjoin : s.join = s'.join) (hsb : s.sb = s'.sb) (cs : List Nat) :
    reconMat s cs = reconMat s' cs := by
  simp only [reconMat, dequantBlock, hparams, hbits, hsf, hjoin, hsb]

/-- Settles O43: the widths, the reads and the values written are the same. -/
theorem reconIgnoresHeaderAndFrame : Obligations.ReconIgnoresHeaderAndFrame := by
  intro s s' t t' hparams hbits hsf hjoin hstream hsb h h'
  have hreads : readFields (codewordWidths s) s.stream = readFields (codewordWidths s') s'.stream := by
    rw [codewordWidths_congr hparams hbits, hstream]
  obtain ⟨st, hread, rfl⟩ | ⟨cs, st, hread, rfl⟩ := execRecon_cases h <;>
    obtain ⟨st', hread', rfl⟩ | ⟨cs', st', hread', rfl⟩ := execRecon_cases h' <;>
    cases (hread.symm.trans hreads).trans hread'
  · exact ⟨hsb, rfl, rfl⟩
  · exact ⟨reconMat_congr hparams hbits hsf hjoin hsb cs, rfl, rfl⟩

end Sys2Proof.Machine
end

section
/-! SUPPORT. The filter bank: what SYNTH and FILTER_RESET store, when a store is exact, what a channel
depends on, and the silence after ten blocks of zeros (R551 to R557). -/

namespace Sys2Proof.Machine

variable {s t : State} {p : Params} {ch : Fin 2} {sb sb' : Mat Word} {h h' : Mat (Vector Word 10)}

/-! ### The two sums -/

theorem combine_eq_sum (p : Params) (sb : Mat Word) (ch : Fin 2) (k : Fin 8) :
    combine p sb ch k =
      ∑ i : Fin 8, if i.val < p.sb.toNat then cosCoeff p k i * (sb.get ch i).toInt else 0 := by
  cases hsb : p.sb <;> simp [combine, hsb, Subbands.list, Subbands.toNat, Fin.sum_univ_eight, add_assoc]

/-- The slot written u blocks before slot c (R552). -/
theorem slot_back (c u : Fin 10) : Fin.ofNat 10 (c.val + 10 - u.val) = c - u := by
  ext
  simp only [Fin.val_ofNat, Fin.val_sub]
  omega

/-- The cursor counts modulo 10 (R553). -/
theorem slot_next (c : Fin 10) : Fin.ofNat 10 (c.val + 1) = c + 1 := rfl

theorem convolve_eq_sum (p : Params) (c : Fin 10) (h : Mat (Vector Word 10)) (ch : Fin 2) (j : Fin 8) :
    convolve p c h ch j = ∑ u : Fin 10, winCoeff p u j *
      ((h.get ch (selIndex p u j))[Fin.ofNat 10 (c.val + 10 - u.val)]).toInt := by
  simp only [slot_back]
  rw [← List.sum_ofFn]
  rfl

/-- The sum of R551 depends on the channel's own samples alone. -/
theorem combine_congr (hsb : ∀ i, sb.get ch i = sb'.get ch i) (k : Fin 8) :
    combine p sb ch k = combine p sb' ch k := by
  simp only [combine, hsb]

/-- The sum of R552 depends on the channel's own history alone. -/
theorem convolve_congr (hh : ∀ k, h.get ch k = h'.get ch k) (c : Fin 10) (j : Fin 8) :
    convolve p c h ch j = convolve p c h' ch j := by
  simp only [convolve, hh]

/-- A history row after the store depends on the channel's own samples and history alone (R551). -/
theorem storeHist_congr (hsb : ∀ i, sb.get ch i = sb'.get ch i) (hh : ∀ k, h.get ch k = h'.get ch k)
    (c : Fin 10) (k : Fin 8) : (storeHist p sb c h).get ch k = (storeHist p sb' c h').get ch k := by
  simp only [storeHist, Mat.get_ofFn, combine_congr hsb, hh]

/-! ### One SYNTH -/

@[simp] theorem exec_synth (s : State) : exec .synth s = .next ((synth s).withCode .ok) := rfl

theorem synth_hist_get (s : State) (ch : Fin 2) (k : Fin 8) (u : Fin 10) :
    ((synth s).hist.get ch k)[u] =
      if hasCell s.params ch k ∧ s.frame.cursor = u then BitVec.ofInt 32 (asr15 (combine s.params s.sb ch k))
      else (s.hist.get ch k)[u] :=
  storeHist_get ..

theorem synth_cursor (s : State) : (synth s).frame.cursor = s.frame.cursor + 1 := rfl

/-- The convolution reads the history with the new slot in it (R552). -/
theorem synth_pcm_get (s : State) (ch : Fin 2) (j : Fin 8) :
    (synth s).pcm.get ch j =
      if hasCell s.params ch j then
        BitVec.ofInt 16 (sat16 (asr15 (convolve s.params s.frame.cursor (synth s).hist ch j)))
      else s.pcm.get ch j :=
  pcmMat_get ..

/-- A saturated value fits 16 bits (R14). -/
theorem toInt_ofInt_sat16 (x : Int) : (BitVec.ofInt 16 (sat16 x)).toInt = sat16 x :=
  BitVec.toInt_ofInt_eq_self (by decide) (by simp [sat16]) (by simp [sat16])

/-- Settles O44: the stored slot and the PCM cell by cell, the rest from `synth_frame`. -/
theorem synthAdvancesTheFilter : Obligations.SynthAdvancesTheFilter := by
  refine ⟨by decide, fun s => ⟨_, exec_synth s, fun ch k hc => ?_, fun ch k u hne => ?_, fun ch j hc => ?_,
    fun ch j hc => ?_, ?_⟩⟩
  · rw [withCode_hist, synth_hist_get, if_pos ⟨hc, rfl⟩, combine_eq_sum, asr15]
  · rw [withCode_hist, synth_hist_get, if_neg]
    rintro ⟨hc, hu⟩
    obtain hc' | hu' := hne
    · exact Bool.false_ne_true (hc'.symm.trans hc)
    · exact hu' hu.symm
  · rw [withCode_pcm, synth_pcm_get, if_pos hc, toInt_ofInt_sat16, convolve_eq_sum, sat16, asr15,
      withCode_hist]
  · rw [withCode_pcm, synth_pcm_get, if_neg (by simp [hc])]
  · obtain ⟨hparams, hstatus, hhdr, hresult, hcrc, hstream, hframe, hjoin, hsf, hbits, hsb, hpending,
      hread⟩ := synth_frame s
    exact ⟨by rw [withCode_frame, hframe, slot_next], by rw [withCode_status, hstatus], hparams, hhdr,
      hresult, hcrc, hstream, hjoin, hsf, hbits, hsb, hpending, hread⟩

/-! ### The decode range -/

/-- With tables within R11 and samples within R66 the sum of R551 is at most 8 · 2^36. -/
theorem abs_combine_le (hcos : ∀ k i, |cosCoeff p k i| ≤ 2 ^ 16)
    (hsb : ∀ i, |(sb.get ch i).toInt| ≤ 2 ^ 20) (k : Fin 8) : |combine p sb ch k| ≤ 2 ^ 39 := by
  have hterm : ∀ i : Fin 8, |if i.val < p.sb.toNat then cosCoeff p k i * (sb.get ch i).toInt else 0| ≤
      (2 ^ 36 : Int) := by
    intro i
    split
    · calc |cosCoeff p k i * (sb.get ch i).toInt|
          = |cosCoeff p k i| * |(sb.get ch i).toInt| := abs_mul _ _
        _ ≤ 2 ^ 16 * 2 ^ 20 := by gcongr; exacts [hcos k i, hsb i]
        _ = 2 ^ 36 := by norm_num
    · simp
  rw [combine_eq_sum]
  calc |∑ i : Fin 8, if i.val < p.sb.toNat then cosCoeff p k i * (sb.get ch i).toInt else 0|
      ≤ ∑ _i : Fin 8, (2 ^ 36 : Int) :=
        (Finset.abs_sum_le_sum_abs _ _).trans (Finset.sum_le_sum fun i _ => hterm i)
    _ = 2 ^ 39 := by simp

/-- Settles O45: the shifted sum is at most 2^24 in size. -/
theorem historyStoreIsExactInRange : Obligations.HistoryStoreIsExactInRange := by
  intro s t ht hcos hsb ch k hc
  obtain rfl := finish_next ht
  obtain ⟨hlo, hhi⟩ := abs_le.mp (abs_combine_le hcos (hsb ch) k)
  rw [withCode_hist, synth_hist_get, if_pos ⟨hc, rfl⟩, ← combine_eq_sum, asr15]
  exact BitVec.toInt_ofInt_eq_self (by decide) (by omega) (by omega)

/-! ### The channels -/

/-- Settles O46: both sums of a channel read its own rows alone. -/
theorem synthChannelsAreIndependent : Obligations.SynthChannelsAreIndependent := by
  intro s s' t t' ch hparams hcursor hsb hhist ht ht'
  obtain rfl := finish_next ht
  obtain rfl := finish_next ht'
  have hrow : ∀ k, (synth s).hist.get ch k = (synth s').hist.get ch k := fun k => by
    simpa only [synth, withFrame_hist, withPcm_hist, withHist_hist, hparams, hcursor] using
      storeHist_congr hsb hhist s'.frame.cursor k
  refine ⟨hrow, fun j hc => ?_⟩
  rw [withCode_pcm, withCode_pcm, synth_pcm_get, synth_pcm_get, if_pos hc, if_pos (hparams ▸ hc), hparams,
    hcursor, convolve_congr hrow]

/-! ### Silence -/

theorem combine_eq_zero (hsb : ∀ i, hasCell p ch i = true → sb.get ch i = 0) {k : Fin 8}
    (hc : hasCell p ch k = true) : combine p sb ch k = 0 := by
  rw [combine_eq_sum]
  refine Finset.sum_eq_zero fun i _ => ite_eq_right_iff.mpr fun hi => ?_
  have hcell : hasCell p ch i = true := by
    simp only [hasCell, Bool.and_eq_true, decide_eq_true_eq] at hc ⊢
    exact ⟨hc.1, hi⟩
  simp [hsb i hcell]

/-- SEL_M names sub-bands below M (R550). -/
theorem hasCell_selIndex {j : Fin 8} (hc : hasCell p ch j = true) (u : Fin 10) :
    hasCell p ch (selIndex p u j) = true := by
  simp only [hasCell, Bool.and_eq_true, decide_eq_true_eq] at hc ⊢
  refine ⟨hc.1, ?_⟩
  unfold selIndex
  split
  · next hp => exact hp ▸ (p.sel4[Fin.ofNat 2 u][Fin.ofNat 4 j]).isLt
  · next hp => exact hp ▸ Fin.isLt _

/-- The state n blocks of zeros after s: the n slots from the old cursor on are 0 (R557). -/
structure Silenced (s : State) (n : Nat) (t : State) : Prop where
  params : t.params = s.params
  sb : t.sb = s.sb
  cursor : t.frame.cursor = s.frame.cursor + Fin.ofNat 10 n
  slots : ∀ ch k, hasCell s.params ch k = true → ∀ m < n,
    (t.hist.get ch k)[s.frame.cursor + Fin.ofNat 10 m] = 0

theorem Silenced.zero (s : State) : Silenced s 0 s := ⟨rfl, rfl, by simp, by simp⟩

/-- One more block of zeros clears the slot at the cursor. -/
theorem Silenced.synth {n : Nat} (hs : Silenced s n t)
    (hzero : ∀ ch i, hasCell s.params ch i = true → s.sb.get ch i = 0) :
    Silenced s (n + 1) ((synth t).withCode .ok) where
  params := hs.params
  sb := hs.sb
  cursor := by
    rw [withCode_frame, synth_cursor, hs.cursor]
    ext
    simp only [Fin.val_add, Fin.val_ofNat, Fin.val_one]
    omega
  slots ch k hc m hm := by
    rw [withCode_hist, synth_hist_get, hs.params, hs.sb, combine_eq_zero (hzero ch) hc]
    split
    · rfl
    · next hne =>
      refine hs.slots ch k hc m (Nat.lt_of_le_of_ne (Nat.le_of_lt_succ hm) ?_)
      rintro rfl
      exact hne ⟨hc, hs.cursor⟩

/-- A history of zeros gives a PCM of zeros (R552). -/
theorem convolve_eq_zero (hh : ∀ k, hasCell p ch k = true → ∀ u : Fin 10, (h.get ch k)[u] = 0) (c : Fin 10)
    {j : Fin 8} (hc : hasCell p ch j = true) : convolve p c h ch j = 0 := by
  rw [convolve_eq_sum]
  exact Finset.sum_eq_zero fun u _ => by rw [hh _ (hasCell_selIndex hc u)]; simp

/-- Settles O47: ten blocks clear every slot, and the tenth block's PCM reads the cleared slots. -/
theorem tenZeroBlocksSilenceTheFilter : Obligations.TenZeroBlocksSilenceTheFilter := by
  intro r hrun hzero
  have hsilenced : ∀ n ≤ 10, Silenced (r 0) n (r n) := by
    intro n
    induction n with
    | zero => exact fun _ => .zero _
    | succ n ih =>
      intro hn
      rw [finish_next (hrun n hn)]
      exact (ih (Nat.le_of_succ_le hn)).synth hzero
  have h10 := hsilenced 10 le_rfl
  have hhist : ∀ ch k, hasCell (r 0).params ch k = true → ∀ u : Fin 10, ((r 10).hist.get ch k)[u] = 0 := by
    intro ch k hc u
    have hslot : (r 0).frame.cursor + Fin.ofNat 10 (u - (r 0).frame.cursor).val = u := by simp
    exact hslot ▸ h10.slots ch k hc _ (u - (r 0).frame.cursor).isLt
  refine ⟨fun ch k u hc => hhist ch k hc u, fun ch j hc => ?_, ?_⟩
  · have hparams := (hsilenced 9 (by decide)).params
    have hlast : r 10 = (synth (r 9)).withCode .ok := finish_next (hrun 9 (by decide))
    rw [hlast, withCode_hist] at hhist
    rw [hlast, withCode_pcm, synth_pcm_get, hparams, if_pos hc, convolve_eq_zero (hhist ch) _ hc]
    rfl
  · simpa using h10.cursor

/-! ### FILTER_RESET -/

/-- Settles O48: the history it leaves is `clearHist`. -/
theorem filterResetClearsTheHistory : Obligations.FilterResetClearsTheHistory :=
  ⟨by decide, fun s => ⟨clearHist s.params s.hist, rfl, clearHist_get s.params s.hist⟩⟩

end Sys2Proof.Machine
end

section
/-! SUPPORT. A frame start: how each of its outcomes comes about, and what it leaves in JOIN, SF and BITS
(R601 to R603). -/

namespace Sys2Proof.Machine

variable {s t : State} {info : HdrInfo} {withCrc : Bool}

/-! ### A frame start without a frame -/

theorem frameStart_of_no_header (h : hdrInfo s.hdr = none) :
    frameStart withCrc s = .next (s.withCode .badCommand) := by
  simp only [frameStart, h, finish]

theorem frameStart_of_not_fits (hinfo : hdrInfo s.hdr = some info) (hfits : fits s.params info = false) :
    frameStart withCrc s = .next (s.idleFrame.withCode .configMismatch) := by
  simp only [frameStart, hinfo, hfits, if_true, finish]

theorem frameStart_of_short (hinfo : hdrInfo s.hdr = some info) (hfits : fits s.params info = true)
    (hlen : 8 * s.stream.src.length < (if withCrc then 8 else 0) + sideBits info) :
    frameStart withCrc s =
      .next ((s.idleFrame.withStream s.stream.emptied.drained).withCode .underflow) := by
  have hread : readFrameFields withCrc info s.stream.emptied = (none, s.stream.emptied.drained) := by
    rw [readFrameFields_spec _ _ _ (Nat.zero_le 7), frameStartBits_eq, emptied_avail,
      if_neg (Nat.not_le.mpr hlen)]
  simp only [frameStart, hinfo, hfits, hread, Bool.true_eq_false, if_false, finish]

/-- Settles O49: both commands are `frameStart`, and each refusal is an early end of it. -/
theorem frameStartRefusals : Obligations.FrameStartRefusals := by
  intro s i withCrc hi
  have hexec : exec i s = frameStart withCrc s := by
    obtain ⟨rfl, rfl⟩ | ⟨rfl, rfl⟩ := hi <;> rfl
  rw [hexec]
  refine ⟨fun hv => frameStart_of_no_header ((hdrInfo_eq_none_iff s.hdr).mpr hv),
    fun info hinfo => ⟨fun hshape => frameStart_of_not_fits hinfo ?_,
      fun hch hsb => frameStart_of_short hinfo ((fits_iff _ _).mpr ⟨hch, hsb⟩)⟩⟩
  rwa [← fits_iff, Bool.not_eq_true] at hshape

/-! ### The comparison and what follows it -/

/-- Settles O50: the frame is one whose CRC byte does not match. -/
theorem frameStartDetectsChecksumMismatch : Obligations.FrameStartDetectsChecksumMismatch := by
  intro s info hinfo hch hsb hlen hcrc
  rw [← wireBits_length] at hlen
  exact frameStart_of_not_crcMatches hinfo ((fits_iff _ _).mpr ⟨hch, hsb⟩) hlen hcrc

/-- A frame start with the right CRC byte goes on to the allocation, CRC showing that byte twice (R601). -/
theorem frameStart_of_crcMatches (hinfo : hdrInfo s.hdr = some info) (hfits : fits s.params info = true)
    (hlen : 8 + sideBits info ≤ s.wireBits.length) (hcrc : s.CrcMatches info) :
    frameStart true s = startFrame info (frameFieldsOf true info s.wireBits)
      ((s.idleFrame.withStream (s.stream.emptied.advance (8 + sideBits info))).withCrc
        { acc := s.wireCrc info, rx := s.wireCrc info }) := by
  have hacc := crcSeq_frameCrcBits hlen
  rw [frameStart_of_fields_on_wire (withCrc := true) hinfo hfits hlen, checkFrame]
  refine (if_neg (not_not.mpr (hacc.trans hcrc))).trans ?_
  rw [← hcrc]
  exact hacc ▸ rfl

/-- Without a CRC byte a frame start goes on to the allocation, CRC as it was (R602). -/
theorem frameStart_of_no_crc (hinfo : hdrInfo s.hdr = some info) (hfits : fits s.params info = true)
    (hlen : sideBits info ≤ s.wireBits.length) :
    frameStart false s = startFrame info (frameFieldsOf false info s.wireBits)
      ((s.idleFrame.withStream (s.stream.emptied.advance (sideBits info))).withCrc s.crc) := by
  have h := frameStart_of_fields_on_wire (withCrc := false) hinfo hfits (by simpa using hlen)
  rw [if_neg Bool.false_ne_true, Nat.zero_add] at h
  exact h

/-- A bitpool above 16 for each cell of a scope hangs the frame start (R457, R704). -/
theorem startFrame_of_not_spendable {f : FrameFields} (h : 16 * scopeSize info < info.bitpool.toNat) :
    startFrame info f s = .next s.enterHung := by
  obtain ⟨-, hnone⟩ | ⟨hle, -⟩ := allocate_spec s.params info (sfMat info f s.sf) s.bits
  · simp only [startFrame, hnone, finishHung]
  · omega

/-- Settles O51: both frame starts reach the allocation, which does not end. -/
theorem frameStartMayHang : Obligations.FrameStartMayHang := by
  intro s info hinfo hch hsb hbig
  have hfits := (fits_iff s.params info).mpr ⟨hch, hsb⟩
  rw [← wireBits_length]
  exact ⟨fun hlen hcrc => (frameStart_of_crcMatches hinfo hfits hlen hcrc).trans
      (startFrame_of_not_spendable hbig),
    fun hlen => (frameStart_of_no_crc hinfo hfits hlen).trans (startFrame_of_not_spendable hbig)⟩

/-! ### The registers of a started frame -/

/-- The field at position i of fields of one width, cut off a bit sequence. -/
theorem fieldsOf_getD_of_same_width {w i : Nat} {ws : List Nat} (hw : ∀ v ∈ ws, v = w)
    (hi : i < ws.length) (bits : List Bool) :
    (fieldsOf ws bits).getD i 0 = valueOf ((bits.drop (w * i)).take w) := by
  induction ws generalizing bits i with
  | nil => cases hi
  | cons v ws ih =>
    obtain ⟨rfl, hws⟩ := List.forall_mem_cons.mp hw
    cases i with
    | zero => rfl
    | succ i =>
      rw [fieldsOf, List.getD_cons_succ, ih hws (Nat.lt_of_succ_lt_succ hi), List.drop_drop, Nat.mul_succ,
        Nat.add_comm]

/-- The value of a one-bit field is its bit, 0 past the end of the sequence. -/
theorem valueOf_take_one (bits : List Bool) : valueOf (bits.take 1) = (bits.getD 0 false).toNat := by
  cases bits <;> simp [valueOf]

/-- Bit i of the joint bitmap as a number is its field i (R63, R601). -/
theorem testBit_joinOf {l : List Nat} (h : ∀ x ∈ l, x < 2) (i : Nat) :
    (joinOf l).testBit i = decide (l.getD i 0 = 1) := by
  induction l generalizing i with
  | nil => simp [joinOf]
  | cons x l ih =>
    obtain ⟨hx, hl⟩ := List.forall_mem_cons.mp h
    cases i with
    | zero =>
      rw [joinOf, List.getD_cons_zero, Nat.testBit_zero]
      congr 2
      omega
    | succ i =>
      have hhalf : (x + 2 * joinOf l) / 2 = joinOf l := by omega
      rw [joinOf, List.getD_cons_succ, Nat.testBit_succ, hhalf, ih hl]

theorem jointWidths_length (info : HdrInfo) :
    (jointWidths info).length = if info.chm = .joint then info.nsub.toNat else 0 := by
  unfold jointWidths
  cases info.chm <;> cases info.nsub <;> rfl

theorem frameFieldsOf_joint (bits : List Bool) : (frameFieldsOf withCrc info bits).joint =
    fieldsOf (jointWidths info) (bits.drop (if withCrc then 8 else 0)) := rfl

theorem frameFieldsOf_sf (bits : List Bool) : (frameFieldsOf withCrc info bits).sf =
    fieldsOf (sfWidths info)
      (bits.drop ((if withCrc then 8 else 0) + if info.chm = .joint then info.nsub.toNat else 0)) := by
  rw [← jointWidths_sum]
  rfl

/-- JOIN after a frame start: in joint-stereo mode the bits after the CRC byte, sub-band 0 first (R601). -/
theorem joint_getLsbD_eq (bits : List Bool) (sb : Fin 8) :
    (BitVec.ofNat 8 (joinOf (frameFieldsOf withCrc info bits).joint)).getLsbD sb =
      (decide (info.chm = .joint ∧ sb.val < info.nsub.toNat) &&
        bits.getD ((if withCrc then 8 else 0) + sb.val) false) := by
  have hones := jointWidths_eq_one info
  have hlen := jointWidths_length info
  rw [BitVec.getLsbD_ofNat, decide_eq_true sb.isLt, Bool.true_and, frameFieldsOf_joint,
    testBit_joinOf (fieldsOf_ones_lt _ _ hones)]
  by_cases h : info.chm = .joint ∧ sb.val < info.nsub.toNat
  · rw [if_pos h.1] at hlen
    rw [fieldsOf_getD_of_same_width hones (hlen ▸ h.2), Nat.one_mul, List.drop_drop, valueOf_take_one,
      decide_eq_true h, Bool.true_and]
    simp
  · have hshort : (jointWidths info).length ≤ sb.val := by
      rw [hlen]
      split
      · exact Nat.not_lt.mp fun hlt => h ⟨‹_›, hlt⟩
      · exact Nat.zero_le _
    rw [List.getD_eq_default _ _ (by rwa [fieldsOf_length]), decide_eq_false h]
    rfl

/-- Where the header fits, a cell of the configuration is one of the header's shape (R406, R70). -/
theorem mem_cellsOf_of_fits {ch : Fin 2} {sb : Fin 8} (hfits : fits s.params info = true)
    (hc : hasCell s.params ch sb = true) : (ch, sb) ∈ cellsOf (impliedChannels info.chm) info.nsub := by
  obtain ⟨hch, hsb⟩ := (fits_iff _ _).mp hfits
  rw [hch, hsb]
  exact (mem_cells s.params ch sb).mpr hc

/-- The scale factors of a frame start in wire order, four bits each after the joint bitmap (R601). -/
theorem sf_getD_eq {i : Nat} (hi : i < (cellsOf (impliedChannels info.chm) info.nsub).length)
    (bits : List Bool) : (frameFieldsOf withCrc info bits).sf.getD i 0 =
      valueOf ((bits.drop ((if withCrc then 8 else 0) +
        (if info.chm = .joint then info.nsub.toNat else 0) + 4 * i)).take 4) := by
  have hw : ∀ v ∈ sfWidths info, v = 4 := by simp [sfWidths]
  rw [frameFieldsOf_sf, fieldsOf_getD_of_same_width hw (by rwa [sfWidths, List.length_map]), List.drop_drop]

/-- SF after a frame start: the cell (ch, sb) has the scale factor at position M·ch + sb (R601). -/
theorem sfMat_get_of_lt {f : FrameFields} {old : Mat (BitVec 4)} {ch : Fin 2} {sb : Fin 8}
    (hlen : f.sf.length = (cellsOf (impliedChannels info.chm) info.nsub).length)
    (hch : ch.val < (impliedChannels info.chm).toNat) (hsb : sb.val < info.nsub.toNat) :
    (sfMat info f old).get ch sb = BitVec.ofNat 4 (f.sf.getD (info.nsub.toNat * ch.val + sb.val) 0) := by
  obtain ⟨hi, hcell⟩ := List.getElem?_eq_some_iff.mp (cellsOf_getElem? _ _ ch sb hch hsb)
  have hget := writeCells_get_of_getElem _ (f.sf.map (BitVec.ofNat 4)) old (cellsOf_nodup _ _) _ hi
    (by rwa [List.length_map, hlen])
  rw [hcell, List.getElem_map] at hget
  rw [sfMat, hget, List.getD_eq_getElem _ _ (hlen ▸ hi)]

theorem sfMat_toNat_of_lt {old : Mat (BitVec 4)} {ch : Fin 2} {sb : Fin 8}
    (hch : ch.val < (impliedChannels info.chm).toNat) (hsb : sb.val < info.nsub.toNat) (bits : List Bool) :
    ((sfMat info (frameFieldsOf withCrc info bits) old).get ch sb).toNat =
      valueOf ((bits.drop ((if withCrc then 8 else 0) + (if info.chm = .joint then info.nsub.toNat else 0) +
        4 * (info.nsub.toNat * ch.val + sb.val))).take 4) := by
  have hlen : (frameFieldsOf withCrc info bits).sf.length =
      (cellsOf (impliedChannels info.chm) info.nsub).length :=
    (fieldsOf_length _ _).trans (List.length_map _)
  obtain ⟨hi, -⟩ := List.getElem?_eq_some_iff.mp (cellsOf_getElem? _ _ ch sb hch hsb)
  rw [sfMat_get_of_lt hlen hch hsb, sf_getD_eq hi, BitVec.toNat_ofNat, Nat.mod_eq_of_lt]
  calc valueOf _ < 2 ^ _ := valueOf_lt _
    _ ≤ 2 ^ 4 := Nat.pow_le_pow_right two_pos (List.length_take_le _ _)

theorem startFrame_of_allocate_some {f : FrameFields} {w : Mat (BitVec 5)}
    (h : allocate s.params info (sfMat info f s.sf) s.bits = some w) :
    startFrame info f s = .next (((((s.withJoin (BitVec.ofNat 8 (joinOf f.joint))).withSf
      (sfMat info f s.sf)).withBits w).withFrame { s.frame with
        fstate := .active, blocksLeft := frameBlockCount info, frameBlocks := frameBlockCount info }).withCode
      .ok) := by
  simp only [startFrame, h, finish]

/-- The allocation of a frame start is ALLOC with the new scale factors (R450, R601). -/
theorem execAlloc_withSf {sf : Mat (BitVec 4)} {w : Mat (BitVec 5)} (hinfo : hdrInfo s.hdr = some info)
    (hfits : fits s.params info = true) (h : allocate s.params info sf s.bits = some w) :
    exec .alloc (s.withSf sf) = .next (((s.withSf sf).withBits w).withCode .ok) :=
  execAlloc_of_allocate_some (s := s.withSf sf) hinfo hfits h

/-- The registers no frame start writes (R601). -/
theorem frameStart_keeps (h : frameStart withCrc s = .next t) :
    t.params = s.params ∧ t.hdr = s.hdr ∧ t.result = s.result ∧ t.sb = s.sb ∧ t.pcm = s.pcm ∧
      t.hist = s.hist ∧ t.pending = s.pending ∧ t.readData = s.readData := by
  obtain ⟨st, f, crc, j, sf, w, c, hung, -, rfl⟩ := frameStart_writes h
  exact ⟨rfl, rfl, rfl, rfl, rfl, rfl, rfl, rfl⟩

/-- A frame start that reaches the allocation with a bitpool that can be spent completes, CRC as it then
stands (R457, R601). -/
theorem frameStart_of_spendable {crc : CrcReg} (hinfo : hdrInfo s.hdr = some info)
    (hfits : fits s.params info = true) (hle : info.bitpool.toNat ≤ 16 * scopeSize info)
    (hstart : frameStart withCrc s = startFrame info (frameFieldsOf withCrc info s.wireBits)
      ((s.idleFrame.withStream
        (s.stream.emptied.advance ((if withCrc then 8 else 0) + sideBits info))).withCrc crc)) :
    ∃ t, frameStart withCrc s = .next t ∧ FrameStarted (if withCrc then 8 else 0) info s t ∧
      t.crc = crc := by
  obtain ⟨hlt, -⟩ | ⟨-, w, hw, -⟩ := allocate_spec s.params info
    (sfMat info (frameFieldsOf withCrc info s.wireBits) s.sf) s.bits
  · omega
  · have hexec := hstart.trans (startFrame_of_allocate_some hw)
    obtain ⟨hparams, hhdr, hresult, hsb, hpcm, hhist, hpending, hread⟩ := frameStart_keeps hexec
    exact ⟨_, hexec, {
      code := rfl
      stream := rfl
      join := joint_getLsbD_eq s.wireBits
      sf := fun ch sb hc => by
        obtain ⟨hch, hsb⟩ := (mem_cellsOf _ _ ch sb).mp (mem_cellsOf_of_fits hfits hc)
        exact sfMat_toNat_of_lt hch hsb s.wireBits
      sf_absent := fun ch sb hc => sfMat_get_of_notMem (notMem_cellsOf_of_fits hfits hc)
      bits := execAlloc_withSf hinfo hfits hw
      frame := rfl
      params := hparams
      hdr := hhdr
      result := hresult
      sb := hsb
      pcm := hpcm
      hist := hhist
      pending := hpending
      readData := hread }, rfl⟩

/-- Settles O52: both frame starts reach the allocation, which ends. -/
theorem frameStartCompletes : Obligations.FrameStartCompletes := by
  intro s info hinfo hch hsb hle
  have hfits := (fits_iff s.params info).mpr ⟨hch, hsb⟩
  rw [← wireBits_length]
  refine ⟨fun hlen hcrc => frameStart_of_spendable (withCrc := true) hinfo hfits hle
    (frameStart_of_crcMatches hinfo hfits hlen hcrc), fun hlen => ?_⟩
  have hstart := frameStart_of_no_crc hinfo hfits hlen
  rw [← Nat.zero_add (sideBits info)] at hstart
  exact frameStart_of_spendable (withCrc := false) hinfo hfits hle hstart

end Sys2Proof.Machine
end

section
/-! SUPPORT. NEXT_BLOCK, its outcomes, and the frame state machine (R600, R604). -/

namespace Sys2Proof.Machine

variable {s t : State} {info : HdrInfo} {withCrc : Bool}

/-! ### NEXT_BLOCK -/

theorem execFrameNext_of_not_active (h : s.frame.fstate ≠ .active) :
    execFrameNext s = .next (s.withCode .noMoreBlocks) := by
  unfold execFrameNext
  split
  · rfl
  · rfl
  · contradiction

theorem execFrameNext_of_recon {read : Bool} {u : State} (hact : s.frame.fstate = .active)
    (h : recon (s.withFrame { s.frame with blocksLeft := s.frame.blocksLeft - 1 }) = (read, u)) :
    execFrameNext s =
      if read then finish .ok (synth u).endBlock else finish .underflow u.idleFrame := by
  unfold execFrameNext
  rw [h]
  cases read <;> simp only [hact] <;> rfl

/-- The counter is no part of what a block reads (R502, R604). -/
theorem recon_withFrame_spec (f : Frame) (hr : s.stream.rem ≤ 7) :
    recon (s.withFrame f) =
      if blockBits s ≤ s.stream.avail then
        (true, ((s.withFrame f).withStream (s.stream.advance (blockBits s))).withSb
          (reconMat s (fieldsOf (codewordWidths s) s.stream.pendingBits)))
      else (false, (s.withFrame f).withStream s.stream.drained) :=
  recon_spec (s.withFrame f) hr

theorem execFrameNext_of_short (hact : s.frame.fstate = .active) (hr : s.stream.rem ≤ 7)
    (h : s.stream.avail < blockBits s) :
    execFrameNext s = .next ((s.idleFrame.withStream s.stream.drained).withCode .underflow) := by
  rw [execFrameNext_of_recon hact ((recon_withFrame_spec _ hr).trans (if_neg (Nat.not_le.mpr h)))]
  rfl

/-- In an active frame with the block's codewords there, NEXT_BLOCK ends with OK as RECON and SYNTH do, the
counter taken down by one (R604). -/
theorem execFrameNext_of_available (hact : s.frame.fstate = .active) (hr : s.stream.rem ≤ 7)
    (h : blockBits s ≤ s.stream.avail) :
    ∃ u, exec .recon (s.withFrame { s.frame with blocksLeft := s.frame.blocksLeft - 1 }) =
        .next (u.withCode .ok) ∧
      u.frame = { s.frame with blocksLeft := s.frame.blocksLeft - 1 } ∧
      execFrameNext s = .next ((synth u).endBlock.withCode .ok) := by
  refine ⟨_, execRecon_of_available hr h, rfl, ?_⟩
  rw [execFrameNext_of_recon hact ((recon_withFrame_spec _ hr).trans (if_pos h))]
  rfl

/-- Settles O54: a block is `recon` and then `synth` under the counter. -/
theorem nextBlockOutcomes : Obligations.NextBlockOutcomes := by
  refine ⟨by decide, fun s hr => ⟨execFrameNext_of_not_active,
    fun hact hshort => execFrameNext_of_short hact hr hshort, fun hact havail => ?_⟩⟩
  obtain ⟨u, hrecon, hframe, hnext⟩ := execFrameNext_of_available hact hr havail
  refine ⟨_, _, hrecon, rfl, exec_synth _, hnext.trans ?_⟩
  obtain ⟨hfstate, hleft⟩ : (synth u).frame.fstate = .active ∧
      (synth u).frame.blocksLeft = s.frame.blocksLeft - 1 := by
    rw [show (synth u).frame = { u.frame with cursor := u.frame.cursor + 1 } from rfl, hframe]
    exact ⟨hact, rfl⟩
  rw [endBlock_eq, hfstate, hleft]
  rfl

/-! ### The frame state machine -/

/-- No command but a frame start and NEXT_BLOCK reaches FSTATE and BLOCKS_LEFT (R600). -/
theorem exec_keeps_frameState {i : Instr} (h : exec i s = .next t) (hcrc : i ≠ .frameStartCrc)
    (hnocrc : i ≠ .frameStartNocrc) (hnext : i ≠ .frameNext) :
    t.frame.fstate = s.frame.fstate ∧ t.frame.blocksLeft = s.frame.blocksLeft := by
  obtain ⟨-, -, -, -, -, -, -, -, hframe, -⟩ := commandsWriteOnlyTheirRegisters i s t h
  by_cases heq : t.frame = s.frame
  · rw [heq]
    exact ⟨rfl, rfl⟩
  · obtain rfl | rfl | rfl | rfl | rfl := hframe heq
    · obtain rfl := finish_next h
      exact ⟨rfl, rfl⟩
    · obtain rfl := finish_next h
      exact ⟨rfl, rfl⟩
    · contradiction
    · contradiction
    · contradiction

/-- The comparison of a frame start ends it or hands on a state that differs in CRC at most (R601). -/
theorem checkFrame_outcomes {f : FrameFields} (h : checkFrame info f s = .next t) :
    ∃ crc, t = (s.withCrc crc).withCode .checksumMismatch ∨
      startFrame info f (s.withCrc crc) = .next t := by
  obtain ⟨-, hstart⟩ | ⟨rx, -, ⟨-, rfl⟩ | ⟨-, hstart⟩⟩ := checkFrame_cases h
  · exact ⟨s.crc, .inr hstart⟩
  · exact ⟨_, .inl rfl⟩
  · exact ⟨_, .inr hstart⟩

/-- The end of a frame start begins a frame or enters the hung state, FRAME as it was (R600, R601). -/
theorem startFrame_frameState {f : FrameFields} (h : startFrame info f s = .next t) :
    (t.status.code = .ok ∧ t.frame.fstate = .active ∧ t.frame.blocksLeft = frameBlockCount info) ∨
      (t.status.code = .hung ∧ t.frame = s.frame) := by
  obtain ⟨-, rfl⟩ | ⟨w, -, rfl⟩ := startFrame_cases h
  · exact .inr ⟨rfl, rfl⟩
  · exact .inl ⟨rfl, rfl, rfl⟩

/-- Where a frame start leads (R600): FRAME as it was without a header, else a new frame or IDLE. -/
theorem frameStart_frameState (h : frameStart withCrc s = .next t) :
    (t.status.code = .badCommand ∧ hdrV s.hdr = false ∧ t.frame = s.frame) ∨
      (t.status.code = .ok ∧ t.frame.fstate = .active ∧
        ∃ info, hdrInfo s.hdr = some info ∧ t.frame.blocksLeft = frameBlockCount info) ∨
      ((t.status.code = .configMismatch ∨ t.status.code = .underflow ∨
          t.status.code = .checksumMismatch ∨ t.status.code = .hung) ∧
        t.frame.fstate = .idle ∧ t.frame.blocksLeft = 0) := by
  obtain ⟨hnone, rfl⟩ | ⟨info, hinfo, ⟨-, rfl⟩ | ⟨-, ⟨st, -, rfl⟩ | ⟨f, st, -, hcheck⟩⟩⟩ :=
    frameStart_cases h
  · exact .inl ⟨rfl, (hdrInfo_eq_none_iff s.hdr).mp hnone, rfl⟩
  · exact .inr (.inr ⟨.inl rfl, rfl, rfl⟩)
  · exact .inr (.inr ⟨.inr (.inl rfl), rfl, rfl⟩)
  · obtain ⟨crc, rfl | hstart⟩ := checkFrame_outcomes hcheck
    · exact .inr (.inr ⟨.inr (.inr (.inl rfl)), rfl, rfl⟩)
    · obtain ⟨hok, hactive, hleft⟩ | ⟨hhung, hframe⟩ := startFrame_frameState hstart
      · exact .inr (.inl ⟨hok, hactive, info, hinfo, hleft⟩)
      · rw [hframe]
        exact .inr (.inr ⟨.inr (.inr (.inr hhung)), rfl, rfl⟩)

/-- Where NEXT_BLOCK leads (R600, R604): without an active frame nowhere; from one to IDLE where the block is
cut short, else to one block fewer. -/
theorem execFrameNext_frameState (h : execFrameNext s = .next t) :
    (s.frame.fstate ≠ .active ∧ t.status.code = .noMoreBlocks ∧ t.frame = s.frame) ∨
      (s.frame.fstate = .active ∧ t.status.code = .underflow ∧ t.frame.fstate = .idle ∧
        t.frame.blocksLeft = 0) ∨
      (s.frame.fstate = .active ∧ t.status.code = .ok ∧ t.frame.blocksLeft = s.frame.blocksLeft - 1 ∧
        t.frame.fstate = if s.frame.blocksLeft - 1 = 0 then .exhausted else .active) := by
  obtain ⟨hidle, rfl⟩ | ⟨hact, ⟨st, -, rfl⟩ | ⟨cs, st, -, rfl⟩⟩ := execFrameNext_cases h
  · exact .inl ⟨hidle, rfl, rfl⟩
  · exact .inr (.inl ⟨hact, rfl, rfl, rfl⟩)
  · refine .inr (.inr ⟨hact, ?_⟩)
    rw [endBlock_eq, ← hact]
    exact ⟨rfl, rfl, rfl⟩

/-- Settles O55: the three kinds of command, one lemma each. -/
theorem frameStateMachine : Obligations.FrameStateMachine := by
  refine fun i s t h => ⟨exec_keeps_frameState h, ?_, ?_⟩
  · rintro (rfl | rfl)
    · exact frameStart_frameState (withCrc := true) h
    · exact frameStart_frameState (withCrc := false) h
  · rintro rfl
    obtain ⟨hidle, hcode, hframe⟩ | ⟨hact, hcode, hfstate, hleft⟩ | ⟨hact, hcode, hleft, hfstate⟩ :=
      execFrameNext_frameState h
    · exact ⟨fun _ => ⟨hcode, hframe⟩, fun hact => absurd hact hidle, fun hact => absurd hact hidle⟩
    · exact ⟨fun hidle => absurd hact hidle, fun _ _ => ⟨hfstate, hleft⟩,
        fun _ hne => absurd hcode hne⟩
    · refine ⟨fun hidle => absurd hact hidle, fun _ hunder => ?_, fun _ _ => ⟨hcode, fun htwo => ?_,
        fun hone => ?_⟩⟩
      · cases hcode.symm.trans hunder
      · rw [if_neg (by omega)] at hfstate
        exact ⟨hfstate, hleft⟩
      · rw [hone] at hfstate hleft
        exact ⟨hfstate, hleft⟩

end Sys2Proof.Machine
end

section
/-! SUPPORT. Every command and every step answers a next state, and the bytes a command leaves in the source
are the tail of those it found (R154, R707). -/

namespace Sys2Proof.Machine

variable {s t : State} {info : HdrInfo} {withCrc : Bool}

/-! ### Nothing stops the machine -/

/-- The outcome is a next state: no fault and no refusal (R707). -/
def Answers (r : Host.Outcome State Fault Refusal) : Prop := ∃ t, r = .next t

theorem finish_answers (c : StatusCode) (s : State) : Answers (finish c s) := ⟨_, rfl⟩

theorem finishHung_answers (s : State) : Answers (finishHung s) := ⟨_, rfl⟩

theorem readToResult_answers (max : Nat) (n : Byte) (s : State) : Answers (readToResult max n s) := by
  unfold readToResult
  split
  · exact finish_answers _ _
  · split <;> exact finish_answers _ _

theorem execCrcBits_answers (x k : Byte) (s : State) : Answers (execCrcBits x k s) := by
  unfold execCrcBits
  split <;> exact finish_answers _ _

theorem execHdrDecode_answers (s : State) : Answers (execHdrDecode s) := by
  unfold execHdrDecode
  split
  · exact finish_answers _ _
  · split <;> exact finish_answers _ _

theorem execHdrEncode_answers (s : State) : Answers (execHdrEncode s) := by
  unfold execHdrEncode
  split <;> exact finish_answers _ _

theorem execAlloc_answers (s : State) : Answers (execAlloc s) := by
  unfold execAlloc
  split
  · exact finish_answers _ _
  · split
    · exact finish_answers _ _
    · split
      · exact finishHung_answers _
      · exact finish_answers _ _

theorem execRecon_answers (s : State) : Answers (execRecon s) := by
  unfold execRecon
  split <;> exact finish_answers _ _

theorem startFrame_answers (info : HdrInfo) (f : FrameFields) (s : State) : Answers (startFrame info f s) := by
  unfold startFrame
  split
  · exact finishHung_answers _
  · exact finish_answers _ _

theorem checkFrame_answers (info : HdrInfo) (f : FrameFields) (s : State) : Answers (checkFrame info f s) := by
  unfold checkFrame
  split
  · exact startFrame_answers _ _ _
  · split
    · exact finish_answers _ _
    · exact startFrame_answers _ _ _

theorem frameStart_answers (withCrc : Bool) (s : State) : Answers (frameStart withCrc s) := by
  unfold frameStart
  split
  · exact finish_answers _ _
  · split
    · exact finish_answers _ _
    · split
      · exact finish_answers _ _
      · exact checkFrame_answers _ _ _

theorem execFrameNext_answers (s : State) : Answers (execFrameNext s) := by
  unfold execFrameNext
  split
  · exact finish_answers _ _
  · exact finish_answers _ _
  · split <;> exact finish_answers _ _

theorem exec_answers (i : Instr) (s : State) : Answers (exec i s) := by
  cases i with
  | brReset => exact finish_answers _ _
  | brRead8 n => exact readToResult_answers _ _ _
  | brRead16 n => exact readToResult_answers _ _ _
  | crcInit v => exact finish_answers _ _
  | crcByte x => exact finish_answers _ _
  | crcBits x k => exact execCrcBits_answers _ _ _
  | hdrDecode => exact execHdrDecode_answers _
  | hdrEncode => exact execHdrEncode_answers _
  | alloc => exact execAlloc_answers _
  | recon => exact execRecon_answers _
  | synth => exact finish_answers _ _
  | filterReset => exact finish_answers _ _
  | frameStartCrc => exact frameStart_answers _ _
  | frameStartNocrc => exact frameStart_answers _ _
  | frameNext => exact execFrameNext_answers _

theorem cmdWrite_answers (v : Word) (s : State) : Answers (cmdWrite v s) := by
  unfold cmdWrite
  split
  · exact ⟨_, rfl⟩
  · split
    · exact exec_answers _ _
    · exact finish_answers _ _

theorem hostAct_answers (act : HostAction) (s : State) : Answers (hostAct act s) := by
  cases act with
  | write a v =>
    rw [hostAct]
    split
    · exact cmdWrite_answers v s
    · exact ⟨_, rfl⟩
  | read a => exact ⟨_, rfl⟩
  | push bytes => exact ⟨_, rfl⟩
  | reset src => exact ⟨_, rfl⟩

theorem step_answers (s : State) : Answers (step s) := by
  unfold step
  split
  · exact ⟨_, rfl⟩
  · exact hostAct_answers _ _

/-! ### The parameters -/

theorem exec_params {i : Instr} (h : exec i s = .next t) : t.params = s.params := by
  obtain ⟨hparams, -⟩ := commandsWriteOnlyTheirRegisters i s t h
  exact hparams

/-- A host write does not reach the parameters (R10, R152). -/
theorem regWrite_params (s : State) (a : Addr) (v : Word) : (regWrite s a v).params = s.params := by
  obtain h | h | h | ⟨ch, b, -, h⟩ | ⟨ch, b, -, h⟩ := regWrite_cases s a v <;> rw [h] <;> rfl

theorem step_params (h : step s = .next t) : t.params = s.params := by
  obtain ⟨-, rfl⟩ | ⟨v, rest, -, ⟨-, rfl⟩ | ⟨-, ⟨i, -, hexec⟩ | ⟨e, -, rfl⟩⟩⟩ |
    ⟨a, v, rest, -, -, rfl⟩ | ⟨a, rest, -, rfl⟩ | ⟨bytes, rest, -, rfl⟩ | ⟨src, rest, -, rfl⟩ :=
    step_cases h
  · rfl
  · rfl
  · have hparams := exec_params hexec
    exact hparams
  · rfl
  · exact regWrite_params _ a v
  · rfl
  · rfl
  · rfl

/-- Settles O8: no arm of the machine faults or refuses, and no write reaches the parameters. -/
theorem coreNeverStops : Obligations.CoreNeverStops := by
  refine ⟨fun s => ?_, fun i s => ?_⟩
  · obtain ⟨t, h⟩ := step_answers s
    exact ⟨t, h, step_params h⟩
  · obtain ⟨t, h⟩ := exec_answers i s
    exact ⟨t, h, exec_params h⟩

/-! ### The bytes taken from the source -/

theorem fill_src_suffix {st st' : Stream} (h : st.fill = some st') : st'.src <:+ st.src := by
  obtain ⟨buf, rem, src⟩ := st
  unfold Stream.fill at h
  split at h
  · cases src with
    | nil => cases h
    | cons b q =>
      cases h
      exact List.suffix_cons b q
  · cases h
    exact List.suffix_rfl

/-- A read takes bytes from the head of the source alone, from every position (R301). -/
theorem bitReadLoop_src_suffix (fuel need v : Nat) (st : Stream) :
    (bitReadLoop fuel need v st).2.src <:+ st.src := by
  fun_induction bitReadLoop fuel need v st with
  | case1 => exact List.suffix_rfl
  | case2 => exact List.suffix_rfl
  | case3 => exact List.suffix_rfl
  | case4 fuel need v st st' hfill ih => exact ih.trans (fill_src_suffix (st' := st') hfill)

theorem bitRead_src_suffix {n : Nat} {st st' : Stream} {r : Option Nat} (h : bitRead n st = (r, st')) :
    st'.src <:+ st.src := by
  have hsrc : (bitRead n st).2.src <:+ st.src := bitReadLoop_src_suffix n n 0 st
  rwa [h] at hsrc

theorem readFields_src_suffix {ws : List Nat} {st st' : Stream} {r : Option (List Nat)}
    (h : readFields ws st = (r, st')) : st'.src <:+ st.src := by
  obtain rfl : (readFields ws st).2 = st' := congrArg Prod.snd h
  clear h
  fun_induction readFields ws st with
  | case1 => exact List.suffix_rfl
  | case2 n ns st st1 hread => exact bitRead_src_suffix hread
  | case3 n ns st v st1 hread st2 hrest ih =>
    rw [hrest] at ih
    exact ih.trans (bitRead_src_suffix hread)
  | case4 n ns st v st1 hread vs st2 hrest ih =>
    rw [hrest] at ih
    exact ih.trans (bitRead_src_suffix hread)

theorem readFrameFields_src_suffix {r : Option FrameFields} {st q : Stream}
    (h : readFrameFields withCrc info q.emptied = (r, st)) : st.src <:+ q.src := by
  rw [readFrameFields_spec _ _ _ (Nat.zero_le 7)] at h
  split at h
  · obtain ⟨-, rfl⟩ := Prod.mk.inj h
    exact List.drop_suffix _ _
  · obtain ⟨-, rfl⟩ := Prod.mk.inj h
    exact List.nil_suffix

end Sys2Proof.Machine
end

section
/-! SUPPORT. How a command ends: the status it reports, what an error leaves behind, and the hung state (R701
to R705). -/

namespace Sys2Proof.Machine

variable {i : Instr} {s t u : State} {info : HdrInfo} {st : Stream}

/-! ### What an error leaves behind -/

/-- The commands that need a header (R404, R450, R601). -/
def NeedsHeader (i : Instr) : Prop :=
  i = .hdrEncode ∨ i = .alloc ∨ i = .frameStartCrc ∨ i = .frameStartNocrc

/-- The frame commands (R600). -/
def IsFrameCommand (i : Instr) : Prop := i = .frameStartCrc ∨ i = .frameStartNocrc ∨ i = .frameNext

/-- What an error of i may have changed before it is reported (R705): the stream position, FSTATE and
BLOCKS_LEFT for a frame command, CRC for FRAME_START_CRC. -/
structure Residue (i : Instr) (s u : State) : Prop where
  shape : u = ((s.withStream u.stream).withFrame u.frame).withCrc u.crc
  src : u.stream.src <:+ s.stream.src
  cursor : u.frame.cursor = s.frame.cursor
  frameBlocks : u.frame.frameBlocks = s.frame.frameBlocks
  frame : u.frame ≠ s.frame → IsFrameCommand i
  crc : u.crc ≠ s.crc → i = .frameStartCrc

theorem Residue.refl (i : Instr) (s : State) : Residue i s s where
  shape := rfl
  src := List.suffix_rfl
  cursor := rfl
  frameBlocks := rfl
  frame h := absurd rfl h
  crc h := absurd rfl h

theorem Residue.withStream (h : Residue i s u) (hst : st.src <:+ s.stream.src) :
    Residue i s (u.withStream st) :=
  { h with shape := congrArg (·.withStream st) h.shape, src := hst }

theorem Residue.idleFrame (h : Residue i s u) (hi : IsFrameCommand i) : Residue i s u.idleFrame :=
  { h with shape := congrArg (·.withFrame u.idleFrame.frame) h.shape, frame := fun _ => hi }

theorem Residue.withCrc {c : CrcReg} (h : Residue i s u) (hi : c ≠ s.crc → i = .frameStartCrc) :
    Residue i s (u.withCrc c) :=
  { h with shape := congrArg (·.withCrc c) h.shape, crc := hi }

theorem Residue.status (h : Residue i s u) : u.status = s.status := by rw [h.shape]; rfl

/-- The registers that no error reaches (R705). -/
theorem Residue.keeps (h : Residue i s u) :
    u.hist = s.hist ∧ u.pcm = s.pcm ∧ u.hdr = s.hdr ∧ u.result = s.result ∧ u.sb = s.sb ∧ u.sf = s.sf ∧
      u.bits = s.bits ∧ u.join = s.join ∧ u.params = s.params ∧ u.pending = s.pending ∧
      u.readData = s.readData := by
  rw [h.shape]
  exact ⟨rfl, rfl, rfl, rfl, rfl, rfl, rfl, rfl, rfl, rfl, rfl⟩

/-! ### The ends of a command -/

/-- The four ends of a command (R701): OK; BAD_COMMAND, which a legal command reports for want of a header
alone and which changes nothing else (R702); another error, with its residue (R705); the hung state (R704). -/
inductive Ends (i : Instr) (s : State) : State → Prop where
  | ok {t : State} (h : t.status = { s.status with code := .ok }) : Ends i s t
  | badCommand (h : i.wf = true → NeedsHeader i ∧ hdrV s.hdr = false) : Ends i s (s.withCode .badCommand)
  | error {u : State} (c : StatusCode) (hu : Residue i s u) (hbad : c ≠ .badCommand) (hhung : c ≠ .hung) :
      Ends i s (u.withCode c)
  | hung {u : State} (hu : Residue i s u) : Ends i s u.enterHung

theorem Ends.of_no_header (hi : NeedsHeader i) (hv : hdrV s.hdr = false) :
    Ends i s (s.withCode .badCommand) :=
  .badCommand fun _ => ⟨hi, hv⟩

theorem finish_ok_ends (h : finish .ok u = .next t) (hu : u.status = s.status) : Ends i s t := by
  obtain rfl := finish_next h
  exact .ok (by simp [hu])

theorem readToResult_ends {max : Nat} {n : Byte} (h : readToResult max n s = .next t)
    (hwf : i.wf = true → n.toNat ≤ max) : Ends i s t := by
  obtain ⟨hlt, rfl⟩ | ⟨-, st, hread, rfl⟩ | ⟨-, v, st, -, rfl⟩ := readToResult_cases h
  · exact .badCommand fun hi => absurd (hwf hi) (Nat.not_le.mpr hlt)
  · exact .error .underflow ((Residue.refl i s).withStream (bitRead_src_suffix hread)) (by decide) (by decide)
  · exact .ok rfl

theorem execCrcBits_ends {x k : Byte} (h : execCrcBits x k s = .next t) : Ends (.crcBits x k) s t := by
  unfold execCrcBits at h
  split at h
  case isTrue hlt =>
    obtain rfl := finish_next h
    exact .badCommand fun hwf => absurd (of_decide_eq_true hwf) (Nat.not_le.mpr hlt)
  case isFalse => exact finish_ok_ends h rfl

theorem execHdrDecode_ends (h : execHdrDecode s = .next t) : Ends .hdrDecode s t := by
  have hres := Residue.refl .hdrDecode s
  obtain ⟨-, rfl⟩ | ⟨b0, b1, b2, q, hsrc, ⟨-, rfl⟩ | ⟨w, -, rfl⟩⟩ := execHdrDecode_cases h
  · exact .error .underflow (hres.withStream List.nil_suffix) (by decide) (by decide)
  · exact .error .unrecognizedSync (hres.withStream ⟨[b0, b1, b2], hsrc.symm⟩) (by decide) (by decide)
  · exact .ok rfl

theorem execHdrEncode_ends (h : execHdrEncode s = .next t) : Ends .hdrEncode s t := by
  obtain ⟨hv, rfl⟩ | ⟨-, r, rfl⟩ := execHdrEncode_cases h
  · exact .of_no_header (.inl rfl) hv
  · exact .ok rfl

theorem execAlloc_ends (h : execAlloc s = .next t) : Ends .alloc s t := by
  have hres := Residue.refl .alloc s
  obtain ⟨hnone, rfl⟩ | ⟨info, -, ⟨-, rfl⟩ | ⟨-, -, rfl⟩ | ⟨-, w, -, rfl⟩⟩ := execAlloc_cases h
  · exact .of_no_header (.inr (.inl rfl)) ((hdrInfo_eq_none_iff s.hdr).mp hnone)
  · exact .error .configMismatch hres (by decide) (by decide)
  · exact .hung hres
  · exact .ok rfl

theorem execRecon_ends (h : execRecon s = .next t) : Ends .recon s t := by
  obtain ⟨st, hread, rfl⟩ | ⟨cs, st, -, rfl⟩ := execRecon_cases h
  · exact .error .underflow ((Residue.refl .recon s).withStream (readFields_src_suffix hread)) (by decide)
      (by decide)
  · exact .ok rfl

/-- The allocation of a frame start ends it from a residue of that frame start (R601). -/
theorem startFrame_ends {f : FrameFields} (h : startFrame info f u = .next t) (hu : Residue i s u) :
    Ends i s t := by
  obtain ⟨-, rfl⟩ | ⟨w, -, rfl⟩ := startFrame_cases h
  · exact .hung hu
  · exact .ok (by simp [hu.status])

theorem checkFrame_ends {f : FrameFields} (h : checkFrame info f u = .next t) (hu : Residue i s u)
    (hi : f.rx ≠ none → i = .frameStartCrc) : Ends i s t := by
  obtain ⟨-, hstart⟩ | ⟨rx, hrx, ⟨-, rfl⟩ | ⟨-, hstart⟩⟩ := checkFrame_cases h
  · exact startFrame_ends hstart hu
  · exact .error .checksumMismatch (hu.withCrc fun _ => hi (by simp [hrx])) (by decide) (by decide)
  · exact startFrame_ends hstart (hu.withCrc fun _ => hi (by simp [hrx]))

theorem frameStart_ends {withCrc : Bool} (h : frameStart withCrc s = .next t)
    (hi : i = if withCrc then .frameStartCrc else .frameStartNocrc) : Ends i s t := by
  have hneeds : NeedsHeader i := by cases withCrc <;> simp [hi, NeedsHeader]
  have hframe : IsFrameCommand i := by cases withCrc <;> simp [hi, IsFrameCommand]
  have hres := (Residue.refl i s).idleFrame hframe
  obtain ⟨hnone, rfl⟩ | ⟨info, -, ⟨-, rfl⟩ | ⟨-, ⟨st, hread, rfl⟩ | ⟨f, st, hread, hcheck⟩⟩⟩ :=
    frameStart_cases h
  · exact .of_no_header hneeds ((hdrInfo_eq_none_iff s.hdr).mp hnone)
  · exact .error .configMismatch hres (by decide) (by decide)
  · exact .error .underflow (hres.withStream (readFrameFields_src_suffix hread)) (by decide) (by decide)
  · refine checkFrame_ends hcheck (hres.withStream (readFrameFields_src_suffix hread)) fun hrx => ?_
    obtain ⟨rfl, -⟩ := readFrameFields_emptied hread
    cases withCrc with
    | true => exact hi
    | false => exact absurd rfl hrx

theorem execFrameNext_ends (h : execFrameNext s = .next t) : Ends .frameNext s t := by
  have hres := Residue.refl .frameNext s
  obtain rfl | ⟨st, hread, rfl⟩ | ⟨-, cs, st, -, rfl⟩ := execFrameNext_outcomes h
  · exact .error .noMoreBlocks hres (by decide) (by decide)
  · exact .error .underflow ((hres.idleFrame (.inr (.inr rfl))).withStream (readFields_src_suffix hread))
      (by decide) (by decide)
  · exact .ok rfl

theorem exec_ends (h : exec i s = .next t) : Ends i s t := by
  cases i with
  | brReset => exact finish_ok_ends h rfl
  | brRead8 n => exact readToResult_ends h of_decide_eq_true
  | brRead16 n => exact readToResult_ends h of_decide_eq_true
  | crcInit v => exact finish_ok_ends h rfl
  | crcByte x => exact finish_ok_ends h rfl
  | crcBits x k => exact execCrcBits_ends h
  | hdrDecode => exact execHdrDecode_ends h
  | hdrEncode => exact execHdrEncode_ends h
  | alloc => exact execAlloc_ends h
  | recon => exact execRecon_ends h
  | synth => exact finish_ok_ends h rfl
  | filterReset => exact finish_ok_ends h rfl
  | frameStartCrc => exact frameStart_ends (withCrc := true) h rfl
  | frameStartNocrc => exact frameStart_ends (withCrc := false) h rfl
  | frameNext => exact execFrameNext_ends h

/-- Outside the hung state the code is HUNG only together with the hung state, whatever it was (R704). -/
theorem Ends.hung_iff (h : Ends i s t) (hs : s.status.hung = false) :
    t.status.hung = true ↔ t.status.code = .hung := by
  cases h with
  | ok h => simp [h, hs]
  | badCommand => simp [hs]
  | error c hu _ hhung => simp [hu.status, hs, hhung]
  | hung => simp

theorem Ends.cause_of_badCommand (h : Ends i s t) (hc : t.status.code = .badCommand) (hwf : i.wf = true) :
    NeedsHeader i ∧ hdrV s.hdr = false := by
  cases h with
  | ok h => simp [h] at hc
  | badCommand hcause => exact hcause hwf
  | error c _ hbad _ => exact absurd hc hbad
  | hung => cases hc

theorem Ends.residue_of_error (h : Ends i s t) (hc : t.status.code ≠ .ok) :
    ∃ u status, Residue i s u ∧ t = { u with status := status } := by
  cases h with
  | ok h => simp [h] at hc
  | badCommand => exact ⟨s, _, Residue.refl i s, rfl⟩
  | error c hu => exact ⟨_, _, hu, rfl⟩
  | hung hu => exact ⟨_, _, hu, rfl⟩

/-! ### The settled statements -/

/-- Settles O57: the registers are those of the residue, STATUS apart. -/
theorem errorsAreContained : Obligations.ErrorsAreContained := by
  intro i s t h hc
  obtain ⟨-, -, -, hlastop, -⟩ := commandsWriteOnlyTheirRegisters i s t h
  obtain ⟨u, status, hu, rfl⟩ := (exec_ends h).residue_of_error hc
  obtain ⟨taken, hsrc⟩ := hu.src
  obtain ⟨hhist, hpcm, hhdr, hresult, hsb, hsf, hbits, hjoin, hparams, hpending, hread⟩ := hu.keeps
  exact ⟨hhist, hpcm, hu.cursor, hu.frameBlocks, hhdr, hresult, hsb, hsf, hbits, hjoin, hparams, hpending, hread,
    hlastop, hu.crc, hu.frame, taken, hsrc.symm⟩

/-- A write of an illegal word reports BAD_COMMAND and changes nothing else (R203, R702). -/
theorem step_of_rejected {v : Word} {rest : List HostAction} {e : Reject} (hp : s.nextCommand v rest)
    (hh : s.status.hung = false) (hd : decode v = .error e) :
    step s = .next (((s.withPending rest).withLastop (v.extractLsb' 0 8)).withCode .badCommand) := by
  rw [step_command hp, hh, if_neg Bool.false_ne_true, hd]
  rfl

/-- Settles O9: the word is rejected, or the command that runs keeps LASTOP and the host's list. -/
theorem commandWritesLastop : Obligations.CommandWritesLastop := by
  intro s v rest hp hh
  cases hd : decode v with
  | error e => exact ⟨_, step_of_rejected hp hh hd, rfl, rfl, by simp [hh]⟩
  | ok i =>
    obtain ⟨t, hexec⟩ := exec_answers i ((s.withPending rest).withLastop (v.extractLsb' 0 8))
    obtain ⟨-, hpending, -, hlastop, -⟩ := commandsWriteOnlyTheirRegisters i _ t hexec
    exact ⟨t, (stepRunsDecodedCommand s v rest i hp hh hd).trans hexec, hlastop, hpending,
      (exec_ends hexec).hung_iff hh⟩

/-- A command that needs a header reports BAD_COMMAND without one and changes nothing else (R702). -/
theorem exec_of_no_header (hi : NeedsHeader i) (hv : hdrV s.hdr = false) :
    exec i s = .next (s.withCode .badCommand) := by
  have hnone := (hdrInfo_eq_none_iff s.hdr).mpr hv
  obtain rfl | rfl | rfl | rfl := hi
  · exact if_pos hv
  · exact execAlloc_of_no_header hnone
  · exact frameStart_of_no_header (withCrc := true) hnone
  · exact frameStart_of_no_header (withCrc := false) hnone

/-- Settles O10: what is not legal does not decode, and a legal command has one cause of BAD_COMMAND. -/
theorem badCommandExactly : Obligations.BadCommandExactly := by
  refine ⟨fun s v rest hp hh hillegal => ?_, fun i s => exec_of_no_header,
    fun i s t hwf h hc => (exec_ends h).cause_of_badCommand hc hwf⟩
  cases hd : decode v with
  | ok i => exact absurd ((decodeAcceptsExactlyLegalWords v).mp ⟨i, hd⟩) hillegal
  | error e => exact step_of_rejected hp hh hd

/-- Settles O11: the write is taken from the host's list and that is all. -/
theorem hungCoreIgnoresCommands : Obligations.HungCoreIgnoresCommands := fun _ _ _ hp hh =>
  (step_command hp).trans (if_pos hh)

end Sys2Proof.Machine
end

section
/-! SUPPORT. The state after reset: every register is 0, and what a reset access keeps (R800). -/

namespace Sys2Proof.Machine

/-- A matrix of one value has that value in every cell. -/
@[simp] theorem Mat.get_replicate {α : Type} (a : α) (ch : Fin 2) (sb : Fin 8) :
    Mat.get (Vector.replicate 2 (Vector.replicate 8 a)) ch sb = a := by
  simp [Mat.get]

/-- No matrix holds anything but 0 after reset, in the cells the configuration lacks too (R800). -/
theorem resetOf_cells (p : Params) (src : List Byte) (ch : Fin 2) (sb : Fin 8) :
    (State.resetOf p src).sf.get ch sb = 0 ∧ (State.resetOf p src).bits.get ch sb = 0 ∧
      (State.resetOf p src).sb.get ch sb = 0 ∧ (State.resetOf p src).pcm.get ch sb = 0 ∧
      ∀ k : Fin 10, ((State.resetOf p src).hist.get ch sb)[k] = 0 := by
  simp [State.resetOf]

/-! ### The settled statements -/

/-- Settles O13: a reset access leaves `State.resetOf` of the instance's parameters, the host's list apart. -/
theorem resetClearsEveryRegister : Obligations.ResetClearsEveryRegister := fun s src _ hp =>
  ⟨_, step_reset hp, rfl, rfl, rfl, rfl, rfl, rfl, rfl, rfl, resetOf_cells s.params src, rfl⟩

/-- Settles O14: the base case of the invariant, whose step is `stepKeepsInv` (O15). -/
theorem invAfterReset : Obligations.InvAfterReset := resetOf_inv

end Sys2Proof.Machine
end
